-- ==== Sys2Proof/Word.lean ====
section
/-! DEFINITION. The word types: the 64-bit limb and scalar word, and the 32-bit command word. Wide values
`U[B]` are naturals `< 2^B` (10_state.md rule R21) and have no type of their own. -/

namespace Sys2Proof

/-- A 64-bit word: a limb, a scalar register, a word of limb memory (00_scope.md R7, R8). -/
abbrev Word := BitVec 64

/-- A command word (30_encoding.md R70). -/
abbrev CommandWord := BitVec 32

end Sys2Proof
end

