-- ==== Sys2Proof/Syntax.lean ====
section
/-! DEFINITION. The command set UINTCORE-1 as syntax: one constructor per row of 30_encoding.md rule R78
(the 100 rows of spec/opcode_table.json), with the operand names and order of that table. -/

namespace Sys2Proof

/-- A 4-bit index into the wide register file `V0..V15` (R71; 10_state.md R23). -/
abbrev VReg := Fin 16

/-- A 4-bit index into the scalar register file `X0..X15` (R71; 10_state.md R25). -/
abbrev XReg := Fin 16

/-- The commands of UINTCORE-1 (R78). A mnemonic `OP.F` is the constructor `opF`; `NOT AND OR XOR EQ LT`
are `vnot vand vor vxor veq vlt`. -/
inductive Instr where
  -- System, move and constant commands (40_limbs_load_store.md section 3).
  | nop
  | lix (xd : XReg) (imm : BitVec 16)
  | mov (vd va : VReg)
  | ldc (vd : VReg) (sel : BitVec 16)
  | stl (vs : VReg) (xaddr : XReg)
  -- Limb loads: from limbs (exact) and from a limb slice in four variants (R114 to R118).
  | ldl (vd : VReg) (xaddr xn : XReg)
  | ldsW (vd : VReg) (xaddr xn : XReg)
  | ldsC (vd : VReg) (xaddr xn : XReg)
  | ldsO (vd : VReg) (xaddr xn : XReg)
  | ldsS (vd : VReg) (xaddr xn : XReg)
  -- Adder, multiplier and power in five flavours (41_arith_flavours.md).
  | addP (vd va vb : VReg)
  | addW (vd va vb : VReg)
  | addC (vd va vb : VReg)
  | addO (vd va vb : VReg)
  | addS (vd va vb : VReg)
  | subP (vd va vb : VReg)
  | subW (vd va vb : VReg)
  | subC (vd va vb : VReg)
  | subO (vd va vb : VReg)
  | subS (vd va vb : VReg)
  | mulP (vd va vb : VReg)
  | mulW (vd va vb : VReg)
  | mulC (vd va vb : VReg)
  | mulO (vd va vb : VReg)
  | mulS (vd va vb : VReg)
  | mulxP (vd va : VReg) (xb : XReg)
  | mulxW (vd va : VReg) (xb : XReg)
  | mulxC (vd va : VReg) (xb : XReg)
  | mulxO (vd va : VReg) (xb : XReg)
  | mulxS (vd va : VReg) (xb : XReg)
  | negP (vd va : VReg)
  | negW (vd va : VReg)
  | negC (vd va : VReg)
  | negO (vd va : VReg)
  | negS (vd va : VReg)
  | powP (vd va vb : VReg)
  | powW (vd va vb : VReg)
  | powC (vd va vb : VReg)
  | powO (vd va vb : VReg)
  | powS (vd va vb : VReg)
  -- Shifts in five flavours (44_bitwise_shift.md).
  | shlP (vd va : VReg) (xk : XReg)
  | shlW (vd va : VReg) (xk : XReg)
  | shlC (vd va : VReg) (xk : XReg)
  | shlO (vd va : VReg) (xk : XReg)
  | shlS (vd va : VReg) (xk : XReg)
  | shrP (vd va : VReg) (xk : XReg)
  | shrW (vd va : VReg) (xk : XReg)
  | shrC (vd va : VReg) (xk : XReg)
  | shrO (vd va : VReg) (xk : XReg)
  | shrS (vd va : VReg) (xk : XReg)
  -- Divider (42_divide_log_root.md section 2).
  | div (vd va vb : VReg)
  | rem (vd va vb : VReg)
  | cdiv (vd va vb : VReg)
  | crem (vd va vb : VReg)
  | divceil (vd va vb : VReg)
  | divrem (vq va vb vr : VReg)
  -- Integer logarithm and root (42_divide_log_root.md sections 3 and 4).
  | log (xd : XReg) (va vb : VReg)
  | clog (xd : XReg) (va vb : VReg)
  | log2 (xd : XReg) (va : VReg)
  | clog2 (xd : XReg) (va : VReg)
  | log10 (xd : XReg) (va : VReg)
  | clog10 (xd : XReg) (va : VReg)
  | root (vd va : VReg) (xdeg : XReg)
  -- Modular unit and Montgomery multiplication (43_modular.md sections 1 to 3).
  | redmod (vd va vm : VReg)
  | addmod (vd va vb vm : VReg)
  | mulmod (vd va vb vm : VReg)
  | powmod (vd va vb vm : VReg)
  | invmod (vd va vm : VReg)
  | mulredc (vd va vb vm : VReg) (xinv : XReg)
  | sqrredc (vd va vm : VReg) (xinv : XReg)
  -- gcd family (43_modular.md section 4).
  | gcd (vd va vb : VReg)
  | gcdext (vg va vb vx vy : VReg)
  | lcm (vd va vb : VReg)
  -- Limb-parallel logic, rotates, bit reversal (44_bitwise_shift.md).
  | vnot (vd va : VReg)
  | vand (vd va vb : VReg)
  | vor (vd va vb : VReg)
  | vxor (vd va vb : VReg)
  | rol (vd va : VReg) (xk : XReg)
  | ror (vd va : VReg) (xk : XReg)
  | revb (vd va : VReg)
  -- Scans and counts (45_bitscan_compare.md section 2).
  | clz (xd : XReg) (va : VReg)
  | clo (xd : XReg) (va : VReg)
  | ctz (xd : XReg) (va : VReg)
  | cto (xd : XReg) (va : VReg)
  | popc (xd : XReg) (va : VReg)
  | cntz (xd : XReg) (va : VReg)
  | bitlen (xd : XReg) (va : VReg)
  | bytelen (xd : XReg) (va : VReg)
  | iszero (xd : XReg) (va : VReg)
  | ispow2 (xd : XReg) (va : VReg)
  -- Next power of two, next multiple (45_bitscan_compare.md section 3).
  | nextpow2 (vd va : VReg)
  | nextmult (vd va vb : VReg)
  -- Bit and byte access (45_bitscan_compare.md section 4).
  | bit (xd : XReg) (va : VReg) (xi : XReg)
  | setbit (vd va : VReg) (xi : XReg)
  | clrbit (vd va : VReg) (xi : XReg)
  | byte (xd : XReg) (va : VReg) (xi : XReg)
  | cbyte (xd : XReg) (va : VReg) (xi : XReg)
  | msbits (xd : XReg) (va : VReg) (xk : XReg)
  -- Comparison (45_bitscan_compare.md section 5).
  | veq (xd : XReg) (va vb : VReg)
  | vlt (xd : XReg) (va vb : VReg)
  deriving DecidableEq, Repr

/-- Pseudo-instruction `ZERO vd` (R84). -/
abbrev Instr.pseudoZero (vd : VReg) : Instr := .ldc vd 0

/-- Pseudo-instruction `ONE vd` (R84). -/
abbrev Instr.pseudoOne (vd : VReg) : Instr := .ldc vd 1

/-- Pseudo-instruction `MAXV vd` (R84). -/
abbrev Instr.pseudoMaxv (vd : VReg) : Instr := .ldc vd 2

end Sys2Proof
end

