-- ==== Sys2Proof/WellFormed.lean ====
section
/-! DEFINITION. Operand legality beyond the must-be-zero test (30_encoding.md rule R79). Register indices and
the immediate are in range by their types. -/

namespace Sys2Proof

/-- R79: the selector of `LDC` is 0, 1 or 2; the two destinations of `DIVREM` differ; the three destinations
of `GCDEXT` are pairwise different. Every other command is legal with any operands. -/
def Instr.wellFormed : Instr → Bool
  | .nop => true
  | .lix _ _ => true
  | .mov _ _ => true
  | .ldc _ sel => decide (sel.toNat ≤ 2)
  | .stl _ _ => true
  | .ldl _ _ _ => true
  | .ldsW _ _ _ => true
  | .ldsC _ _ _ => true
  | .ldsO _ _ _ => true
  | .ldsS _ _ _ => true
  | .addP _ _ _ => true
  | .addW _ _ _ => true
  | .addC _ _ _ => true
  | .addO _ _ _ => true
  | .addS _ _ _ => true
  | .subP _ _ _ => true
  | .subW _ _ _ => true
  | .subC _ _ _ => true
  | .subO _ _ _ => true
  | .subS _ _ _ => true
  | .mulP _ _ _ => true
  | .mulW _ _ _ => true
  | .mulC _ _ _ => true
  | .mulO _ _ _ => true
  | .mulS _ _ _ => true
  | .mulxP _ _ _ => true
  | .mulxW _ _ _ => true
  | .mulxC _ _ _ => true
  | .mulxO _ _ _ => true
  | .mulxS _ _ _ => true
  | .negP _ _ => true
  | .negW _ _ => true
  | .negC _ _ => true
  | .negO _ _ => true
  | .negS _ _ => true
  | .powP _ _ _ => true
  | .powW _ _ _ => true
  | .powC _ _ _ => true
  | .powO _ _ _ => true
  | .powS _ _ _ => true
  | .shlP _ _ _ => true
  | .shlW _ _ _ => true
  | .shlC _ _ _ => true
  | .shlO _ _ _ => true
  | .shlS _ _ _ => true
  | .shrP _ _ _ => true
  | .shrW _ _ _ => true
  | .shrC _ _ _ => true
  | .shrO _ _ _ => true
  | .shrS _ _ _ => true
  | .div _ _ _ => true
  | .rem _ _ _ => true
  | .cdiv _ _ _ => true
  | .crem _ _ _ => true
  | .divceil _ _ _ => true
  | .divrem vq _ _ vr => decide (vq ≠ vr)
  | .log _ _ _ => true
  | .clog _ _ _ => true
  | .log2 _ _ => true
  | .clog2 _ _ => true
  | .log10 _ _ => true
  | .clog10 _ _ => true
  | .root _ _ _ => true
  | .redmod _ _ _ => true
  | .addmod _ _ _ _ => true
  | .mulmod _ _ _ _ => true
  | .powmod _ _ _ _ => true
  | .invmod _ _ _ => true
  | .mulredc _ _ _ _ _ => true
  | .sqrredc _ _ _ _ => true
  | .gcd _ _ _ => true
  | .gcdext vg _ _ vx vy => decide (vg ≠ vx) && decide (vg ≠ vy) && decide (vx ≠ vy)
  | .lcm _ _ _ => true
  | .vnot _ _ => true
  | .vand _ _ _ => true
  | .vor _ _ _ => true
  | .vxor _ _ _ => true
  | .rol _ _ _ => true
  | .ror _ _ _ => true
  | .revb _ _ => true
  | .clz _ _ => true
  | .clo _ _ => true
  | .ctz _ _ => true
  | .cto _ _ => true
  | .popc _ _ => true
  | .cntz _ _ => true
  | .bitlen _ _ => true
  | .bytelen _ _ => true
  | .iszero _ _ => true
  | .ispow2 _ _ => true
  | .nextpow2 _ _ => true
  | .nextmult _ _ _ => true
  | .bit _ _ _ => true
  | .setbit _ _ _ => true
  | .clrbit _ _ _ => true
  | .byte _ _ _ => true
  | .cbyte _ _ _ => true
  | .msbits _ _ _ => true
  | .veq _ _ _ => true
  | .vlt _ _ _ => true

end Sys2Proof
end

