-- ==== Sys2Proof/Decode.lean ====
section
/-! DEFINITION. Decoding a command word, total and rejecting by name (30_encoding.md rules R70 to R81), and
after it the encoder, both written from the table of rule R78. -/

namespace Sys2Proof

/-- The operand fields of a command word (R71, R72); `imm` overlays `F2..F5`. -/
structure Fields where
  f1 : Fin 16
  f2 : Fin 16
  f3 : Fin 16
  f4 : Fin 16
  f5 : Fin 16
  imm : BitVec 16
  deriving DecidableEq, Repr

/-- A 4-bit field as a register index (R71). -/
def regOfNibble (n : BitVec 4) : Fin 16 := ⟨n.toNat, n.isLt⟩

/-- A register index as a 4-bit field (R71). -/
def nibbleOfReg (r : Fin 16) : BitVec 4 := BitVec.ofNat 4 r.val

/-- `OPC`, bits 31:24 (R71). -/
def opcodeOf (w : CommandWord) : BitVec 8 := w.extractLsb' 24 8

/-- `F1` to `F5` and `IMM16` of a word (R71, R72). -/
def fieldsOf (w : CommandWord) : Fields where
  f1 := regOfNibble (w.extractLsb' 20 4)
  f2 := regOfNibble (w.extractLsb' 16 4)
  f3 := regOfNibble (w.extractLsb' 12 4)
  f4 := regOfNibble (w.extractLsb' 8 4)
  f5 := regOfNibble (w.extractLsb' 4 4)
  imm := w.extractLsb' 4 16

/-- One row of the table of rule R78: opcode, match, mask, and the command its fields make. -/
structure OpcodeRow where
  opc : BitVec 8
  matchWord : CommandWord
  mask : CommandWord
  build : Fields → Instr

/-- Rows of R78. System, move, constant, store: opcodes `0x00-0x04` (R76). -/
def rowsSystem : List OpcodeRow := [
  ⟨0x00, 0x00000000, 0xFFFFFFFF, fun _ => .nop⟩,
  ⟨0x01, 0x01000000, 0xFF00000F, fun f => .lix f.f1 f.imm⟩,
  ⟨0x02, 0x02000000, 0xFF00FFFF, fun f => .mov f.f1 f.f2⟩,
  ⟨0x03, 0x03000000, 0xFF00000F, fun f => .ldc f.f1 f.imm⟩,
  ⟨0x04, 0x04000000, 0xFF00FFFF, fun f => .stl f.f1 f.f2⟩]

/-- Rows of R78. Limb loads: `0x08-0x0C` (R75, R76). -/
def rowsLoad : List OpcodeRow := [
  ⟨0x08, 0x08000000, 0xFF000FFF, fun f => .ldl f.f1 f.f2 f.f3⟩,
  ⟨0x09, 0x09000000, 0xFF000FFF, fun f => .ldsW f.f1 f.f2 f.f3⟩,
  ⟨0x0A, 0x0A000000, 0xFF000FFF, fun f => .ldsC f.f1 f.f2 f.f3⟩,
  ⟨0x0B, 0x0B000000, 0xFF000FFF, fun f => .ldsO f.f1 f.f2 f.f3⟩,
  ⟨0x0C, 0x0C000000, 0xFF000FFF, fun f => .ldsS f.f1 f.f2 f.f3⟩]

/-- Rows of R78. `ADD`, `SUB`: `0x10-0x1C` (R76). -/
def rowsAddSub : List OpcodeRow := [
  ⟨0x10, 0x10000000, 0xFF000FFF, fun f => .addP f.f1 f.f2 f.f3⟩,
  ⟨0x11, 0x11000000, 0xFF000FFF, fun f => .addW f.f1 f.f2 f.f3⟩,
  ⟨0x12, 0x12000000, 0xFF000FFF, fun f => .addC f.f1 f.f2 f.f3⟩,
  ⟨0x13, 0x13000000, 0xFF000FFF, fun f => .addO f.f1 f.f2 f.f3⟩,
  ⟨0x14, 0x14000000, 0xFF000FFF, fun f => .addS f.f1 f.f2 f.f3⟩,
  ⟨0x18, 0x18000000, 0xFF000FFF, fun f => .subP f.f1 f.f2 f.f3⟩,
  ⟨0x19, 0x19000000, 0xFF000FFF, fun f => .subW f.f1 f.f2 f.f3⟩,
  ⟨0x1A, 0x1A000000, 0xFF000FFF, fun f => .subC f.f1 f.f2 f.f3⟩,
  ⟨0x1B, 0x1B000000, 0xFF000FFF, fun f => .subO f.f1 f.f2 f.f3⟩,
  ⟨0x1C, 0x1C000000, 0xFF000FFF, fun f => .subS f.f1 f.f2 f.f3⟩]

/-- Rows of R78. `MUL`, `MULX`: `0x20-0x2C` (R76). -/
def rowsMul : List OpcodeRow := [
  ⟨0x20, 0x20000000, 0xFF000FFF, fun f => .mulP f.f1 f.f2 f.f3⟩,
  ⟨0x21, 0x21000000, 0xFF000FFF, fun f => .mulW f.f1 f.f2 f.f3⟩,
  ⟨0x22, 0x22000000, 0xFF000FFF, fun f => .mulC f.f1 f.f2 f.f3⟩,
  ⟨0x23, 0x23000000, 0xFF000FFF, fun f => .mulO f.f1 f.f2 f.f3⟩,
  ⟨0x24, 0x24000000, 0xFF000FFF, fun f => .mulS f.f1 f.f2 f.f3⟩,
  ⟨0x28, 0x28000000, 0xFF000FFF, fun f => .mulxP f.f1 f.f2 f.f3⟩,
  ⟨0x29, 0x29000000, 0xFF000FFF, fun f => .mulxW f.f1 f.f2 f.f3⟩,
  ⟨0x2A, 0x2A000000, 0xFF000FFF, fun f => .mulxC f.f1 f.f2 f.f3⟩,
  ⟨0x2B, 0x2B000000, 0xFF000FFF, fun f => .mulxO f.f1 f.f2 f.f3⟩,
  ⟨0x2C, 0x2C000000, 0xFF000FFF, fun f => .mulxS f.f1 f.f2 f.f3⟩]

/-- Rows of R78. `NEG`, `POW`: `0x30-0x3C` (R76). -/
def rowsNegPow : List OpcodeRow := [
  ⟨0x30, 0x30000000, 0xFF00FFFF, fun f => .negP f.f1 f.f2⟩,
  ⟨0x31, 0x31000000, 0xFF00FFFF, fun f => .negW f.f1 f.f2⟩,
  ⟨0x32, 0x32000000, 0xFF00FFFF, fun f => .negC f.f1 f.f2⟩,
  ⟨0x33, 0x33000000, 0xFF00FFFF, fun f => .negO f.f1 f.f2⟩,
  ⟨0x34, 0x34000000, 0xFF00FFFF, fun f => .negS f.f1 f.f2⟩,
  ⟨0x38, 0x38000000, 0xFF000FFF, fun f => .powP f.f1 f.f2 f.f3⟩,
  ⟨0x39, 0x39000000, 0xFF000FFF, fun f => .powW f.f1 f.f2 f.f3⟩,
  ⟨0x3A, 0x3A000000, 0xFF000FFF, fun f => .powC f.f1 f.f2 f.f3⟩,
  ⟨0x3B, 0x3B000000, 0xFF000FFF, fun f => .powO f.f1 f.f2 f.f3⟩,
  ⟨0x3C, 0x3C000000, 0xFF000FFF, fun f => .powS f.f1 f.f2 f.f3⟩]

/-- Rows of R78. `SHL`, `SHR`: `0x40-0x4C` (R76). -/
def rowsShift : List OpcodeRow := [
  ⟨0x40, 0x40000000, 0xFF000FFF, fun f => .shlP f.f1 f.f2 f.f3⟩,
  ⟨0x41, 0x41000000, 0xFF000FFF, fun f => .shlW f.f1 f.f2 f.f3⟩,
  ⟨0x42, 0x42000000, 0xFF000FFF, fun f => .shlC f.f1 f.f2 f.f3⟩,
  ⟨0x43, 0x43000000, 0xFF000FFF, fun f => .shlO f.f1 f.f2 f.f3⟩,
  ⟨0x44, 0x44000000, 0xFF000FFF, fun f => .shlS f.f1 f.f2 f.f3⟩,
  ⟨0x48, 0x48000000, 0xFF000FFF, fun f => .shrP f.f1 f.f2 f.f3⟩,
  ⟨0x49, 0x49000000, 0xFF000FFF, fun f => .shrW f.f1 f.f2 f.f3⟩,
  ⟨0x4A, 0x4A000000, 0xFF000FFF, fun f => .shrC f.f1 f.f2 f.f3⟩,
  ⟨0x4B, 0x4B000000, 0xFF000FFF, fun f => .shrO f.f1 f.f2 f.f3⟩,
  ⟨0x4C, 0x4C000000, 0xFF000FFF, fun f => .shrS f.f1 f.f2 f.f3⟩]

/-- Rows of R78. Division, logarithm, root: `0x50-0x5E` (R76). -/
def rowsDivide : List OpcodeRow := [
  ⟨0x50, 0x50000000, 0xFF000FFF, fun f => .div f.f1 f.f2 f.f3⟩,
  ⟨0x51, 0x51000000, 0xFF000FFF, fun f => .rem f.f1 f.f2 f.f3⟩,
  ⟨0x52, 0x52000000, 0xFF000FFF, fun f => .cdiv f.f1 f.f2 f.f3⟩,
  ⟨0x53, 0x53000000, 0xFF000FFF, fun f => .crem f.f1 f.f2 f.f3⟩,
  ⟨0x54, 0x54000000, 0xFF000FFF, fun f => .divceil f.f1 f.f2 f.f3⟩,
  ⟨0x55, 0x55000000, 0xFF0000FF, fun f => .divrem f.f1 f.f2 f.f3 f.f4⟩,
  ⟨0x58, 0x58000000, 0xFF000FFF, fun f => .log f.f1 f.f2 f.f3⟩,
  ⟨0x59, 0x59000000, 0xFF000FFF, fun f => .clog f.f1 f.f2 f.f3⟩,
  ⟨0x5A, 0x5A000000, 0xFF00FFFF, fun f => .log2 f.f1 f.f2⟩,
  ⟨0x5B, 0x5B000000, 0xFF00FFFF, fun f => .clog2 f.f1 f.f2⟩,
  ⟨0x5C, 0x5C000000, 0xFF00FFFF, fun f => .log10 f.f1 f.f2⟩,
  ⟨0x5D, 0x5D000000, 0xFF00FFFF, fun f => .clog10 f.f1 f.f2⟩,
  ⟨0x5E, 0x5E000000, 0xFF000FFF, fun f => .root f.f1 f.f2 f.f3⟩]

/-- Rows of R78. Modular unit, Montgomery, gcd: `0x60-0x6A` (R76). -/
def rowsModular : List OpcodeRow := [
  ⟨0x60, 0x60000000, 0xFF000FFF, fun f => .redmod f.f1 f.f2 f.f3⟩,
  ⟨0x61, 0x61000000, 0xFF0000FF, fun f => .addmod f.f1 f.f2 f.f3 f.f4⟩,
  ⟨0x62, 0x62000000, 0xFF0000FF, fun f => .mulmod f.f1 f.f2 f.f3 f.f4⟩,
  ⟨0x63, 0x63000000, 0xFF0000FF, fun f => .powmod f.f1 f.f2 f.f3 f.f4⟩,
  ⟨0x64, 0x64000000, 0xFF000FFF, fun f => .invmod f.f1 f.f2 f.f3⟩,
  ⟨0x65, 0x65000000, 0xFF00000F, fun f => .mulredc f.f1 f.f2 f.f3 f.f4 f.f5⟩,
  ⟨0x66, 0x66000000, 0xFF00F00F, fun f => .sqrredc f.f1 f.f2 f.f4 f.f5⟩,
  ⟨0x68, 0x68000000, 0xFF000FFF, fun f => .gcd f.f1 f.f2 f.f3⟩,
  ⟨0x69, 0x69000000, 0xFF00000F, fun f => .gcdext f.f1 f.f2 f.f3 f.f4 f.f5⟩,
  ⟨0x6A, 0x6A000000, 0xFF000FFF, fun f => .lcm f.f1 f.f2 f.f3⟩]

/-- Rows of R78. Logic, rotates, reversal: `0x70-0x76` (R76). -/
def rowsLogic : List OpcodeRow := [
  ⟨0x70, 0x70000000, 0xFF00FFFF, fun f => .vnot f.f1 f.f2⟩,
  ⟨0x71, 0x71000000, 0xFF000FFF, fun f => .vand f.f1 f.f2 f.f3⟩,
  ⟨0x72, 0x72000000, 0xFF000FFF, fun f => .vor f.f1 f.f2 f.f3⟩,
  ⟨0x73, 0x73000000, 0xFF000FFF, fun f => .vxor f.f1 f.f2 f.f3⟩,
  ⟨0x74, 0x74000000, 0xFF000FFF, fun f => .rol f.f1 f.f2 f.f3⟩,
  ⟨0x75, 0x75000000, 0xFF000FFF, fun f => .ror f.f1 f.f2 f.f3⟩,
  ⟨0x76, 0x76000000, 0xFF00FFFF, fun f => .revb f.f1 f.f2⟩]

/-- Rows of R78. Scans and counts: `0x80-0x89` (R76). -/
def rowsScan : List OpcodeRow := [
  ⟨0x80, 0x80000000, 0xFF00FFFF, fun f => .clz f.f1 f.f2⟩,
  ⟨0x81, 0x81000000, 0xFF00FFFF, fun f => .clo f.f1 f.f2⟩,
  ⟨0x82, 0x82000000, 0xFF00FFFF, fun f => .ctz f.f1 f.f2⟩,
  ⟨0x83, 0x83000000, 0xFF00FFFF, fun f => .cto f.f1 f.f2⟩,
  ⟨0x84, 0x84000000, 0xFF00FFFF, fun f => .popc f.f1 f.f2⟩,
  ⟨0x85, 0x85000000, 0xFF00FFFF, fun f => .cntz f.f1 f.f2⟩,
  ⟨0x86, 0x86000000, 0xFF00FFFF, fun f => .bitlen f.f1 f.f2⟩,
  ⟨0x87, 0x87000000, 0xFF00FFFF, fun f => .bytelen f.f1 f.f2⟩,
  ⟨0x88, 0x88000000, 0xFF00FFFF, fun f => .iszero f.f1 f.f2⟩,
  ⟨0x89, 0x89000000, 0xFF00FFFF, fun f => .ispow2 f.f1 f.f2⟩]

/-- Rows of R78. Next power and multiple, bit and byte access, comparison: `0x8A-0x99` (R76). -/
def rowsAccess : List OpcodeRow := [
  ⟨0x8A, 0x8A000000, 0xFF00FFFF, fun f => .nextpow2 f.f1 f.f2⟩,
  ⟨0x8B, 0x8B000000, 0xFF000FFF, fun f => .nextmult f.f1 f.f2 f.f3⟩,
  ⟨0x8C, 0x8C000000, 0xFF000FFF, fun f => .bit f.f1 f.f2 f.f3⟩,
  ⟨0x8D, 0x8D000000, 0xFF000FFF, fun f => .setbit f.f1 f.f2 f.f3⟩,
  ⟨0x8E, 0x8E000000, 0xFF000FFF, fun f => .clrbit f.f1 f.f2 f.f3⟩,
  ⟨0x8F, 0x8F000000, 0xFF000FFF, fun f => .byte f.f1 f.f2 f.f3⟩,
  ⟨0x90, 0x90000000, 0xFF000FFF, fun f => .cbyte f.f1 f.f2 f.f3⟩,
  ⟨0x91, 0x91000000, 0xFF000FFF, fun f => .msbits f.f1 f.f2 f.f3⟩,
  ⟨0x98, 0x98000000, 0xFF000FFF, fun f => .veq f.f1 f.f2 f.f3⟩,
  ⟨0x99, 0x99000000, 0xFF000FFF, fun f => .vlt f.f1 f.f2 f.f3⟩]

/-- The opcode table of rule R78, in opcode order. -/
def opcodeTable : List OpcodeRow :=
  rowsSystem ++ rowsLoad ++ rowsAddSub ++ rowsMul ++ rowsNegPow ++ rowsShift ++
  rowsDivide ++ rowsModular ++ rowsLogic ++ rowsScan ++ rowsAccess

/-- Why a word is illegal (R80). Every one of them traps `IllegalCommand`. -/
inductive Illegal where
  /-- the opcode is in no row of R78 -/
  | unknownOpcode
  /-- a must-be-zero bit is set: an unused field or the `Z` nibble (R77) -/
  | mustBeZeroSet
  /-- a condition of R79 fails -/
  | operandCondition
  deriving DecidableEq, Repr

/-- The row whose opcode is `opc` (R77). -/
def rowOf (opc : BitVec 8) : Option OpcodeRow := opcodeTable.find? fun row => row.opc == opc

/-- R79, applied after the mask test (R77). -/
def checkOperands (i : Instr) : Except Illegal Instr :=
  if i.wellFormed then .ok i else .error .operandCondition

/-- The decoding procedure of rule R77: the row by opcode, then `(w AND mask) = match`, then rule R79. -/
def decode (w : CommandWord) : Except Illegal Instr :=
  match rowOf (opcodeOf w) with
  | none => .error .unknownOpcode
  | some row =>
    if w &&& row.mask = row.matchWord then checkOperands (row.build (fieldsOf w))
    else .error .mustBeZeroSet

/-- The instruction the decoder reads from a word numbered as spec/opcode_table.json numbers it. A command is
one 32-bit word (R70); a shorter `nbits` leaves the bits above it zero. -/
def decodeTableWord (nbits w : Nat) : Option Instr :=
  if nbits ≤ 32 then
    match decode (BitVec.ofNat 32 (w % 2 ^ nbits)) with
    | .ok i => some i
    | .error _ => none
  else none

/-- A format R word with `Z = 0` (R71). -/
def packR (opc : BitVec 8) (f1 f2 f3 f4 f5 : Fin 16) : CommandWord :=
  BitVec.ofNat 32 (opc.toNat * 2 ^ 24 + f1.val * 2 ^ 20 + f2.val * 2 ^ 16 + f3.val * 2 ^ 12 +
    f4.val * 2 ^ 8 + f5.val * 2 ^ 4)

/-- A format I word with `Z = 0` (R72). -/
def packI (opc : BitVec 8) (f1 : Fin 16) (imm : BitVec 16) : CommandWord :=
  BitVec.ofNat 32 (opc.toNat * 2 ^ 24 + f1.val * 2 ^ 20 + imm.toNat * 2 ^ 4)

/-- The word of a command (R78); an unused field is `0000`. -/
def encode : Instr → CommandWord
  | .nop => packR 0x00 0 0 0 0 0
  | .lix xd imm => packI 0x01 xd imm
  | .mov vd va => packR 0x02 vd va 0 0 0
  | .ldc vd sel => packI 0x03 vd sel
  | .stl vs xaddr => packR 0x04 vs xaddr 0 0 0
  | .ldl vd xaddr xn => packR 0x08 vd xaddr xn 0 0
  | .ldsW vd xaddr xn => packR 0x09 vd xaddr xn 0 0
  | .ldsC vd xaddr xn => packR 0x0A vd xaddr xn 0 0
  | .ldsO vd xaddr xn => packR 0x0B vd xaddr xn 0 0
  | .ldsS vd xaddr xn => packR 0x0C vd xaddr xn 0 0
  | .addP vd va vb => packR 0x10 vd va vb 0 0
  | .addW vd va vb => packR 0x11 vd va vb 0 0
  | .addC vd va vb => packR 0x12 vd va vb 0 0
  | .addO vd va vb => packR 0x13 vd va vb 0 0
  | .addS vd va vb => packR 0x14 vd va vb 0 0
  | .subP vd va vb => packR 0x18 vd va vb 0 0
  | .subW vd va vb => packR 0x19 vd va vb 0 0
  | .subC vd va vb => packR 0x1A vd va vb 0 0
  | .subO vd va vb => packR 0x1B vd va vb 0 0
  | .subS vd va vb => packR 0x1C vd va vb 0 0
  | .mulP vd va vb => packR 0x20 vd va vb 0 0
  | .mulW vd va vb => packR 0x21 vd va vb 0 0
  | .mulC vd va vb => packR 0x22 vd va vb 0 0
  | .mulO vd va vb => packR 0x23 vd va vb 0 0
  | .mulS vd va vb => packR 0x24 vd va vb 0 0
  | .mulxP vd va xb => packR 0x28 vd va xb 0 0
  | .mulxW vd va xb => packR 0x29 vd va xb 0 0
  | .mulxC vd va xb => packR 0x2A vd va xb 0 0
  | .mulxO vd va xb => packR 0x2B vd va xb 0 0
  | .mulxS vd va xb => packR 0x2C vd va xb 0 0
  | .negP vd va => packR 0x30 vd va 0 0 0
  | .negW vd va => packR 0x31 vd va 0 0 0
  | .negC vd va => packR 0x32 vd va 0 0 0
  | .negO vd va => packR 0x33 vd va 0 0 0
  | .negS vd va => packR 0x34 vd va 0 0 0
  | .powP vd va vb => packR 0x38 vd va vb 0 0
  | .powW vd va vb => packR 0x39 vd va vb 0 0
  | .powC vd va vb => packR 0x3A vd va vb 0 0
  | .powO vd va vb => packR 0x3B vd va vb 0 0
  | .powS vd va vb => packR 0x3C vd va vb 0 0
  | .shlP vd va xk => packR 0x40 vd va xk 0 0
  | .shlW vd va xk => packR 0x41 vd va xk 0 0
  | .shlC vd va xk => packR 0x42 vd va xk 0 0
  | .shlO vd va xk => packR 0x43 vd va xk 0 0
  | .shlS vd va xk => packR 0x44 vd va xk 0 0
  | .shrP vd va xk => packR 0x48 vd va xk 0 0
  | .shrW vd va xk => packR 0x49 vd va xk 0 0
  | .shrC vd va xk => packR 0x4A vd va xk 0 0
  | .shrO vd va xk => packR 0x4B vd va xk 0 0
  | .shrS vd va xk => packR 0x4C vd va xk 0 0
  | .div vd va vb => packR 0x50 vd va vb 0 0
  | .rem vd va vb => packR 0x51 vd va vb 0 0
  | .cdiv vd va vb => packR 0x52 vd va vb 0 0
  | .crem vd va vb => packR 0x53 vd va vb 0 0
  | .divceil vd va vb => packR 0x54 vd va vb 0 0
  | .divrem vq va vb vr => packR 0x55 vq va vb vr 0
  | .log xd va vb => packR 0x58 xd va vb 0 0
  | .clog xd va vb => packR 0x59 xd va vb 0 0
  | .log2 xd va => packR 0x5A xd va 0 0 0
  | .clog2 xd va => packR 0x5B xd va 0 0 0
  | .log10 xd va => packR 0x5C xd va 0 0 0
  | .clog10 xd va => packR 0x5D xd va 0 0 0
  | .root vd va xdeg => packR 0x5E vd va xdeg 0 0
  | .redmod vd va vm => packR 0x60 vd va vm 0 0
  | .addmod vd va vb vm => packR 0x61 vd va vb vm 0
  | .mulmod vd va vb vm => packR 0x62 vd va vb vm 0
  | .powmod vd va vb vm => packR 0x63 vd va vb vm 0
  | .invmod vd va vm => packR 0x64 vd va vm 0 0
  | .mulredc vd va vb vm xinv => packR 0x65 vd va vb vm xinv
  | .sqrredc vd va vm xinv => packR 0x66 vd va 0 vm xinv
  | .gcd vd va vb => packR 0x68 vd va vb 0 0
  | .gcdext vg va vb vx vy => packR 0x69 vg va vb vx vy
  | .lcm vd va vb => packR 0x6A vd va vb 0 0
  | .vnot vd va => packR 0x70 vd va 0 0 0
  | .vand vd va vb => packR 0x71 vd va vb 0 0
  | .vor vd va vb => packR 0x72 vd va vb 0 0
  | .vxor vd va vb => packR 0x73 vd va vb 0 0
  | .rol vd va xk => packR 0x74 vd va xk 0 0
  | .ror vd va xk => packR 0x75 vd va xk 0 0
  | .revb vd va => packR 0x76 vd va 0 0 0
  | .clz xd va => packR 0x80 xd va 0 0 0
  | .clo xd va => packR 0x81 xd va 0 0 0
  | .ctz xd va => packR 0x82 xd va 0 0 0
  | .cto xd va => packR 0x83 xd va 0 0 0
  | .popc xd va => packR 0x84 xd va 0 0 0
  | .cntz xd va => packR 0x85 xd va 0 0 0
  | .bitlen xd va => packR 0x86 xd va 0 0 0
  | .bytelen xd va => packR 0x87 xd va 0 0 0
  | .iszero xd va => packR 0x88 xd va 0 0 0
  | .ispow2 xd va => packR 0x89 xd va 0 0 0
  | .nextpow2 vd va => packR 0x8A vd va 0 0 0
  | .nextmult vd va vb => packR 0x8B vd va vb 0 0
  | .bit xd va xi => packR 0x8C xd va xi 0 0
  | .setbit vd va xi => packR 0x8D vd va xi 0 0
  | .clrbit vd va xi => packR 0x8E vd va xi 0 0
  | .byte xd va xi => packR 0x8F xd va xi 0 0
  | .cbyte xd va xi => packR 0x90 xd va xi 0 0
  | .msbits xd va xk => packR 0x91 xd va xk 0 0
  | .veq xd va vb => packR 0x98 xd va vb 0 0
  | .vlt xd va vb => packR 0x99 xd va vb 0 0

end Sys2Proof
end

