-- ==== Sys2Proof/Machine/Limbs.lean ====
section
/-! DEFINITION. Limbs, the top-limb mask, and the limb primitives of 40_limbs_load_store.md rules R100 to R107,
with the notation of 00_scope.md rules R7 and R9. A limb sequence is a list, limb 0 first. -/

namespace Sys2Proof.Machine

/-- `L = ceil(B/64)` (R7). -/
def limbCount (B : Nat) : Nat := (B + 63) / 64

/-- `MASK`, the top-limb mask (R7; 90_conflicts.md C2); unused when `L = 0`. -/
def topMask (B : Nat) : Word := if B % 64 = 0 then BitVec.allOnes 64 else BitVec.ofNat 64 (2 ^ (B % 64) - 1)

/-- `ZERO = 0` (R107). -/
abbrev zeroValue : Nat := 0

/-- `MAX = 2^B − 1` (R7, R107). -/
def maxValue (B : Nat) : Nat := 2 ^ B - 1

/-- `ONE = 1 mod 2^B` (R107). -/
def oneValue (B : Nat) : Nat := 1 % 2 ^ B

/-- `limb(v, j) = v[64j+63 : 64j]` (R9). -/
def limb (v j : Nat) : Word := BitVec.ofNat 64 (v / 2 ^ (64 * j))

/-- The first `n` limbs of `v`, limb 0 first (R9, R20). -/
def limbsOf : Nat → Nat → List Word
  | 0, _ => []
  | n + 1, v => BitVec.ofNat 64 v :: limbsOf n (v / 2 ^ 64)

/-- `val(s) = Σ_j s[j]·2^(64j)` (R9). -/
def val : List Word → Nat
  | [] => 0
  | w :: ws => w.toNat + 2 ^ 64 * val ws

/-- Byte lane `t` of a limb: bits `8t+7 : 8t` (20_memory.md R51). -/
def byteLane (w : Word) (t : Nat) : BitVec 8 := w.extractLsb' (8 * t) 8

/-- `adc`: the full adder on words (R100). -/
def adc (a b : Word) (c : Bool) : Word × Bool :=
  let t := a.toNat + b.toNat + c.toNat
  (BitVec.ofNat 64 t, decide (2 ^ 64 ≤ t))

/-- `sbb`: difference word and borrow (R101). -/
def sbb (a b : Word) (c : Bool) : Word × Bool :=
  if b.toNat + c.toNat ≤ a.toNat then (BitVec.ofNat 64 (a.toNat - (b.toNat + c.toNat)), false)
  else (BitVec.ofNat 64 (a.toNat + 2 ^ 64 - (b.toNat + c.toNat)), true)

/-- `add_n`: ripple addition, limb 0 first (R102). -/
def addN : List Word → List Word → Bool → List Word × Bool
  | a :: as, b :: bs, c =>
    let (s, c') := adc a b c
    let (ss, out) := addN as bs c'
    (s :: ss, out)
  | _, _, c => ([], c)

/-- `sub_n`: ripple subtraction (R103). -/
def subN : List Word → List Word → Bool → List Word × Bool
  | a :: as, b :: bs, c =>
    let (s, c') := sbb a b c
    let (ss, out) := subN as bs c'
    (s :: ss, out)
  | _, _, c => ([], c)

/-- `mac`: low word and carry word of `a·b + acc + c` (R104). -/
def mac (a b acc c : Word) : Word × Word :=
  let t := a.toNat * b.toNat + acc.toNat + c.toNat
  (BitVec.ofNat 64 t, BitVec.ofNat 64 (t / 2 ^ 64))

/-- The inner loop of `mul_nxm` for one limb `a` of the first factor: `rs` is the product from limb `i` up; the
limb after the `m` accumulated ones becomes the last carry (R105). -/
def mulRow (a : Word) : List Word → List Word → Word → List Word
  | b :: bs, r :: rs, c =>
    let (lo, hi) := mac a b r c
    lo :: mulRow a bs rs hi
  | [], _ :: rs, c => c :: rs
  | _, [], _ => []

/-- The outer loop of `mul_nxm`: `rs` is the product from the current limb up (R105). -/
def mulLoop : List Word → List Word → List Word → List Word
  | [], _, rs => rs
  | a :: as, bs, rs =>
    match mulRow a bs rs 0 with
    | [] => []
    | r :: rs' => r :: mulLoop as bs rs'

/-- `mul_nxm`: schoolbook product of `n + m` limbs (R105). -/
def mulNxM (as bs : List Word) : List Word := mulLoop as bs (List.replicate (as.length + bs.length) 0)

/-- `canon_limbs`: the top limb masked (R106). -/
def canonLimbs (B : Nat) : List Word → List Word
  | [] => []
  | [w] => [w &&& topMask B]
  | w :: w' :: ws => w :: canonLimbs B (w' :: ws)

/-- Whether the top limb has a masked-off bit set (R106). -/
def maskedOff (B : Nat) (s : List Word) : Bool := decide (s.getLastD 0 &&& ~~~topMask B ≠ 0)

end Sys2Proof.Machine
end

