-- ==== Sys2Proof/Config.lean ====
section
/-! DEFINITION. What an instance of the block fixes, and the free values the spec leaves open. -/

namespace Sys2Proof

/-- The OPEN parameters of an instance (00_scope.md R7): fixed at instantiation, the same at every step.
The bounds of R7 are the types' own. -/
structure Params where
  /-- `B`, the bit width of every wide value, `0 ≤ B < 2^32`. -/
  width : Fin 4294967296
  /-- `NLMEM`, the number of words of limb memory, `0 ≤ NLMEM < 2^32`. -/
  nlmem : Fin 4294967296
  /-- `DEBUG`: plain-flavour arithmetic traps on overflow. -/
  debug : Bool
  /-- `SHR_OVF_INEXACT`: a right shift reports lost bits as overflow. -/
  shrOvfInexact : Bool
  deriving DecidableEq, Repr

/-- FREE VALUE. What `LMEM[i]` reads as after the `epoch`-th reset while nothing has been written to it
since: "an arbitrary 64-bit value, drawn once when first read" (10_state.md R39; 93 U8). DESIGN CHOICE
(log 4), safe: it has no body, so nothing can be proved of its value. -/
opaque Config.freeLmemWord (epoch index : Nat) : Word

/-- FREE VALUE. The triple `(x, y, s)` the `n`-th `GCDEXT` proposes for its cofactors and sign
(43_modular.md R228; 93 U5). The command takes it when it satisfies R228's relation. DESIGN CHOICE (log 6),
safe: it has no body. -/
opaque Config.freeCofactors (n : Nat) : Nat × Nat × Bool

end Sys2Proof
end

