-- ==== Sys2Proof/Machine/State.lean ====
section
/-! DEFINITION. The machine's state, as plain data: every piece of state of 10_state.md, the reset input, and
the model's own bookkeeping of the host's side (INVENTORY.md, State). -/

namespace Sys2Proof.Machine

/-- The error kinds of 60_exceptions.md rule R321, codes 1 to 10 in order. The three parser kinds
`invalidDigit`, `invalidRadix`, `empty` are reserved and never raised. -/
inductive Kind where
  | invalidLength
  | overflow
  | divisionByZero
  | invalidDigit
  | invalidRadix
  | empty
  | notInvertible
  | domainError
  | illegalCommand
  | lmemRange
  deriving DecidableEq, Repr

/-- The status register `ST` by its fields (10_state.md R26). `kind = none` is code 0. The reserved bits 63:9
read as zero and have no storage. -/
structure Status where
  /-- `OVF`, bit 0 (R27) -/
  ovf : Bool
  /-- `SGN`, bit 1 (43_modular.md R228) -/
  sgn : Bool
  /-- `ABS`, bit 2 (R28) -/
  abs : Bool
  /-- `FAULT`, bit 3, sticky until reset (R28; 60_exceptions.md R326) -/
  fault : Bool
  /-- `KIND`, bits 7:4 (R28) -/
  kind : Option Kind
  /-- `BUSY`, bit 8 (R29); 0 between steps -/
  busy : Bool
  deriving DecidableEq, Repr

/-- What the host can do between commands (10_state.md R38; 20_memory.md R56, R57; 70_reset_and_hazards.md
R350, R360): read or write a word of the host register space by its index, drive the reset input. Giving a
command is a write to `CMD`, index 6 (R33). -/
inductive HostAction where
  | read (index : Nat)
  | write (index : Nat) (value : Word)
  | assertRst
  | releaseRst
  deriving DecidableEq, Repr

/-- Limb memory as the words written since reset: (word index, word) pairs (10_state.md R35, R39). A word that
is not listed has not been written since reset (log 4, log 5). -/
abbrev Memory := List (Nat × Word)

/-- The canonical form: indices strictly rising. An unlisted index holds no word at all, so no entry can equal
what an unlisted index holds, and equal memories are equal lists. -/
abbrev Memory.wf (m : Memory) : Prop := m.Pairwise fun p q => p.1 < q.1

/-- The whole state. -/
structure State where
  /-- The instance's parameters (00_scope.md R7): `WIDTH`, `LIMBS`, `LMSIZE`, `CAP` are views of them (10_state.md
  R32). No step changes them (log 1). -/
  params : Params
  /-- `V0..V15`, each a natural `< 2^B` (R20, R21, R23). -/
  v : Vector Nat 16
  /-- `X0..X15` (R25). -/
  x : Vector Word 16
  /-- `ST` (R26). -/
  st : Status
  /-- `FCMD` (R31). -/
  fcmd : Word
  /-- The command word being executed, latched from the write to `CMD` that gave it (R33). No read shows it; a
  trap copies it to `FCMD`. DESIGN CHOICE (log 8). -/
  cmd : CommandWord
  /-- `LMEM` (R35). -/
  lmem : Memory
  /-- The reset input `rst` (70_reset_and_hazards.md R350). -/
  rst : Bool
  /-- The host's pending actions, oldest first (R37, R360). The model's own. DESIGN CHOICE (log 2). -/
  host : List HostAction
  /-- The word the latest host read returned (20_memory.md R56). The model's own. DESIGN CHOICE (log 9). -/
  hostData : Word
  /-- Resets so far: which draw of unwritten `LMEM` words is in force. The model's own. DESIGN CHOICE (log 4). -/
  epoch : Nat
  /-- `GCDEXT` draws so far. The model's own. DESIGN CHOICE (log 6). -/
  draws : Nat
  deriving DecidableEq, Repr

/-- The one way a step stops. No instruction's meaning raises it. -/
inductive Fault where
  /-- Raised by a step whose host action writes `CMD`, or reads or writes an `X` register or an `LMEM` word, while
  `ST.BUSY = 1`: "an access made against this rule is outside the spec" (20_memory.md R57; 93 U12). Safe: the
  machine goes no further. -/
  | handshakeBroken
  deriving DecidableEq, Repr

/-- Reasons to refuse an instruction. -/
inductive Refusal where
  /-- Raised by an arm of exec for an instruction that has no meaning yet. Safe. No arm of this model does. -/
  | notModelled (mnemonic : String)
  deriving DecidableEq, Repr

/-- What a meaning and a step answer. -/
abbrev Result := Host.Outcome State Fault Refusal

/-- `ST` after reset (R39): every field 0. -/
def Status.reset : Status where
  ovf := false
  sgn := false
  abs := false
  fault := false
  kind := none
  busy := false

/-- The state right after reset of an instance with parameters `p` (10_state.md R39; 70_reset_and_hazards.md
R350). The fields the spec gives no value for are the model's own: `cmd`, `host`, `hostData`, `epoch`, `draws`
(log 2, 4, 6, 8, 9). -/
def State.resetOf (p : Params) : State where
  params := p
  v := Vector.replicate 16 0
  x := Vector.replicate 16 0
  st := Status.reset
  fcmd := 0
  cmd := 0
  lmem := []
  rst := false
  host := []
  hostData := 0
  epoch := 0
  draws := 0

/-- The instance of `State.reset`: `B = 256` and the default parameters of 95_test_vectors.md section 0. DESIGN
CHOICE (log 1): the parameters are open, and claims are made of every instance. -/
def Params.reference : Params where
  width := ⟨256, by decide⟩
  nlmem := ⟨64, by decide⟩
  debug := false
  shrOvfInexact := true

/-- The machine right after reset. -/
def State.reset : State := State.resetOf Params.reference

end Sys2Proof.Machine
end

