-- ==== Sys2Proof/Machine/Flags.lean ====
section
/-! DEFINITION. Every flag computation: the triple `(r, ovf, sat)` of 41_arith_flavours.md rule R130 for each
flavoured operation, and the status and configuration words of 10_state.md rules R26 and R32. -/

namespace Sys2Proof.Machine

/-- The triple of rule R130: the wrapped result, the overflow flag, the saturation value. -/
structure Narrowed where
  r : Nat
  ovf : Bool
  sat : Nat
  deriving DecidableEq, Repr

/-- An exact integer result `e` narrowed to `U[B]` (R130): `r = e mod 2^B`, `ovf` when `e` lies outside
`[0, 2^B)`, `sat` the end of `[0, MAX]` nearest to `e`. -/
def narrow (B : Nat) (e : Int) : Narrowed where
  r := (e % (2 ^ B : Nat)).toNat
  ovf := decide (e < 0 ∨ (2 ^ B : Nat) ≤ e)
  sat := if e < 0 then 0 else maxValue B

/-- `add(a, b)` (R131). -/
def addVal (B a b : Nat) : Narrowed := narrow B ((a : Int) + b)

/-- `sub(a, b)` (R132). -/
def subVal (B a b : Nat) : Narrowed := narrow B ((a : Int) - b)

/-- `mul(a, b)` (R133). -/
def mulVal (B a b : Nat) : Narrowed := narrow B ((a : Int) * b)

/-- `mulx(a, s)` with a full 64-bit scalar, not reduced first (R134). -/
def mulxVal (B a : Nat) (s : Word) : Narrowed := narrow B ((a : Int) * s.toNat)

/-- `neg(a)`: sub from 0 (R135). -/
def negVal (B a : Nat) : Narrowed := subVal B 0 a

/-- The loop of rule R136 over bits `i−1 .. 0` of the exponent, wrapping at each square and multiply and tracking
the flag. -/
def powLoop (B a x : Nat) : Nat → Nat → Bool → Nat × Bool
  | 0, r, o => (r, o)
  | i + 1, r, o =>
    let sq := mulVal B r r
    if x.testBit i then
      let m := mulVal B sq.r a
      powLoop B a x i m.r (o || sq.ovf || m.ovf)
    else powLoop B a x i sq.r (o || sq.ovf)

/-- `pow(a, x)` (R136): left-to-right binary exponentiation over the `B` bits of the exponent. -/
def powVal (B a x : Nat) : Narrowed where
  r := (powLoop B a x B (oneValue B) false).1
  ovf := (powLoop B a x B (oneValue B) false).2
  sat := maxValue B

/-- `shl(x, k)` (44_bitwise_shift.md R245): for `k ≥ B` the result is `ZERO` and any set bit is lost. -/
def shlVal (B x k : Nat) : Narrowed where
  r := if B ≤ k then 0 else x * 2 ^ k % 2 ^ B
  ovf := if B ≤ k then decide (x ≠ 0) else decide (x / 2 ^ (B - k) ≠ 0)
  sat := maxValue B

/-- `x div 2^k`, `ZERO` for `k ≥ B` (R246). -/
def shrResult (B x k : Nat) : Nat := if B ≤ k then 0 else x / 2 ^ k

/-- Whether a right shift by `k` loses a set bit (R246). -/
def shrLosesBits (B x k : Nat) : Bool := if B ≤ k then decide (x ≠ 0) else decide (x % 2 ^ k ≠ 0)

/-- `shr(x, k)` (R246); `inexact` is the parameter `SHR_OVF_INEXACT`. -/
def shrVal (inexact : Bool) (B x k : Nat) : Narrowed where
  r := shrResult B x k
  ovf := inexact && shrLosesBits B x k
  sat := shrResult B x k

/-- `from_slice(s)` (40_limbs_load_store.md R108): `(wrapped, excess)` and the saturation value of the limb-slice
constructors; a slice shorter than `L` is zero-padded. -/
def fromSlice (B : Nat) (ws : List Word) : Narrowed := narrow B (val ws)

/-- The code of a kind (60_exceptions.md R321). -/
def Kind.code : Kind → Nat
  | .invalidLength => 1
  | .overflow => 2
  | .divisionByZero => 3
  | .invalidDigit => 4
  | .invalidRadix => 5
  | .empty => 6
  | .notInvertible => 7
  | .domainError => 8
  | .illegalCommand => 9
  | .lmemRange => 10

/-- `ST.KIND` as a number: 0 when there is none (R321). -/
def kindCode : Option Kind → Nat
  | none => 0
  | some k => k.code

/-- The 64-bit word of `ST` (10_state.md R26). -/
def statusWord (st : Status) : Word :=
  BitVec.ofNat 64 (st.ovf.toNat + 2 * st.sgn.toNat + 4 * st.abs.toNat + 8 * st.fault.toNat +
    16 * kindCode st.kind + 256 * st.busy.toNat)

/-- `WIDTH` (R32). -/
def widthWord (p : Params) : Word := BitVec.ofNat 64 p.width.val

/-- `LIMBS` (R32). -/
def limbsWord (p : Params) : Word := BitVec.ofNat 64 (limbCount p.width.val)

/-- `LMSIZE` (R32). -/
def lmsizeWord (p : Params) : Word := BitVec.ofNat 64 p.nlmem.val

/-- `CAP` (R32): `NV = 16`, `NX = 16`, command-set version 1. -/
def capWord (p : Params) : Word :=
  BitVec.ofNat 64 ((p.debug).toNat + 2 * p.shrOvfInexact.toNat + 16 * 2 ^ 8 + 16 * 2 ^ 16 + 1 * 2 ^ 24)

end Sys2Proof.Machine
end

