-- ==== Sys2Proof/Machine/Ops.lean ====
section
/-! DEFINITION. The named operations over registers and limb memory, the three outcomes of a command, the five
flavours, and reset. Trapping is the one way an exception is taken (60_exceptions.md rule R325). -/

namespace Sys2Proof.Machine

/-- `B` of the instance. -/
def State.B (s : State) : Nat := s.params.width.val

/-- `V[i]` (00_scope.md R10). -/
def State.readV (s : State) (i : VReg) : Nat := s.v[i]

/-- `V[i] <- n` (R10); every rule writes an `n < 2^B`. -/
def State.writeV (s : State) (i : VReg) (n : Nat) : State := { s with v := s.v.set i n }

/-- `X[i]` (R10). -/
def State.readX (s : State) (i : XReg) : Word := s.x[i]

/-- `X[i] <- w` (R10). -/
def State.writeX (s : State) (i : XReg) (w : Word) : State := { s with x := s.x.set i w }

/-- `X[i] <- zext_64(n)`, for the counts and Booleans (10_state.md R25). -/
def State.writeXNat (s : State) (i : XReg) (n : Nat) : State := s.writeX i (BitVec.ofNat 64 n)

/-- The word listed at an index, if one was written since reset. -/
def Memory.find (m : Memory) (a : Nat) : Option Word :=
  match m with
  | [] => none
  | (k, w) :: rest => if a = k then some w else Memory.find rest a

/-- Write one word, keeping the canonical form. -/
def Memory.write (m : Memory) (a : Nat) (w : Word) : Memory :=
  match m with
  | [] => [(a, w)]
  | (k, u) :: rest =>
    if a < k then (a, w) :: (k, u) :: rest
    else if a = k then (a, w) :: rest
    else (k, u) :: Memory.write rest a w

/-- `LMEM[a]` (10_state.md R35): the word written last, or the free value of a word never written since reset
(R39). -/
def State.readLmem (s : State) (a : Nat) : Word :=
  (Memory.find s.lmem a).getD (Config.freeLmemWord s.epoch a)

/-- `LMEM[a] <- w`. -/
def State.writeLmem (s : State) (a : Nat) (w : Word) : State := { s with lmem := Memory.write s.lmem a w }

/-- The `n` words from index `a` up. -/
def State.readWords (s : State) (a : Nat) : Nat → List Word
  | 0 => []
  | n + 1 => s.readLmem a :: State.readWords s (a + 1) n

/-- Write words from index `a` up. -/
def State.writeWords (s : State) (a : Nat) : List Word → State
  | [] => s
  | w :: ws => State.writeWords (s.writeLmem a w) (a + 1) ws

/-- The range check of rules R54 and R55, over the naturals without wrap-around. -/
def State.lmemInRange (s : State) (addr n : Nat) : Bool := decide (addr + n ≤ s.params.nlmem.val)

/-- `MemRead(addr, n)` (20_memory.md R54); `none` where the command traps `LmemRange`. -/
def State.memRead (s : State) (addr n : Nat) : Option (List Word) :=
  if s.lmemInRange addr n then some (s.readWords addr n) else none

/-- `MemWrite(addr, n, ws)` (R55); `none` where the command traps `LmemRange`. -/
def State.memWrite (s : State) (addr : Nat) (ws : List Word) : Option State :=
  if s.lmemInRange addr ws.length then some (s.writeWords addr ws) else none

/-- `ST.OVF <- b` (10_state.md R27). -/
def State.setOvf (s : State) (b : Bool) : State := { s with st := { s.st with ovf := b } }

/-- `ST.SGN <- b` (43_modular.md R228). -/
def State.setSgn (s : State) (b : Bool) : State := { s with st := { s.st with sgn := b } }

/-- `done` (60_exceptions.md R323; 10_state.md R28). -/
def State.done (s : State) : State := { s with st := { s.st with abs := false, kind := none } }

/-- `absent(K)` (R324; R28). -/
def State.absent (s : State) (k : Kind) : State := { s with st := { s.st with abs := true, kind := some k } }

/-- TAKING AN EXCEPTION: `trap K` (R325; R28). `ST.FAULT`, `ST.KIND` and `FCMD` are written and nothing else;
the block is then frozen (R326). There is no handler address, saved pc or status, and no return from a trap
(R325, R330): reset, `State.afterReset`, is the only event that clears `ST.FAULT`. -/
def State.trap (s : State) (k : Kind) : State :=
  { s with st := { s.st with fault := true, kind := some k }, fcmd := s.cmd.setWidth 64 }

/-- Reset of a running machine (10_state.md R39; 70_reset_and_hazards.md R350): the instance stays, the host's
side stays, `LMEM` is drawn afresh (R353). -/
def State.afterReset (s : State) : State :=
  { State.resetOf s.params with
    host := s.host, hostData := s.hostData, epoch := s.epoch + 1, draws := s.draws }

/-- Flavour `.W` (41_arith_flavours.md R130). -/
def State.wrapping (s : State) (vd : VReg) (t : Narrowed) : State := (s.writeV vd t.r).done

/-- Flavour `.C` (R130). -/
def State.checked (s : State) (vd : VReg) (t : Narrowed) : State :=
  if t.ovf then s.absent .overflow else (s.writeV vd t.r).done

/-- Flavour `.O` (R130). -/
def State.overflowing (s : State) (vd : VReg) (t : Narrowed) : State := ((s.writeV vd t.r).setOvf t.ovf).done

/-- Flavour `.S` (R130). -/
def State.saturating (s : State) (vd : VReg) (t : Narrowed) : State :=
  (s.writeV vd (if t.ovf then t.sat else t.r)).done

/-- Flavour `.P` (R130): traps on overflow in a `DEBUG` instance, wraps otherwise. -/
def State.plain (s : State) (vd : VReg) (t : Narrowed) : State :=
  if t.ovf && s.params.debug then s.trap .overflow else (s.writeV vd t.r).done

/-- A command that writes one wide register and ends `done`. -/
def State.doneV (s : State) (vd : VReg) (n : Nat) : State := (s.writeV vd n).done

/-- A command that writes one scalar register with a natural `< 2^64` and ends `done`. -/
def State.doneX (s : State) (xd : XReg) (n : Nat) : State := (s.writeXNat xd n).done

/-- `fault_o` (60_exceptions.md R327). -/
def State.faultO (s : State) : Bool := s.st.fault

end Sys2Proof.Machine
end

