-- ==== Sys2Proof/Machine/Operands.lean ====
section
/-! DEFINITION. Operand forms (30_encoding.md rules R73, R74): a wide source, a scalar source taken whole, the
unsigned immediate, the constant selector of `LDC`, the limbs of a wide value, a slice of limb memory. -/

namespace Sys2Proof.Machine

/-- A wide source `va`: `V[F]` (R74). -/
abbrev State.wide (s : State) (va : VReg) : Nat := s.readV va

/-- A scalar source `xk`: the full 64-bit unsigned value of `X[F]` (R74). -/
abbrev State.scalar (s : State) (xk : XReg) : Nat := (s.readX xk).toNat

/-- The immediate: `zext_64(IMM16)` (R73). -/
def immediate (imm : BitVec 16) : Word := imm.setWidth 64

/-- The constant an `LDC` selector names (40_limbs_load_store.md R107, R113). -/
def constantOf (B : Nat) (sel : BitVec 16) : Nat :=
  if sel = 0 then zeroValue else if sel = 1 then oneValue B else maxValue B

/-- The `L` limbs of a wide source, limb 0 first (R119; 20_memory.md R52). -/
def State.wideLimbs (s : State) (va : VReg) : List Word := limbsOf (limbCount s.B) (s.wide va)

/-- The slice a limb load reads: `MemRead(X[xaddr], X[xn])` (R114 to R118). -/
def State.slice (s : State) (xaddr xn : XReg) : Option (List Word) := s.memRead (s.scalar xaddr) (s.scalar xn)

end Sys2Proof.Machine
end

