-- ==== Sys2Proof/Machine/Arith.lean ====
section
/-! DEFINITION. `ADD`, `SUB`, `MUL`, `MULX`, `NEG`, `POW` in the five flavours (41_arith_flavours.md rules R140 to
R169): each is its operation's value function under its flavour's contract (R130). -/

namespace Sys2Proof.Machine

/-- `ADD.P vd, va, vb` (R140, value function R131). -/
def execAddP (vd va vb : VReg) (s : State) : Result :=
  .next (s.plain vd (addVal s.B (s.wide va) (s.wide vb)))

/-- `ADD.W vd, va, vb` (R141, value function R131). -/
def execAddW (vd va vb : VReg) (s : State) : Result :=
  .next (s.wrapping vd (addVal s.B (s.wide va) (s.wide vb)))

/-- `ADD.C vd, va, vb` (R142, value function R131). -/
def execAddC (vd va vb : VReg) (s : State) : Result :=
  .next (s.checked vd (addVal s.B (s.wide va) (s.wide vb)))

/-- `ADD.O vd, va, vb` (R143, value function R131). -/
def execAddO (vd va vb : VReg) (s : State) : Result :=
  .next (s.overflowing vd (addVal s.B (s.wide va) (s.wide vb)))

/-- `ADD.S vd, va, vb` (R144, value function R131). -/
def execAddS (vd va vb : VReg) (s : State) : Result :=
  .next (s.saturating vd (addVal s.B (s.wide va) (s.wide vb)))

/-- `SUB.P vd, va, vb` (R145, value function R132). -/
def execSubP (vd va vb : VReg) (s : State) : Result :=
  .next (s.plain vd (subVal s.B (s.wide va) (s.wide vb)))

/-- `SUB.W vd, va, vb` (R146, value function R132). -/
def execSubW (vd va vb : VReg) (s : State) : Result :=
  .next (s.wrapping vd (subVal s.B (s.wide va) (s.wide vb)))

/-- `SUB.C vd, va, vb` (R147, value function R132). -/
def execSubC (vd va vb : VReg) (s : State) : Result :=
  .next (s.checked vd (subVal s.B (s.wide va) (s.wide vb)))

/-- `SUB.O vd, va, vb` (R148, value function R132). -/
def execSubO (vd va vb : VReg) (s : State) : Result :=
  .next (s.overflowing vd (subVal s.B (s.wide va) (s.wide vb)))

/-- `SUB.S vd, va, vb` (R149, value function R132). -/
def execSubS (vd va vb : VReg) (s : State) : Result :=
  .next (s.saturating vd (subVal s.B (s.wide va) (s.wide vb)))

/-- `MUL.P vd, va, vb` (R150, value function R133). -/
def execMulP (vd va vb : VReg) (s : State) : Result :=
  .next (s.plain vd (mulVal s.B (s.wide va) (s.wide vb)))

/-- `MUL.W vd, va, vb` (R151, value function R133). -/
def execMulW (vd va vb : VReg) (s : State) : Result :=
  .next (s.wrapping vd (mulVal s.B (s.wide va) (s.wide vb)))

/-- `MUL.C vd, va, vb` (R152, value function R133). -/
def execMulC (vd va vb : VReg) (s : State) : Result :=
  .next (s.checked vd (mulVal s.B (s.wide va) (s.wide vb)))

/-- `MUL.O vd, va, vb` (R153, value function R133). -/
def execMulO (vd va vb : VReg) (s : State) : Result :=
  .next (s.overflowing vd (mulVal s.B (s.wide va) (s.wide vb)))

/-- `MUL.S vd, va, vb` (R154, value function R133). -/
def execMulS (vd va vb : VReg) (s : State) : Result :=
  .next (s.saturating vd (mulVal s.B (s.wide va) (s.wide vb)))

/-- `MULX.P vd, va, xb` (R155, value function R134). -/
def execMulxP (vd va : VReg) (xb : XReg) (s : State) : Result :=
  .next (s.plain vd (mulxVal s.B (s.wide va) (s.readX xb)))

/-- `MULX.W vd, va, xb` (R156, value function R134). -/
def execMulxW (vd va : VReg) (xb : XReg) (s : State) : Result :=
  .next (s.wrapping vd (mulxVal s.B (s.wide va) (s.readX xb)))

/-- `MULX.C vd, va, xb` (R157, value function R134). -/
def execMulxC (vd va : VReg) (xb : XReg) (s : State) : Result :=
  .next (s.checked vd (mulxVal s.B (s.wide va) (s.readX xb)))

/-- `MULX.O vd, va, xb` (R158, value function R134). -/
def execMulxO (vd va : VReg) (xb : XReg) (s : State) : Result :=
  .next (s.overflowing vd (mulxVal s.B (s.wide va) (s.readX xb)))

/-- `MULX.S vd, va, xb` (R159, value function R134). -/
def execMulxS (vd va : VReg) (xb : XReg) (s : State) : Result :=
  .next (s.saturating vd (mulxVal s.B (s.wide va) (s.readX xb)))

/-- `NEG.P vd, va` (R160, value function R135). -/
def execNegP (vd va : VReg) (s : State) : Result :=
  .next (s.plain vd (negVal s.B (s.wide va)))

/-- `NEG.W vd, va` (R161, value function R135). -/
def execNegW (vd va : VReg) (s : State) : Result :=
  .next (s.wrapping vd (negVal s.B (s.wide va)))

/-- `NEG.C vd, va` (R162, value function R135). -/
def execNegC (vd va : VReg) (s : State) : Result :=
  .next (s.checked vd (negVal s.B (s.wide va)))

/-- `NEG.O vd, va` (R163, value function R135). -/
def execNegO (vd va : VReg) (s : State) : Result :=
  .next (s.overflowing vd (negVal s.B (s.wide va)))

/-- `NEG.S vd, va` (R164, value function R135). -/
def execNegS (vd va : VReg) (s : State) : Result :=
  .next (s.saturating vd (negVal s.B (s.wide va)))

/-- `POW.P vd, va, vb` (R165, value function R136). -/
def execPowP (vd va vb : VReg) (s : State) : Result :=
  .next (s.plain vd (powVal s.B (s.wide va) (s.wide vb)))

/-- `POW.W vd, va, vb` (R166, value function R136). -/
def execPowW (vd va vb : VReg) (s : State) : Result :=
  .next (s.wrapping vd (powVal s.B (s.wide va) (s.wide vb)))

/-- `POW.C vd, va, vb` (R167, value function R136). -/
def execPowC (vd va vb : VReg) (s : State) : Result :=
  .next (s.checked vd (powVal s.B (s.wide va) (s.wide vb)))

/-- `POW.O vd, va, vb` (R168, value function R136). -/
def execPowO (vd va vb : VReg) (s : State) : Result :=
  .next (s.overflowing vd (powVal s.B (s.wide va) (s.wide vb)))

/-- `POW.S vd, va, vb` (R169, value function R136). -/
def execPowS (vd va vb : VReg) (s : State) : Result :=
  .next (s.saturating vd (powVal s.B (s.wide va) (s.wide vb)))

end Sys2Proof.Machine
end

