-- ==== Sys2Proof/Machine/BitAccess.lean ====
section
/-! DEFINITION. `BIT`, `SETBIT`, `CLRBIT`, `BYTE`, `CBYTE`, `MSBITS` (45_bitscan_compare.md rules R293 to R298). -/

namespace Sys2Proof.Machine

/-- `ceil(B/8)`, the number of bytes of the byte form (20_memory.md R51). -/
def byteCount (B : Nat) : Nat := (B + 7) / 8

/-- Little-endian byte `i` of a value (R51, R296). -/
def byteOf (x i : Nat) : Nat := x / 2 ^ (8 * i) % 256

/-- `BIT xd, va, xi` (R293). -/
def execBit (xd : XReg) (va : VReg) (xi : XReg) (s : State) : Result :=
  .next (s.doneX xd (if s.scalar xi < s.B then ((s.wide va).testBit (s.scalar xi)).toNat else 0))

/-- `SETBIT vd, va, xi` (R294). -/
def execSetbit (vd va : VReg) (xi : XReg) (s : State) : Result :=
  .next (
    if s.B ≤ s.scalar xi then s.trap .domainError
    else s.doneV vd (s.wide va ||| 2 ^ s.scalar xi))

/-- `CLRBIT vd, va, xi` (R295). -/
def execClrbit (vd va : VReg) (xi : XReg) (s : State) : Result :=
  .next (
    if s.B ≤ s.scalar xi then s.trap .domainError
    else s.doneV vd (s.wide va - ((s.wide va).testBit (s.scalar xi)).toNat * 2 ^ s.scalar xi))

/-- `BYTE xd, va, xi` (R296). -/
def execByte (xd : XReg) (va : VReg) (xi : XReg) (s : State) : Result :=
  .next (s.doneX xd (if s.scalar xi < byteCount s.B then byteOf (s.wide va) (s.scalar xi) else 0))

/-- `CBYTE xd, va, xi` (R297). -/
def execCbyte (xd : XReg) (va : VReg) (xi : XReg) (s : State) : Result :=
  .next (
    if byteCount s.B ≤ s.scalar xi then s.absent .domainError
    else s.doneX xd (byteOf (s.wide va) (s.scalar xi)))

/-- `MSBITS xd, va, xk` (R298): bits `B−1 : B−k`, the reading the rule takes (log 11). -/
def execMsbits (xd : XReg) (va : VReg) (xk : XReg) (s : State) : Result :=
  .next (
    if 64 < s.scalar xk ∨ s.B < s.scalar xk then s.trap .domainError
    else s.doneX xd (s.wide va / 2 ^ (s.B - s.scalar xk)))

end Sys2Proof.Machine
end

