-- ==== Sys2Proof/Machine/BitScan.lean ====
section
/-! DEFINITION. The scans and counts, `NEXTPOW2` and `NEXTMULT` (45_bitscan_compare.md rules R280 to R292). All
count within the `B` value bits (R280). -/

namespace Sys2Proof.Machine

/-- `bit_len(x)` (R280). -/
def bitLen (x : Nat) : Nat := if x = 0 then 0 else Nat.log2 x + 1

/-- `leading_zeros(x) = B − bit_len(x)` (R280). -/
def leadingZeros (B x : Nat) : Nat := B - bitLen x

/-- `leading_ones(x) = leading_zeros(MAX − x)` (R280). -/
def leadingOnes (B x : Nat) : Nat := leadingZeros B (maxValue B - x)

/-- Consecutive zero bits from bit 0 up, at most `n` (R280). -/
def trailingZeros : Nat → Nat → Nat
  | 0, _ => 0
  | n + 1, x => if x % 2 = 1 then 0 else 1 + trailingZeros n (x / 2)

/-- `trailing_ones(x) = trailing_zeros(MAX − x)` (R280). -/
def trailingOnes (B x : Nat) : Nat := trailingZeros B (maxValue B - x)

/-- `Σ_{i<n} bit(x, i)`; `count_ones(x)` at `n = B` (R280). -/
def countOnes : Nat → Nat → Nat
  | 0, _ => 0
  | n + 1, x => (x.testBit n).toNat + countOnes n x

/-- `byte_len(x) = ceil(bit_len(x) / 8)` (R280). -/
def byteLen (x : Nat) : Nat := (bitLen x + 7) / 8

/-- The smallest power of two `≥ x`, 1 for `x = 0` (R291). -/
def nextPow2 (x : Nat) : Nat := if x ≤ 1 then 1 else 2 ^ bitLen (x - 1)

/-- `ceil(x / m)·m` (R292). -/
def nextMultiple (x m : Nat) : Nat := (x + m - 1) / m * m

/-- `CLZ xd, va` (R281). -/
def execClz (xd : XReg) (va : VReg) (s : State) : Result := .next (s.doneX xd (leadingZeros s.B (s.wide va)))

/-- `CLO xd, va` (R282). -/
def execClo (xd : XReg) (va : VReg) (s : State) : Result := .next (s.doneX xd (leadingOnes s.B (s.wide va)))

/-- `CTZ xd, va` (R283). -/
def execCtz (xd : XReg) (va : VReg) (s : State) : Result := .next (s.doneX xd (trailingZeros s.B (s.wide va)))

/-- `CTO xd, va` (R284). -/
def execCto (xd : XReg) (va : VReg) (s : State) : Result := .next (s.doneX xd (trailingOnes s.B (s.wide va)))

/-- `POPC xd, va` (R285). -/
def execPopc (xd : XReg) (va : VReg) (s : State) : Result := .next (s.doneX xd (countOnes s.B (s.wide va)))

/-- `CNTZ xd, va` (R286). -/
def execCntz (xd : XReg) (va : VReg) (s : State) : Result :=
  .next (s.doneX xd (s.B - countOnes s.B (s.wide va)))

/-- `BITLEN xd, va` (R287). -/
def execBitlen (xd : XReg) (va : VReg) (s : State) : Result := .next (s.doneX xd (bitLen (s.wide va)))

/-- `BYTELEN xd, va` (R288). -/
def execBytelen (xd : XReg) (va : VReg) (s : State) : Result := .next (s.doneX xd (byteLen (s.wide va)))

/-- `ISZERO xd, va` (R289). -/
def execIszero (xd : XReg) (va : VReg) (s : State) : Result :=
  .next (s.doneX xd (if s.wide va = 0 then 1 else 0))

/-- `ISPOW2 xd, va` (R290). -/
def execIspow2 (xd : XReg) (va : VReg) (s : State) : Result :=
  .next (s.doneX xd (if countOnes s.B (s.wide va) = 1 then 1 else 0))

/-- `NEXTPOW2 vd, va` (R291). -/
def execNextpow2 (vd va : VReg) (s : State) : Result :=
  .next (
    if s.B = 0 then s.doneV vd 0
    else if 2 ^ s.B ≤ nextPow2 (s.wide va) then s.absent .overflow
    else s.doneV vd (nextPow2 (s.wide va)))

/-- `NEXTMULT vd, va, vb` (R292). -/
def execNextmult (vd va vb : VReg) (s : State) : Result :=
  .next (
    if s.wide vb = 0 then s.trap .divisionByZero
    else if 2 ^ s.B ≤ nextMultiple (s.wide va) (s.wide vb) then s.absent .overflow
    else s.doneV vd (nextMultiple (s.wide va) (s.wide vb)))

end Sys2Proof.Machine
end

