-- ==== Sys2Proof/Machine/Compare.lean ====
section
/-! DEFINITION. `EQ` and `LT`, the order of the naturals (45_bitscan_compare.md rules R299 to R301). -/

namespace Sys2Proof.Machine

/-- `EQ xd, va, vb` (R300). -/
def execVeq (xd : XReg) (va vb : VReg) (s : State) : Result :=
  .next (s.doneX xd (if s.wide va = s.wide vb then 1 else 0))

/-- `LT xd, va, vb` (R301). -/
def execVlt (xd : XReg) (va vb : VReg) (s : State) : Result :=
  .next (s.doneX xd (if s.wide va < s.wide vb then 1 else 0))

end Sys2Proof.Machine
end

