-- ==== Sys2Proof/Machine/Divide.lean ====
section
/-! DEFINITION. `DIV`, `REM`, `CDIV`, `CREM`, `DIVCEIL`, `DIVREM` (42_divide_log_root.md rules R180 to R189). The value
function is `floor(n/d)` and `n mod d` over the naturals, "the whole normative content of division" (R180). -/

namespace Sys2Proof.Machine

/-- `ceil(n/d)` as R188 computes it from quotient and remainder. -/
def divCeil (n d : Nat) : Nat := if n % d = 0 then n / d else n / d + 1

/-- `DIV vd, va, vb` (R184). -/
def execDiv (vd va vb : VReg) (s : State) : Result :=
  .next (if s.wide vb = 0 then s.trap .divisionByZero else s.doneV vd (s.wide va / s.wide vb))

/-- `REM vd, va, vb` (R185). -/
def execRem (vd va vb : VReg) (s : State) : Result :=
  .next (if s.wide vb = 0 then s.trap .divisionByZero else s.doneV vd (s.wide va % s.wide vb))

/-- `CDIV vd, va, vb` (R186). -/
def execCdiv (vd va vb : VReg) (s : State) : Result :=
  .next (if s.wide vb = 0 then s.absent .divisionByZero else s.doneV vd (s.wide va / s.wide vb))

/-- `CREM vd, va, vb` (R187). -/
def execCrem (vd va vb : VReg) (s : State) : Result :=
  .next (if s.wide vb = 0 then s.absent .divisionByZero else s.doneV vd (s.wide va % s.wide vb))

/-- `DIVCEIL vd, va, vb` (R188). -/
def execDivceil (vd va vb : VReg) (s : State) : Result :=
  .next (if s.wide vb = 0 then s.trap .divisionByZero else s.doneV vd (divCeil (s.wide va) (s.wide vb)))

/-- `DIVREM vq, va, vb, vr` (R189); equal destinations have trapped at decode (R79). -/
def execDivrem (vq va vb vr : VReg) (s : State) : Result :=
  .next (
    if s.wide vb = 0 then s.trap .divisionByZero
    else (s.writeV vq (s.wide va / s.wide vb)).doneV vr (s.wide va % s.wide vb))

end Sys2Proof.Machine
end

