-- ==== Sys2Proof/Machine/Modular.lean ====
section
/-! DEFINITION. `REDMOD`, `ADDMOD`, `MULMOD`, `POWMOD`, `INVMOD`, `MULREDC`, `SQRREDC` (43_modular.md rules R210 to
R220). -/

namespace Sys2Proof.Machine

/-- Square and multiply modulo `m` over bits `i−1 .. 0` of the exponent (R214). -/
def powModLoop (m a x : Nat) : Nat → Nat → Nat
  | 0, r => r
  | i + 1, r => powModLoop m a x i (if x.testBit i then r * r % m * a % m else r * r % m)

/-- `a^x mod m` for `m ≥ 1`, with `a^0 = 1` (R214). -/
def powMod (m a x : Nat) : Nat := powModLoop m a x (bitLen x) (1 % m)

/-- The extended Euclidean loop on remainders `r0, r1` with cofactors `t0, t1` kept modulo `m`
(`a·t ≡ r (mod m)`), for enough rounds; it answers the cofactor of the last non-zero remainder (R215). -/
def euclidLoop (m : Nat) : Nat → Nat → Nat → Nat → Nat → Nat
  | 0, _, _, t0, _ => t0
  | n + 1, r0, r1, t0, t1 =>
    if r1 = 0 then t0 else euclidLoop m n r1 (r0 % r1) t1 ((t0 + (m - r0 / r1 * t1 % m)) % m)

/-- A `t < m` with `a·t ≡ gcd(a, m) (mod m)`, for `m ≥ 1`. -/
def cofactorMod (a m : Nat) : Nat := euclidLoop m (m + 1) m (a % m) 0 (1 % m)

/-- `R = 2^(64L)` of the Montgomery form (R217). -/
def montR (B : Nat) : Nat := 2 ^ (64 * limbCount B)

/-- The word-serial loop of rule R218 from limb `i` up: it makes limb `i` of `t` zero, `n` times. -/
def redcLoop (m inv : Nat) : Nat → Nat → Nat → Nat
  | 0, _, t => t
  | n + 1, i, t => redcLoop m inv n (i + 1) (t + t / 2 ^ (64 * i) % 2 ^ 64 * inv % 2 ^ 64 * m * 2 ^ (64 * i))

/-- `redc_mul(a, b, m, inv)` (R218). -/
def redcMul (B a b m inv : Nat) : Nat :=
  let r := redcLoop m inv (limbCount B) 0 (a * b) / montR B
  if m ≤ r then r - m else r

/-- The first two entry checks of `MULREDC` and `SQRREDC`: the modulus is even, or `inv` is not
`−m^{-1} mod 2^64` (R219, R220). -/
def redcModulusBad (m inv : Nat) : Bool :=
  decide (m % 2 = 0) || decide (inv * (limb m 0).toNat % 2 ^ 64 ≠ 2 ^ 64 - 1)

/-- `REDMOD vd, va, vm` (R211). -/
def execRedmod (vd va vm : VReg) (s : State) : Result :=
  .next (if s.wide vm = 0 then s.trap .divisionByZero else s.doneV vd (s.wide va % s.wide vm))

/-- `ADDMOD vd, va, vb, vm` (R212): the sum is taken over the naturals. -/
def execAddmod (vd va vb vm : VReg) (s : State) : Result :=
  .next (if s.wide vm = 0 then s.trap .divisionByZero
    else s.doneV vd ((s.wide va + s.wide vb) % s.wide vm))

/-- `MULMOD vd, va, vb, vm` (R213): the exact `2B`-bit product reduced. -/
def execMulmod (vd va vb vm : VReg) (s : State) : Result :=
  .next (if s.wide vm = 0 then s.trap .divisionByZero
    else s.doneV vd (s.wide va * s.wide vb % s.wide vm))

/-- `POWMOD vd, va, vb, vm` (R214). -/
def execPowmod (vd va vb vm : VReg) (s : State) : Result :=
  .next (if s.wide vm = 0 then s.trap .divisionByZero
    else s.doneV vd (powMod (s.wide vm) (s.wide va) (s.wide vb)))

/-- `INVMOD vd, va, vm` (R216). -/
def execInvmod (vd va vm : VReg) (s : State) : Result :=
  .next (
    if s.wide vm = 0 then s.absent .notInvertible
    else if s.wide vm = 1 then s.doneV vd 0
    else if Nat.gcd (s.wide va % s.wide vm) (s.wide vm) ≠ 1 then s.absent .notInvertible
    else s.doneV vd (cofactorMod (s.wide va) (s.wide vm)))

/-- `MULREDC vd, va, vb, vm, xinv` (R219): odd modulus, then `inv`, then operand range (60_exceptions.md R328). -/
def execMulredc (vd va vb vm : VReg) (xinv : XReg) (s : State) : Result :=
  .next (
    if redcModulusBad (s.wide vm) (s.scalar xinv) then s.trap .domainError
    else if s.wide vm ≤ s.wide va ∨ s.wide vm ≤ s.wide vb then s.trap .domainError
    else s.doneV vd (redcMul s.B (s.wide va) (s.wide vb) (s.wide vm) (s.scalar xinv)))

/-- `SQRREDC vd, va, vm, xinv` (R220). -/
def execSqrredc (vd va vm : VReg) (xinv : XReg) (s : State) : Result :=
  .next (
    if redcModulusBad (s.wide vm) (s.scalar xinv) then s.trap .domainError
    else if s.wide vm ≤ s.wide va then s.trap .domainError
    else s.doneV vd (redcMul s.B (s.wide va) (s.wide va) (s.wide vm) (s.scalar xinv)))

end Sys2Proof.Machine
end

