-- ==== Sys2Proof/Machine/Gcd.lean ====
section
/-! DEFINITION. `GCD`, `GCDEXT`, `LCM` (43_modular.md rules R221, R223, R228, R229). -/

namespace Sys2Proof.Machine

/-- R228's relation, with `x` and `y` wide values: `s = 1` and `a·x − b·y = g`, or `s = 0` and `b·y − a·x = g`,
over the integers, where `g = gcd(a, b)`. -/
def admissibleCofactors (B a b : Nat) (t : Nat × Nat × Bool) : Bool :=
  decide (t.1 < 2 ^ B) && decide (t.2.1 < 2 ^ B) &&
    if t.2.2 then decide (a * t.1 = b * t.2.1 + Nat.gcd a b) else decide (b * t.2.1 = a * t.1 + Nat.gcd a b)

/-- One admissible triple for any two wide values, taken where the draw is not admissible (log 6). For
`a, b ≥ 1` it has `x ≤ b/g`, `y ≤ a/g`. -/
def someCofactors (a b : Nat) : Nat × Nat × Bool :=
  if b = 0 then (if a = 0 then 0 else 1, 0, true)
  else if a = 0 then (0, 1, false)
  else
    let t := cofactorMod a b
    let x := if t = 0 then 1 else t
    (x, (a * x - Nat.gcd a b) / b, true)

/-- The triple of the `n`-th draw (R228; 93 U5): the free proposal when it is admissible, so that every admissible
triple is possible and no other. -/
def drawnCofactors (n B a b : Nat) : Nat × Nat × Bool :=
  if admissibleCofactors B a b (Config.freeCofactors n) then Config.freeCofactors n else someCofactors a b

/-- `lcm(a, b)`, 0 when either is 0 (R229). -/
def exactLcm (a b : Nat) : Nat := if a = 0 ∨ b = 0 then 0 else a / Nat.gcd a b * b

/-- `GCD vd, va, vb` (R223): the zero cases of R221 are those of `Nat.gcd`. -/
def execGcd (vd va vb : VReg) (s : State) : Result :=
  .next (s.doneV vd (Nat.gcd (s.wide va) (s.wide vb)))

/-- `GCDEXT vg, va, vb, vx, vy` (R228): the draw is made and counted; coinciding destinations have trapped at
decode (R79). -/
def execGcdext (vg va vb vx vy : VReg) (s : State) : Result :=
  let t := drawnCofactors s.draws s.B (s.wide va) (s.wide vb)
  .next ((((({ s with draws := s.draws + 1 }.writeV vg (Nat.gcd (s.wide va) (s.wide vb))).writeV vx t.1).writeV vy
    t.2.1).setSgn t.2.2).done)

/-- `LCM vd, va, vb` (R229). -/
def execLcm (vd va vb : VReg) (s : State) : Result :=
  .next (
    if 2 ^ s.B ≤ exactLcm (s.wide va) (s.wide vb) then s.absent .overflow
    else s.doneV vd (exactLcm (s.wide va) (s.wide vb)))

end Sys2Proof.Machine
end

