-- ==== Sys2Proof/Machine/LoadStore.lean ====
section
/-! DEFINITION. `LDL`, `LDS.W`, `LDS.C`, `LDS.O`, `LDS.S`, `STL` (40_limbs_load_store.md rules R114 to R119). -/

namespace Sys2Proof.Machine

/-- A slice load: the range check, then what the variant does with the value of the slice (R115 to R118). -/
def State.loadSlice (s : State) (xaddr xn : XReg) (variant : Narrowed → State) : State :=
  match s.slice xaddr xn with
  | none => s.trap .lmemRange
  | some ws => variant (fromSlice s.B ws)

/-- `LDL vd, xaddr, xn` (R114): length, then range, then excess bits (60_exceptions.md R328). -/
def execLdl (vd : VReg) (xaddr xn : XReg) (s : State) : Result :=
  .next (
    if s.scalar xn ≠ limbCount s.B then s.trap .invalidLength
    else s.loadSlice xaddr xn fun t => if t.ovf then s.trap .overflow else s.doneV vd t.r)

/-- `LDS.W vd, xaddr, xn` (R115). -/
def execLdsW (vd : VReg) (xaddr xn : XReg) (s : State) : Result :=
  .next (s.loadSlice xaddr xn fun t => s.wrapping vd t)

/-- `LDS.C vd, xaddr, xn` (R116). -/
def execLdsC (vd : VReg) (xaddr xn : XReg) (s : State) : Result :=
  .next (s.loadSlice xaddr xn fun t => s.checked vd t)

/-- `LDS.O vd, xaddr, xn` (R117). -/
def execLdsO (vd : VReg) (xaddr xn : XReg) (s : State) : Result :=
  .next (s.loadSlice xaddr xn fun t => s.overflowing vd t)

/-- `LDS.S vd, xaddr, xn` (R118). -/
def execLdsS (vd : VReg) (xaddr xn : XReg) (s : State) : Result :=
  .next (s.loadSlice xaddr xn fun t => s.saturating vd t)

/-- `STL vs, xaddr` (R119). -/
def execStl (vs : VReg) (xaddr : XReg) (s : State) : Result :=
  .next (
    match s.memWrite (s.scalar xaddr) (s.wideLimbs vs) with
    | none => s.trap .lmemRange
    | some s' => s'.done)

end Sys2Proof.Machine
end

