-- ==== Sys2Proof/Machine/LogRoot.lean ====
section
/-! DEFINITION. `LOG`, `CLOG`, `LOG2`, `CLOG2`, `LOG10`, `CLOG10`, `ROOT` (42_divide_log_root.md rules R190 to R199).
The rules fix the values; the procedures here are the model's (log 12). -/

namespace Sys2Proof.Machine

/-- Repeated division: the largest `k` with `b^k ≤ n`, for `b ≥ 2`, `n ≥ 1` and enough rounds (R190). -/
def ilogLoop (b : Nat) : Nat → Nat → Nat
  | 0, _ => 0
  | r + 1, n => if n < b then 0 else 1 + ilogLoop b r (n / b)

/-- `ilog(n, b)` (R190). -/
def ilog (n b : Nat) : Nat := ilogLoop b (bitLen n) n

/-- Bits `i−1 .. 0` of the root, from the top: keep a bit when the power still fits (R197). -/
def rootLoop (n g : Nat) : Nat → Nat → Nat
  | 0, x => x
  | i + 1, x => if (x + 2 ^ i) ^ g ≤ n then rootLoop n g i (x + 2 ^ i) else rootLoop n g i x

/-- `iroot(n, g)` for `g ≥ 1` (R197); a degree of at least `bit_len(n)` gives 1 for `n ≥ 1`. -/
def iroot (n g : Nat) : Nat :=
  if n = 0 then 0 else if bitLen n ≤ g then 1 else rootLoop n g (bitLen n / g + 1) 0

/-- `LOG xd, va, vb` (R191). -/
def execLog (xd : XReg) (va vb : VReg) (s : State) : Result :=
  .next (
    if s.wide vb < 2 ∨ s.wide va = 0 then s.trap .domainError
    else s.doneX xd (ilog (s.wide va) (s.wide vb)))

/-- `CLOG xd, va, vb` (R192). -/
def execClog (xd : XReg) (va vb : VReg) (s : State) : Result :=
  .next (
    if s.wide vb < 2 ∨ s.wide va = 0 then s.absent .domainError
    else s.doneX xd (ilog (s.wide va) (s.wide vb)))

/-- `LOG2 xd, va` (R193). -/
def execLog2 (xd : XReg) (va : VReg) (s : State) : Result :=
  .next (if s.wide va = 0 then s.trap .domainError else s.doneX xd (bitLen (s.wide va) - 1))

/-- `CLOG2 xd, va` (R194). -/
def execClog2 (xd : XReg) (va : VReg) (s : State) : Result :=
  .next (if s.wide va = 0 then s.absent .domainError else s.doneX xd (bitLen (s.wide va) - 1))

/-- `LOG10 xd, va` (R195); over the naturals, so also where 10 is not representable (R190). -/
def execLog10 (xd : XReg) (va : VReg) (s : State) : Result :=
  .next (if s.wide va = 0 then s.trap .domainError else s.doneX xd (ilog (s.wide va) 10))

/-- `CLOG10 xd, va` (R196). -/
def execClog10 (xd : XReg) (va : VReg) (s : State) : Result :=
  .next (if s.wide va = 0 then s.absent .domainError else s.doneX xd (ilog (s.wide va) 10))

/-- `ROOT vd, va, xdeg` (R198). -/
def execRoot (vd va : VReg) (xdeg : XReg) (s : State) : Result :=
  .next (
    if s.scalar xdeg = 0 then s.trap .domainError
    else s.doneV vd (iroot (s.wide va) (s.scalar xdeg)))

end Sys2Proof.Machine
end

