-- ==== Sys2Proof/Machine/Logic.lean ====
section
/-! DEFINITION. `NOT`, `AND`, `OR`, `XOR`, lane by lane on the `L` limbs (44_bitwise_shift.md rules R240 to R244). -/

namespace Sys2Proof.Machine

/-- `NOT vd, va` (R241): every limb complemented, the top limb canonicalised. -/
def execVnot (vd va : VReg) (s : State) : Result :=
  .next (s.doneV vd (val (canonLimbs s.B ((s.wideLimbs va).map fun w => w ^^^ BitVec.allOnes 64))))

/-- `AND vd, va, vb` (R242). -/
def execVand (vd va vb : VReg) (s : State) : Result :=
  .next (s.doneV vd (val (List.zipWith (fun a b => a &&& b) (s.wideLimbs va) (s.wideLimbs vb))))

/-- `OR vd, va, vb` (R243). -/
def execVor (vd va vb : VReg) (s : State) : Result :=
  .next (s.doneV vd (val (List.zipWith (fun a b => a ||| b) (s.wideLimbs va) (s.wideLimbs vb))))

/-- `XOR vd, va, vb` (R244). -/
def execVxor (vd va vb : VReg) (s : State) : Result :=
  .next (s.doneV vd (val (List.zipWith (fun a b => a ^^^ b) (s.wideLimbs va) (s.wideLimbs vb))))

end Sys2Proof.Machine
end

