-- ==== Sys2Proof/Machine/Shift.lean ====
section
/-! DEFINITION. `SHL`, `SHR` in the five flavours, `ROL`, `ROR`, `REVB` (44_bitwise_shift.md rules R245 to R263). -/

namespace Sys2Proof.Machine

/-- `SHL.P vd, va, xk` (R250, value function R245). It never traps, whatever `DEBUG` is (R248; log 10). -/
def execShlP (vd va : VReg) (xk : XReg) (s : State) : Result :=
  .next (s.wrapping vd (shlVal s.B (s.wide va) (s.scalar xk)))

/-- `SHL.W vd, va, xk` (R251, value function R245). -/
def execShlW (vd va : VReg) (xk : XReg) (s : State) : Result :=
  .next (s.wrapping vd (shlVal s.B (s.wide va) (s.scalar xk)))

/-- `SHL.C vd, va, xk` (R252, value function R245). -/
def execShlC (vd va : VReg) (xk : XReg) (s : State) : Result :=
  .next (s.checked vd (shlVal s.B (s.wide va) (s.scalar xk)))

/-- `SHL.O vd, va, xk` (R253, value function R245). -/
def execShlO (vd va : VReg) (xk : XReg) (s : State) : Result :=
  .next (s.overflowing vd (shlVal s.B (s.wide va) (s.scalar xk)))

/-- `SHL.S vd, va, xk` (R254, value function R245). -/
def execShlS (vd va : VReg) (xk : XReg) (s : State) : Result :=
  .next (s.saturating vd (shlVal s.B (s.wide va) (s.scalar xk)))

/-- `SHR.P vd, va, xk` (R255, value function R246). It never traps, whatever `DEBUG` is (R248; log 10). -/
def execShrP (vd va : VReg) (xk : XReg) (s : State) : Result :=
  .next (s.wrapping vd (shrVal s.params.shrOvfInexact s.B (s.wide va) (s.scalar xk)))

/-- `SHR.W vd, va, xk` (R256, value function R246). -/
def execShrW (vd va : VReg) (xk : XReg) (s : State) : Result :=
  .next (s.wrapping vd (shrVal s.params.shrOvfInexact s.B (s.wide va) (s.scalar xk)))

/-- `SHR.C vd, va, xk` (R257, value function R246). -/
def execShrC (vd va : VReg) (xk : XReg) (s : State) : Result :=
  .next (s.checked vd (shrVal s.params.shrOvfInexact s.B (s.wide va) (s.scalar xk)))

/-- `SHR.O vd, va, xk` (R258, value function R246). -/
def execShrO (vd va : VReg) (xk : XReg) (s : State) : Result :=
  .next (s.overflowing vd (shrVal s.params.shrOvfInexact s.B (s.wide va) (s.scalar xk)))

/-- `SHR.S vd, va, xk` (R259, value function R246). -/
def execShrS (vd va : VReg) (xk : XReg) (s : State) : Result :=
  .next (s.saturating vd (shrVal s.params.shrOvfInexact s.B (s.wide va) (s.scalar xk)))

/-- `rotl(x, k)` within the `B` value bits (R260). -/
def rotl (B x k : Nat) : Nat :=
  if B = 0 ∨ k % B = 0 then x else x * 2 ^ (k % B) % 2 ^ B + x / 2 ^ (B - k % B)

/-- `rotr(x, k) = rotl(x, B − k mod B)` (R260). -/
def rotr (B x k : Nat) : Nat := if B = 0 ∨ k % B = 0 then x else rotl B x (B - k % B)

/-- The sum of rule R263 over bits `0 .. i−1` of `x`: bit `i` goes to bit `B−1−i`. -/
def reverseBits (B x : Nat) : Nat → Nat
  | 0 => 0
  | i + 1 => (x.testBit i).toNat * 2 ^ (B - 1 - i) + reverseBits B x i

/-- `ROL vd, va, xk` (R261). -/
def execRol (vd va : VReg) (xk : XReg) (s : State) : Result :=
  .next (s.doneV vd (rotl s.B (s.wide va) (s.scalar xk)))

/-- `ROR vd, va, xk` (R262). -/
def execRor (vd va : VReg) (xk : XReg) (s : State) : Result :=
  .next (s.doneV vd (rotr s.B (s.wide va) (s.scalar xk)))

/-- `REVB vd, va` (R263). -/
def execRevb (vd va : VReg) (s : State) : Result :=
  .next (s.doneV vd (reverseBits s.B (s.wide va) s.B))

end Sys2Proof.Machine
end

