-- ==== Sys2Proof/Machine/System.lean ====
section
/-! DEFINITION. `NOP`, `LIX`, `MOV`, `LDC` (40_limbs_load_store.md rules R110 to R113). -/

namespace Sys2Proof.Machine

/-- `NOP` (R110). -/
def execNop (s : State) : Result := .next s.done

/-- `LIX xd, imm16` (R111). -/
def execLix (xd : XReg) (imm : BitVec 16) (s : State) : Result := .next (s.writeX xd (immediate imm)).done

/-- `MOV vd, va` (R112). -/
def execMov (vd va : VReg) (s : State) : Result := .next (s.doneV vd (s.wide va))

/-- `LDC vd, sel` (R113); an illegal selector has trapped at decode (R79). -/
def execLdc (vd : VReg) (sel : BitVec 16) (s : State) : Result := .next (s.doneV vd (constantOf s.B sel))

end Sys2Proof.Machine
end

