-- ==== Sys2Proof/Machine/Dispatch.lean ====
section
/-! DEFINITION. The dispatch: one arm per constructor of Instr, each a direct call of its meaning. -/

namespace Sys2Proof.Machine

def exec (i : Instr) (s : State) : Host.Outcome State Fault Refusal :=
  match i with
  | .nop => Sys2Proof.Machine.execNop s
  | .lix xd imm => Sys2Proof.Machine.execLix xd imm s
  | .mov vd va => Sys2Proof.Machine.execMov vd va s
  | .ldc vd sel => Sys2Proof.Machine.execLdc vd sel s
  | .stl vs xaddr => Sys2Proof.Machine.execStl vs xaddr s
  | .ldl vd xaddr xn => Sys2Proof.Machine.execLdl vd xaddr xn s
  | .ldsW vd xaddr xn => Sys2Proof.Machine.execLdsW vd xaddr xn s
  | .ldsC vd xaddr xn => Sys2Proof.Machine.execLdsC vd xaddr xn s
  | .ldsO vd xaddr xn => Sys2Proof.Machine.execLdsO vd xaddr xn s
  | .ldsS vd xaddr xn => Sys2Proof.Machine.execLdsS vd xaddr xn s
  | .addP vd va vb => Sys2Proof.Machine.execAddP vd va vb s
  | .addW vd va vb => Sys2Proof.Machine.execAddW vd va vb s
  | .addC vd va vb => Sys2Proof.Machine.execAddC vd va vb s
  | .addO vd va vb => Sys2Proof.Machine.execAddO vd va vb s
  | .addS vd va vb => Sys2Proof.Machine.execAddS vd va vb s
  | .subP vd va vb => Sys2Proof.Machine.execSubP vd va vb s
  | .subW vd va vb => Sys2Proof.Machine.execSubW vd va vb s
  | .subC vd va vb => Sys2Proof.Machine.execSubC vd va vb s
  | .subO vd va vb => Sys2Proof.Machine.execSubO vd va vb s
  | .subS vd va vb => Sys2Proof.Machine.execSubS vd va vb s
  | .mulP vd va vb => Sys2Proof.Machine.execMulP vd va vb s
  | .mulW vd va vb => Sys2Proof.Machine.execMulW vd va vb s
  | .mulC vd va vb => Sys2Proof.Machine.execMulC vd va vb s
  | .mulO vd va vb => Sys2Proof.Machine.execMulO vd va vb s
  | .mulS vd va vb => Sys2Proof.Machine.execMulS vd va vb s
  | .mulxP vd va xb => Sys2Proof.Machine.execMulxP vd va xb s
  | .mulxW vd va xb => Sys2Proof.Machine.execMulxW vd va xb s
  | .mulxC vd va xb => Sys2Proof.Machine.execMulxC vd va xb s
  | .mulxO vd va xb => Sys2Proof.Machine.execMulxO vd va xb s
  | .mulxS vd va xb => Sys2Proof.Machine.execMulxS vd va xb s
  | .negP vd va => Sys2Proof.Machine.execNegP vd va s
  | .negW vd va => Sys2Proof.Machine.execNegW vd va s
  | .negC vd va => Sys2Proof.Machine.execNegC vd va s
  | .negO vd va => Sys2Proof.Machine.execNegO vd va s
  | .negS vd va => Sys2Proof.Machine.execNegS vd va s
  | .powP vd va vb => Sys2Proof.Machine.execPowP vd va vb s
  | .powW vd va vb => Sys2Proof.Machine.execPowW vd va vb s
  | .powC vd va vb => Sys2Proof.Machine.execPowC vd va vb s
  | .powO vd va vb => Sys2Proof.Machine.execPowO vd va vb s
  | .powS vd va vb => Sys2Proof.Machine.execPowS vd va vb s
  | .shlP vd va xk => Sys2Proof.Machine.execShlP vd va xk s
  | .shlW vd va xk => Sys2Proof.Machine.execShlW vd va xk s
  | .shlC vd va xk => Sys2Proof.Machine.execShlC vd va xk s
  | .shlO vd va xk => Sys2Proof.Machine.execShlO vd va xk s
  | .shlS vd va xk => Sys2Proof.Machine.execShlS vd va xk s
  | .shrP vd va xk => Sys2Proof.Machine.execShrP vd va xk s
  | .shrW vd va xk => Sys2Proof.Machine.execShrW vd va xk s
  | .shrC vd va xk => Sys2Proof.Machine.execShrC vd va xk s
  | .shrO vd va xk => Sys2Proof.Machine.execShrO vd va xk s
  | .shrS vd va xk => Sys2Proof.Machine.execShrS vd va xk s
  | .div vd va vb => Sys2Proof.Machine.execDiv vd va vb s
  | .rem vd va vb => Sys2Proof.Machine.execRem vd va vb s
  | .cdiv vd va vb => Sys2Proof.Machine.execCdiv vd va vb s
  | .crem vd va vb => Sys2Proof.Machine.execCrem vd va vb s
  | .divceil vd va vb => Sys2Proof.Machine.execDivceil vd va vb s
  | .divrem vq va vb vr => Sys2Proof.Machine.execDivrem vq va vb vr s
  | .log xd va vb => Sys2Proof.Machine.execLog xd va vb s
  | .clog xd va vb => Sys2Proof.Machine.execClog xd va vb s
  | .log2 xd va => Sys2Proof.Machine.execLog2 xd va s
  | .clog2 xd va => Sys2Proof.Machine.execClog2 xd va s
  | .log10 xd va => Sys2Proof.Machine.execLog10 xd va s
  | .clog10 xd va => Sys2Proof.Machine.execClog10 xd va s
  | .root vd va xdeg => Sys2Proof.Machine.execRoot vd va xdeg s
  | .redmod vd va vm => Sys2Proof.Machine.execRedmod vd va vm s
  | .addmod vd va vb vm => Sys2Proof.Machine.execAddmod vd va vb vm s
  | .mulmod vd va vb vm => Sys2Proof.Machine.execMulmod vd va vb vm s
  | .powmod vd va vb vm => Sys2Proof.Machine.execPowmod vd va vb vm s
  | .invmod vd va vm => Sys2Proof.Machine.execInvmod vd va vm s
  | .mulredc vd va vb vm xinv => Sys2Proof.Machine.execMulredc vd va vb vm xinv s
  | .sqrredc vd va vm xinv => Sys2Proof.Machine.execSqrredc vd va vm xinv s
  | .gcd vd va vb => Sys2Proof.Machine.execGcd vd va vb s
  | .gcdext vg va vb vx vy => Sys2Proof.Machine.execGcdext vg va vb vx vy s
  | .lcm vd va vb => Sys2Proof.Machine.execLcm vd va vb s
  | .vnot vd va => Sys2Proof.Machine.execVnot vd va s
  | .vand vd va vb => Sys2Proof.Machine.execVand vd va vb s
  | .vor vd va vb => Sys2Proof.Machine.execVor vd va vb s
  | .vxor vd va vb => Sys2Proof.Machine.execVxor vd va vb s
  | .rol vd va xk => Sys2Proof.Machine.execRol vd va xk s
  | .ror vd va xk => Sys2Proof.Machine.execRor vd va xk s
  | .revb vd va => Sys2Proof.Machine.execRevb vd va s
  | .clz xd va => Sys2Proof.Machine.execClz xd va s
  | .clo xd va => Sys2Proof.Machine.execClo xd va s
  | .ctz xd va => Sys2Proof.Machine.execCtz xd va s
  | .cto xd va => Sys2Proof.Machine.execCto xd va s
  | .popc xd va => Sys2Proof.Machine.execPopc xd va s
  | .cntz xd va => Sys2Proof.Machine.execCntz xd va s
  | .bitlen xd va => Sys2Proof.Machine.execBitlen xd va s
  | .bytelen xd va => Sys2Proof.Machine.execBytelen xd va s
  | .iszero xd va => Sys2Proof.Machine.execIszero xd va s
  | .ispow2 xd va => Sys2Proof.Machine.execIspow2 xd va s
  | .nextpow2 vd va => Sys2Proof.Machine.execNextpow2 vd va s
  | .nextmult vd va vb => Sys2Proof.Machine.execNextmult vd va vb s
  | .bit xd va xi => Sys2Proof.Machine.execBit xd va xi s
  | .setbit vd va xi => Sys2Proof.Machine.execSetbit vd va xi s
  | .clrbit vd va xi => Sys2Proof.Machine.execClrbit vd va xi s
  | .byte xd va xi => Sys2Proof.Machine.execByte xd va xi s
  | .cbyte xd va xi => Sys2Proof.Machine.execCbyte xd va xi s
  | .msbits xd va xk => Sys2Proof.Machine.execMsbits xd va xk s
  | .veq xd va vb => Sys2Proof.Machine.execVeq xd va vb s
  | .vlt xd va vb => Sys2Proof.Machine.execVlt xd va vb s

end Sys2Proof.Machine
end

