-- ==== Sys2Proof/Machine/Host.lean ====
section
/-! DEFINITION. The host register space (20_memory.md rules R56, R57): what a host read returns, what a host write
other than to `CMD` does, and which accesses need `ST.BUSY = 0`. -/

namespace Sys2Proof.Machine

/-- The index of `CMD` (R56). -/
def cmdIndex : Nat := 0x006

/-- The index of `X0` (R56). -/
def xBase : Nat := 0x010

/-- The index of `LMEM[0]` (R56). -/
def lmemBase : Nat := 0x100000000

/-- Whether an index is that of an `X` register. -/
def isXIndex (i : Nat) : Bool := decide (xBase ≤ i) && decide (i < xBase + 16)

/-- Whether an index is that of an existing word of `LMEM`. -/
def State.isLmemIndex (s : State) (i : Nat) : Bool :=
  decide (lmemBase ≤ i) && decide (i < lmemBase + s.params.nlmem.val)

/-- The `X` register at an index of the `X` window. -/
def xOfIndex (i : Nat) : XReg := Fin.ofNat 16 (i - xBase)

/-- What a host read of an index returns (R56; 10_state.md R33): `CMD` and every unlisted index read 0. -/
def State.hostRead (s : State) (i : Nat) : Word :=
  if i = 0x000 then statusWord s.st
  else if i = 0x001 then s.fcmd
  else if i = 0x002 then widthWord s.params
  else if i = 0x003 then limbsWord s.params
  else if i = 0x004 then lmsizeWord s.params
  else if i = 0x005 then capWord s.params
  else if isXIndex i then s.readX (xOfIndex i)
  else if s.isLmemIndex i then s.readLmem (i - lmemBase)
  else 0

/-- What a host write to an index other than `CMD` does (R56): `X` and `LMEM` words are written, every other
write is ignored. -/
def State.hostWrite (s : State) (i : Nat) (w : Word) : State :=
  if isXIndex i then s.writeX (xOfIndex i) w
  else if s.isLmemIndex i then s.writeLmem (i - lmemBase) w
  else s

/-- The reads the host may make only while `ST.BUSY = 0` (R57). -/
def State.readNeedsIdle (s : State) (i : Nat) : Bool := isXIndex i || s.isLmemIndex i

/-- The writes the host may make only while `ST.BUSY = 0` (R57). -/
def State.writeNeedsIdle (s : State) (i : Nat) : Bool := decide (i = cmdIndex) || isXIndex i || s.isLmemIndex i

end Sys2Proof.Machine
end

