-- ==== Sys2Proof/Machine/Command.lean ====
section
/-! DEFINITION. Giving a command and the other host actions (60_exceptions.md rules R326, R328; 20_memory.md R57;
70_reset_and_hazards.md R350). -/

namespace Sys2Proof.Machine

/-- The command word is latched, decoded and executed, all in this one step: an illegal word traps
`IllegalCommand` before any register is read (R328 step 2; 30_encoding.md R80), a legal one is its instruction's
meaning. `ST.BUSY` is 1 only inside the step (10_state.md R29; log 3). -/
def State.accept (s : State) (w : CommandWord) : Result :=
  let s' := { s with cmd := w }
  match decode w with
  | .error _ => .next (s'.trap .illegalCommand)
  | .ok i => exec i s'

/-- A write to `CMD` (10_state.md R33): bits 63:32 are ignored. While `rst` is asserted the block accepts no
command (R350); while `ST.FAULT = 1` the command is discarded undecoded (R326). -/
def State.giveCommand (s : State) (w : Word) : Result :=
  if s.rst then .next s
  else if s.st.fault then .next s
  else s.accept (w.setWidth 32)

/-- One host action. An access that needs an idle block, made while `ST.BUSY = 1`, is outside the spec (20_memory.md
R57; 93 U12): the machine stops there. -/
def State.hostAct (s : State) : HostAction → Result
  | .read i =>
    if s.st.busy && s.readNeedsIdle i then .fault .handshakeBroken
    else .next { s with hostData := s.hostRead i }
  | .write i w =>
    if s.st.busy && s.writeNeedsIdle i then .fault .handshakeBroken
    else if i = cmdIndex then s.giveCommand w
    else .next (s.hostWrite i w)
  | .assertRst => .next { s with rst := true }
  | .releaseRst => if s.rst then .next s.afterReset else .next s

/-- A command given by the host: the action that writes a word to `CMD`. -/
def commandAction (w : CommandWord) : HostAction := .write cmdIndex (w.setWidth 64)

end Sys2Proof.Machine
end

