-- ==== Sys2Proof/Machine/Step.lean ====
section
/-! DEFINITION. One step: the host's next action (10_state.md rules R30, R38; 20_memory.md R59). -/

namespace Sys2Proof.Machine

/-- One step takes the oldest pending host action. With none pending the block waits: nothing changes (R360:
the run has ended when the host has no further action; log 2). -/
def step (s : State) : Result :=
  match s.host with
  | [] => .next s
  | a :: rest => State.hostAct { s with host := rest } a

/-- `s` with the command word of an instruction as the host's next action, so that the next step runs it. The
block fetches nothing (R30): a program is the list of the host's actions (log 2). -/
def State.withFetchWord (s : State) (nbits w : Nat) : State :=
  { s with host := commandAction (BitVec.ofNat 32 (w % 2 ^ nbits)) :: s.host }

end Sys2Proof.Machine
end

