-- ==== Sys2Proof/Machine/LimbForms.lean ====
section
/-! DEFINITION. The limb-level computations the rules write out beside the value functions: add, sub, mul, mulx
(41_arith_flavours.md rules R131 to R134), single-limb long division and Knuth Algorithm D (42_divide_log_root.md
R182, R183), binary gcd (43_modular.md R222), the limb-offset shifter (44_bitwise_shift.md R247). The commands'
meanings are the value functions; these say what the sub-blocks do inside one command. -/

namespace Sys2Proof.Machine

/-- The limb form of `add` (R131): result and overflow flag. -/
def addLimbs (B a b : Nat) : Nat × Bool :=
  let p := addN (limbsOf (limbCount B) a) (limbsOf (limbCount B) b) false
  (val (canonLimbs B p.1), p.2 || maskedOff B p.1)

/-- The limb form of `sub` (R132): the flag is the final borrow alone. -/
def subLimbs (B a b : Nat) : Nat × Bool :=
  let p := subN (limbsOf (limbCount B) a) (limbsOf (limbCount B) b) false
  (val (canonLimbs B p.1), p.2)

/-- The low `L` limbs of a product canonicalised; the flag is "any high limb non-zero or masked bits set" (R133). -/
def lowProduct (B : Nat) (p : List Word) : Nat × Bool :=
  (val (canonLimbs B (p.take (limbCount B))),
    (p.drop (limbCount B)).any (fun w => decide (w ≠ 0)) || maskedOff B (p.take (limbCount B)))

/-- The limb form of `mul` (R133). -/
def mulLimbs (B a b : Nat) : Nat × Bool :=
  lowProduct B (mulNxM (limbsOf (limbCount B) a) (limbsOf (limbCount B) b))

/-- The limb form of `mulx` (R134): an `L × 1` product. -/
def mulxLimbs (B a : Nat) (s : Word) : Nat × Bool :=
  lowProduct B (mulNxM (limbsOf (limbCount B) a) [s])

/-- Single-limb long division (R182): the numerator's limbs from the most significant down, a 128-bit remainder
accumulator; quotient limbs stored limb 0 first. -/
def divSingle (d : Nat) : List Word → List Word × Nat
  | [] => ([], 0)
  | w :: ws =>
    let (qs, rem) := divSingle d ws
    let t := rem * 2 ^ 64 + w.toNat
    (BitVec.ofNat 64 (t / d) :: qs, t % d)

/-- The number of significant limbs. -/
def effectiveLimbs (x : Nat) : Nat := limbCount (bitLen x)

/-- The correction of `qhat` by at most `n` decrements (R183); `v1`, `v2` are the top two limbs of the normalised
divisor, `u2` the third limb of the window. -/
def correctQhat (v1 v2 u2 : Nat) : Nat → Nat → Nat → Nat
  | 0, qhat, _ => qhat
  | n + 1, qhat, rhat =>
    if 2 ^ 64 ≤ qhat ∨ rhat * 2 ^ 64 + u2 < qhat * v2 then
      if 2 ^ 64 ≤ rhat + v1 then qhat - 1 else correctQhat v1 v2 u2 n (qhat - 1) (rhat + v1)
    else qhat

/-- One quotient digit of Knuth D (R183): `v` is the normalised divisor of `k ≥ 2` limbs, `u` the window
`u[j .. j+k]` as a number. It answers the digit and the window after the multiply-subtract and, on a borrow, the
add-back with its carry discarded. -/
def knuthDigit (k v u : Nat) : Nat × Nat :=
  let v1 := v / 2 ^ (64 * (k - 1))
  let v2 := v / 2 ^ (64 * (k - 2)) % 2 ^ 64
  let num := u / 2 ^ (64 * (k - 1))
  let u2 := u / 2 ^ (64 * (k - 2)) % 2 ^ 64
  let qhat := correctQhat v1 v2 u2 2 (num / v1) (num % v1)
  if qhat * v ≤ u then (qhat, u - qhat * v)
  else (qhat - 1, (u + 2 ^ (64 * (k + 1)) - qhat * v + v) % 2 ^ (64 * (k + 1)))

/-- The digit loop of Knuth D from digit `j − 1` down to 0 (R183): `u` is the normalised numerator, `rem` the
part of it above limb `j` after the digits so far, `q` those digits. -/
def knuthLoop (k v u : Nat) : Nat → Nat → Nat → Nat × Nat
  | 0, rem, q => (q, rem)
  | j + 1, rem, q =>
    let d := knuthDigit k v (rem * 2 ^ 64 + u / 2 ^ (64 * j) % 2 ^ 64)
    knuthLoop k v u j d.2 (q * 2 ^ 64 + d.1)

/-- Knuth Algorithm D (R183) for a divisor of `k ≥ 2` effective limbs: normalise both by the leading zeros of the
divisor's top limb, `t − k + 1` digits, shift the remainder back. -/
def knuthD (n d : Nat) : Nat × Nat :=
  let k := effectiveLimbs d
  let t := effectiveLimbs n
  if t < k then (0, n)
  else
    let sh := 64 * k - bitLen d
    let u := n * 2 ^ sh
    let p := knuthLoop k (d * 2 ^ sh) u (t - k + 1) (u / 2 ^ (64 * (t - k + 1))) 0
    (p.1, p.2 / 2 ^ sh)

/-- A value without its trailing zero bits (R222). -/
def stripTwos (x : Nat) : Nat := x / 2 ^ trailingZeros (bitLen x) x

/-- The loop of binary gcd on an odd `a`, for enough rounds (R222). -/
def binaryGcdLoop : Nat → Nat → Nat → Nat
  | 0, a, _ => a
  | n + 1, a, b =>
    let b' := stripTwos b
    let lo := min a b'
    let hi := max a b'
    if hi - lo = 0 then lo else binaryGcdLoop n lo (hi - lo)

/-- Binary gcd (R222). -/
def binaryGcd (a b : Nat) : Nat :=
  if a = 0 then b else if b = 0 then a
  else binaryGcdLoop (a + b) (stripTwos a) b * 2 ^ trailingZeros (bitLen (a ||| b)) (a ||| b)

/-- Limb `j` of a left shift by `64·o + s` (R247); limbs below limb 0 are zero. -/
def shlLimb (x : List Word) (o s j : Nat) : Word :=
  (if o ≤ j then x.getD (j - o) 0 <<< s else 0) |||
    (if 0 < s ∧ o + 1 ≤ j then x.getD (j - o - 1) 0 >>> (64 - s) else 0)

/-- Limb `j` of a right shift by `64·o + s` (R247); limbs above the top limb are zero. -/
def shrLimb (x : List Word) (o s j : Nat) : Word :=
  (x.getD (j + o) 0 >>> s) ||| (if 0 < s then x.getD (j + o + 1) 0 <<< (64 - s) else 0)

/-- The limb form of `shl` for `k < B` (R247). -/
def shlLimbs (B x k : Nat) : Nat :=
  val (canonLimbs B ((List.range (limbCount B)).map (shlLimb (limbsOf (limbCount B) x) (k / 64) (k % 64))))

/-- The limb form of `shr` for `k < B` (R247). -/
def shrLimbs (B x k : Nat) : Nat :=
  val ((List.range (limbCount B)).map (shrLimb (limbsOf (limbCount B) x) (k / 64) (k % 64)))

end Sys2Proof.Machine
end

