-- ==== Sys2Proof/Safety.lean ====
section
/-! DEFINITION. The terms claims are stated in: the canonical invariant and the invariant of the whole machine,
the state a command leaves (its result and its frame in one relation), the failures each command may report, and
the end of a run. -/

namespace Sys2Proof.Machine

/-- The canonical invariant (10_state.md R21): every wide register holds a natural `< 2^B`. -/
def State.Canonical (s : State) : Prop := ∀ i : VReg, s.readV i < 2 ^ s.B

/-- `ST` as commands and reset can leave it between steps (R26, R28, R29): not busy; a kind exactly when the last
command ended absent or a command has trapped; never one of the parser kinds (60_exceptions.md R321). -/
structure Status.Legal (st : Status) : Prop where
  idle : st.busy = false
  kindIff : st.kind ≠ none ↔ st.abs = true ∨ st.fault = true
  noInvalidDigit : st.kind ≠ some .invalidDigit
  noInvalidRadix : st.kind ≠ some .invalidRadix
  noEmpty : st.kind ≠ some .empty

/-- What holds of every state a run reaches. -/
structure State.Inv (s : State) : Prop where
  /-- R21 -/
  canonical : s.Canonical
  /-- R26, R28, R29 -/
  status : s.st.Legal
  /-- `FCMD` bits 63:32 read zero, and only a trap writes it (R31) -/
  fcmdHigh : s.fcmd.toNat < 2 ^ 32
  fcmdIdle : s.st.fault = false → s.fcmd = 0
  /-- the canonical form of limb memory, and R35: no word outside `0 .. NLMEM−1` -/
  lmemForm : s.lmem.wf
  lmemBound : ∀ p ∈ s.lmem, p.1 < s.params.nlmem.val

/-- `t` is what is left of `s` when the wide registers read `v`, the scalar registers `x`, limb memory `m`, the
status is `st`, `FCMD` is `fcmd` and the draw counter is `draws`, and EVERYTHING ELSE is as it was. -/
structure State.Leaves (s t : State) (v : VReg → Nat) (x : XReg → Word) (m : Nat → Word) (st : Status)
    (fcmd : Word) (draws : Nat) : Prop where
  wide : ∀ i, t.readV i = v i
  scalar : ∀ i, t.readX i = x i
  memory : ∀ a, t.readLmem a = m a
  status : t.st = st
  fcmd : t.fcmd = fcmd
  draws : t.draws = draws
  params : t.params = s.params
  cmd : t.cmd = s.cmd
  rst : t.rst = s.rst
  host : t.host = s.host
  hostData : t.hostData = s.hostData
  epoch : t.epoch = s.epoch

/-- The status after `done`: `ABS` and `KIND` cleared, the rest kept (R28; 60_exceptions.md R323). -/
def Status.afterDone (st : Status) : Status := { st with abs := false, kind := none }

/-- The value of the limb slice `LMEM[a .. a+n)` (20_memory.md R52): `Σ_{j<n} LMEM[a+j]·2^(64j)`. -/
def State.sliceValue (s : State) (a n : Nat) : Nat :=
  ∑ j ∈ Finset.range n, (s.readLmem (a + j)).toNat * 2 ^ (64 * j)

/-- A run has ended (70_reset_and_hazards.md R360): the host has no further action, the block is idle and has not
faulted. -/
def State.RunEnded (s : State) : Prop := s.host = [] ∧ s.st.busy = false ∧ s.st.fault = false

end Sys2Proof.Machine

namespace Sys2Proof

open Machine

/-- `i` completes in `s` with its one result in `V[vd]`; every other wide register, every scalar register, limb
memory, `OVF`, `SGN`, `FAULT`, `BUSY`, `FCMD` are unchanged. -/
def Instr.CompletesV (i : Instr) (s : State) (vd : VReg) (n : Nat) : Prop :=
  ∃ t, exec i s = .next t ∧
    s.Leaves t (fun j => if j = vd then n else s.readV j) s.readX s.readLmem s.st.afterDone s.fcmd s.draws

/-- As `CompletesV`, and `ST.OVF` is written with `ovf` (10_state.md R27). -/
def Instr.CompletesO (i : Instr) (s : State) (vd : VReg) (n : Nat) (ovf : Bool) : Prop :=
  ∃ t, exec i s = .next t ∧
    s.Leaves t (fun j => if j = vd then n else s.readV j) s.readX s.readLmem { s.st.afterDone with ovf := ovf }
      s.fcmd s.draws

/-- `i` completes in `s` with its one result in `X[xd]`; everything else is unchanged but `ABS` and `KIND`. -/
def Instr.CompletesX (i : Instr) (s : State) (xd : XReg) (w : Word) : Prop :=
  ∃ t, exec i s = .next t ∧
    s.Leaves t s.readV (fun j => if j = xd then w else s.readX j) s.readLmem s.st.afterDone s.fcmd s.draws

/-- `i` completes in `s` with two wide results, in different registers. -/
def Instr.CompletesVV (i : Instr) (s : State) (v1 : VReg) (n1 : Nat) (v2 : VReg) (n2 : Nat) : Prop :=
  ∃ t, exec i s = .next t ∧
    s.Leaves t (fun j => if j = v1 then n1 else if j = v2 then n2 else s.readV j) s.readX s.readLmem
      s.st.afterDone s.fcmd s.draws

/-- `i` completes in `s` with no destination. -/
def Instr.CompletesPlain (i : Instr) (s : State) : Prop :=
  ∃ t, exec i s = .next t ∧ s.Leaves t s.readV s.readX s.readLmem s.st.afterDone s.fcmd s.draws

/-- `i` completes in `s` having stored `n` words from index `a` up, word `j` being `w j`; every word outside
`a .. a+n−1` reads as before (20_memory.md R55). -/
def Instr.CompletesStore (i : Instr) (s : State) (a n : Nat) (w : Nat → Word) : Prop :=
  ∃ t, exec i s = .next t ∧
    s.Leaves t s.readV s.readX (fun b => if a ≤ b ∧ b < a + n then w (b - a) else s.readLmem b) s.st.afterDone
      s.fcmd s.draws

/-- `i` ends `absent(k)` in `s` (60_exceptions.md R324): `ABS` and `KIND` are written and nothing else. -/
def Instr.Absents (i : Instr) (s : State) (k : Kind) : Prop :=
  ∃ t, exec i s = .next t ∧
    s.Leaves t s.readV s.readX s.readLmem { s.st with abs := true, kind := some k } s.fcmd s.draws

/-- `i` traps with kind `k` in `s` (R325): `FAULT`, `KIND` and `FCMD` are written and nothing else. -/
def Instr.Traps (i : Instr) (s : State) (k : Kind) : Prop :=
  ∃ t, exec i s = .next t ∧
    s.Leaves t s.readV s.readX s.readLmem { s.st with fault := true, kind := some k } (s.cmd.setWidth 64) s.draws

/-- The flavour contract of 41_arith_flavours.md R130 for the five commands of one operation with destination
`vd`: wrapped result `r`, overflow condition `ovf`, saturation value `sat`; `plainTraps` says whether the plain
flavour of this instance and operation traps on overflow. -/
structure FiveFlavours (s : State) (plain wrapping checked overflowing saturating : Instr) (vd : VReg)
    (r : Nat) (ovf : Prop) (sat : Nat) (plainTraps : Bool) : Prop where
  wrapping : wrapping.CompletesV s vd r
  checkedFits : ¬ ovf → checked.CompletesV s vd r
  checkedOverflows : ovf → checked.Absents s .overflow
  overflowingFits : ¬ ovf → overflowing.CompletesO s vd r false
  overflowingOverflows : ovf → overflowing.CompletesO s vd r true
  saturatingFits : ¬ ovf → saturating.CompletesV s vd r
  saturatingOverflows : ovf → saturating.CompletesV s vd sat
  plainCompletes : ¬ (ovf ∧ plainTraps = true) → plain.CompletesV s vd r
  plainTrap : ovf → plainTraps = true → plain.Traps s .overflow

/-- The commands that write `ST.OVF` (10_state.md R27). -/
def Instr.writesOvf : Instr → Bool
  | .addO .. | .subO .. | .mulO .. | .mulxO .. | .negO .. | .powO .. | .shlO .. | .shrO .. | .ldsO .. => true
  | _ => false

/-- The kinds a command may trap with once decoded, the "trap" entries of 60_exceptions.md R321. -/
def Instr.trapKinds : Instr → List Kind
  | .ldl .. => [.invalidLength, .lmemRange, .overflow]
  | .ldsW .. | .ldsC .. | .ldsO .. | .ldsS .. | .stl .. => [.lmemRange]
  | .addP .. | .subP .. | .mulP .. | .mulxP .. | .negP .. | .powP .. => [.overflow]
  | .div .. | .rem .. | .divceil .. | .divrem .. | .redmod .. | .addmod .. | .mulmod .. | .powmod ..
  | .nextmult .. => [.divisionByZero]
  | .log .. | .log2 .. | .log10 .. | .root .. | .mulredc .. | .sqrredc .. | .setbit .. | .clrbit ..
  | .msbits .. => [.domainError]
  | _ => []

/-- The kinds a command may end absent with, the "absent" entries of R321. -/
def Instr.absentKinds : Instr → List Kind
  | .ldsC .. | .addC .. | .subC .. | .mulC .. | .mulxC .. | .negC .. | .powC .. | .shlC .. | .shrC ..
  | .lcm .. | .nextpow2 .. | .nextmult .. => [.overflow]
  | .cdiv .. | .crem .. => [.divisionByZero]
  | .invmod .. => [.notInvertible]
  | .clog .. | .clog2 .. | .clog10 .. | .cbyte .. => [.domainError]
  | _ => []

/-- The wide registers a command writes when it ends `done`. -/
def Instr.wideDests : Instr → List VReg
  | .mov vd _ | .ldc vd _ | .ldl vd _ _ | .ldsW vd _ _ | .ldsC vd _ _ | .ldsO vd _ _ | .ldsS vd _ _
  | .addP vd _ _ | .addW vd _ _ | .addC vd _ _ | .addO vd _ _ | .addS vd _ _
  | .subP vd _ _ | .subW vd _ _ | .subC vd _ _ | .subO vd _ _ | .subS vd _ _
  | .mulP vd _ _ | .mulW vd _ _ | .mulC vd _ _ | .mulO vd _ _ | .mulS vd _ _
  | .mulxP vd _ _ | .mulxW vd _ _ | .mulxC vd _ _ | .mulxO vd _ _ | .mulxS vd _ _
  | .negP vd _ | .negW vd _ | .negC vd _ | .negO vd _ | .negS vd _
  | .powP vd _ _ | .powW vd _ _ | .powC vd _ _ | .powO vd _ _ | .powS vd _ _
  | .shlP vd _ _ | .shlW vd _ _ | .shlC vd _ _ | .shlO vd _ _ | .shlS vd _ _
  | .shrP vd _ _ | .shrW vd _ _ | .shrC vd _ _ | .shrO vd _ _ | .shrS vd _ _
  | .div vd _ _ | .rem vd _ _ | .cdiv vd _ _ | .crem vd _ _ | .divceil vd _ _ | .root vd _ _
  | .redmod vd _ _ | .addmod vd _ _ _ | .mulmod vd _ _ _ | .powmod vd _ _ _ | .invmod vd _ _
  | .mulredc vd _ _ _ _ | .sqrredc vd _ _ _ | .gcd vd _ _ | .lcm vd _ _
  | .vnot vd _ | .vand vd _ _ | .vor vd _ _ | .vxor vd _ _ | .rol vd _ _ | .ror vd _ _ | .revb vd _
  | .nextpow2 vd _ | .nextmult vd _ _ | .setbit vd _ _ | .clrbit vd _ _ => [vd]
  | .divrem vq _ _ vr => [vq, vr]
  | .gcdext vg _ _ vx vy => [vg, vx, vy]
  | _ => []

/-- The scalar registers a command writes when it ends `done`. -/
def Instr.scalarDests : Instr → List XReg
  | .lix xd _ | .log xd _ _ | .clog xd _ _ | .log2 xd _ | .clog2 xd _ | .log10 xd _ | .clog10 xd _
  | .clz xd _ | .clo xd _ | .ctz xd _ | .cto xd _ | .popc xd _ | .cntz xd _ | .bitlen xd _ | .bytelen xd _
  | .iszero xd _ | .ispow2 xd _ | .bit xd _ _ | .byte xd _ _ | .cbyte xd _ _ | .msbits xd _ _
  | .veq xd _ _ | .vlt xd _ _ => [xd]
  | _ => []

end Sys2Proof
end

