-- ==== Sys2Proof/Certificates/Slice0/Obligations.lean ====
section
/-! DEFINITION. The statements for the provers, in the order of OBLIGATIONS.json. The vocabulary (what a command
leaves, the invariant, the flavour contract) is Sys2Proof/Safety.lean's. -/

open Sys2Proof Sys2Proof.Machine

/-- O1. Decoding the encoding of any well-formed command gives it back. Encoding round trip over the whole command
set (30_encoding.md R71, R72, R77 to R79). -/
def Obligations.DecodeOfEncodeIsTheCommand : Prop :=
  ∀ i : Instr, i.wellFormed = true → decode (encode i) = .ok i

/-- O2. A word that decodes is the encoding of the well-formed command it decodes to. The other direction of the
round trip (30_encoding.md R77, R80). -/
def Obligations.EncodeOfDecodeIsTheWord : Prop :=
  ∀ (w : CommandWord) (i : Instr), decode w = .ok i → i.wellFormed = true ∧ encode i = w

/-- O3. Flavour codes 5 to 7, opcodes above 0x99 and a non-zero Z nibble are illegal. 30_encoding.md R71, R75,
R76, R80. -/
def Obligations.ReservedWordsAreIllegal : Prop :=
  ∀ w : CommandWord,
    ((0x08 ≤ (opcodeOf w).toNat ∧ (opcodeOf w).toNat ≤ 0x4F ∧ 5 ≤ (opcodeOf w).toNat % 8) ∨
      0x99 < (opcodeOf w).toNat → decode w = .error .unknownOpcode) ∧
    (w.toNat % 16 ≠ 0 → ∃ e, decode w = .error e)

/-- O4. The words printed in R83 and one word of each family decode as the spec says. A sanity statement: words
written out field by field from 30_encoding.md R71, R72, R78 and the examples of R83. -/
def Obligations.SampleWordsDecode : Prop :=
  decode 0x13312000 = .ok (.addO 3 1 2) ∧ decode 0x55412500 = .ok (.divrem 4 1 2 5) ∧
  decode 0x65012370 = .ok (.mulredc 0 1 2 3 7) ∧ decode 0x66010370 = .ok (.sqrredc 0 1 3 7) ∧
  decode 0x012012C0 = .ok (.lix 2 300) ∧ decode 0x03100020 = .ok (.ldc 1 2) ∧
  decode 0x00000000 = .ok .nop ∧ decode 0x04340000 = .ok (.stl 3 4) ∧ decode 0x08012000 = .ok (.ldl 0 1 2) ∧
  decode 0x4C312000 = .ok (.shrS 3 1 2) ∧ decode 0x58312000 = .ok (.log 3 1 2) ∧
  decode 0x69312450 = .ok (.gcdext 3 1 2 4 5) ∧ decode 0x70210000 = .ok (.vnot 2 1) ∧
  decode 0x85010000 = .ok (.cntz 0 1) ∧ decode 0x91312000 = .ok (.msbits 3 1 2) ∧
  decode 0x99312000 = .ok (.vlt 3 1 2) ∧
  decode 0x03100030 = .error .operandCondition ∧ decode 0x55412400 = .error .operandCondition ∧
  decode 0x13312001 = .error .mustBeZeroSet

/-- O5. After reset every register is zero, the constants have their values, and LMEM words are arbitrary.
10_state.md R39, R32; 00_scope.md R7; 20_memory.md R56 (the indices). The free value of an unwritten word, at the
start value 0 of the counter, is the model's choice (log 4). -/
def Obligations.ResetStateIsAsSpecified : Prop :=
  ∀ p : Params,
    (∀ i, (State.resetOf p).readV i = 0) ∧ (∀ i, (State.resetOf p).readX i = 0) ∧
    (State.resetOf p).st = ⟨false, false, false, false, none, false⟩ ∧
    (State.resetOf p).hostRead 0x000 = 0 ∧ (State.resetOf p).hostRead 0x001 = 0 ∧
    ((State.resetOf p).hostRead 0x002).toNat = p.width.val ∧
    ((State.resetOf p).hostRead 0x003).toNat = (p.width.val + 63) / 64 ∧
    ((State.resetOf p).hostRead 0x004).toNat = p.nlmem.val ∧
    ((State.resetOf p).hostRead 0x005).toNat =
      (p.debug).toNat + 2 * p.shrOvfInexact.toNat + 0x1101000 ∧
    ∀ a, (State.resetOf p).readLmem a = Config.freeLmemWord 0 a

/-- O6. While rst is asserted no command is accepted; its release gives the reset state whatever came before.
70_reset_and_hazards.md R350, R353; what is no state of the spec's is the model's (log 4, 6, 7, 8, 9). -/
def Obligations.ResetInputClearsEverything : Prop :=
  ∀ (s : State) (rest : List HostAction),
    (s.host = .assertRst :: rest → step s = .next { s with host := rest, rst := true }) ∧
    (∀ u : Word, s.host = .write cmdIndex u :: rest → s.rst = true → s.st.busy = false →
      step s = .next { s with host := rest }) ∧
    (s.host = .releaseRst :: rest → s.rst = true → ∃ t, step s = .next t ∧
      (∀ i, t.readV i = 0) ∧ (∀ i, t.readX i = 0) ∧ t.st = ⟨false, false, false, false, none, false⟩ ∧
      t.fcmd = 0 ∧ t.cmd = 0 ∧ t.rst = false ∧ t.params = s.params ∧ t.host = rest ∧ t.hostData = s.hostData ∧
      (∀ a, t.readLmem a = Config.freeLmemWord (s.epoch + 1) a) ∧ t.epoch = s.epoch + 1 ∧ t.draws = s.draws)

/-- O7. While ST.FAULT = 1 commands are discarded and only host writes and reset change the block.
60_exceptions.md R326; 70_reset_and_hazards.md R350, R360; 20_memory.md R57. The model's choices: the host's list
(log 2), release of an asserted reset as the way out (log 7), the latched command word (log 8). -/
def Obligations.FaultFreezesTheBlock : Prop :=
  ∀ s : State, s.st.fault = true → s.st.busy = false →
    (∀ (u : Word) (rest : List HostAction), s.host = .write cmdIndex u :: rest →
      step s = .next { s with host := rest }) ∧
    (∀ t, step s = .next t → (¬ ∃ rest, s.host = .releaseRst :: rest ∧ s.rst = true) →
      (∀ i, t.readV i = s.readV i) ∧ t.st = s.st ∧ t.fcmd = s.fcmd ∧ t.cmd = s.cmd ∧ t.params = s.params ∧
      (∀ i : XReg, t.readX i ≠ s.readX i → ∃ w rest, s.host = .write (0x010 + i.val) w :: rest) ∧
      (∀ a, t.readLmem a ≠ s.readLmem a → ∃ w rest, s.host = .write (0x100000000 + a) w :: rest)) ∧
    (∀ t, step s = .next t → t.st.fault = false → ∃ rest, s.host = .releaseRst :: rest ∧ s.rst = true) ∧
    ¬ s.RunEnded

/-- O8. A write of a legal word to CMD runs exactly the command it decodes to. 10_state.md R33; 60_exceptions.md
R328 steps 1 and 2. -/
def Obligations.StepRunsTheDecodedCommand : Prop :=
  ∀ (s : State) (u : Word) (rest : List HostAction) (i : Instr),
    s.host = .write cmdIndex u :: rest → s.rst = false → s.st.fault = false → s.st.busy = false →
    decode (u.setWidth 32) = .ok i →
    step s = exec i { s with host := rest, cmd := u.setWidth 32 }

/-- O9. A word that is no legal command's encoding traps IllegalCommand and changes no other state. 30_encoding.md
R80, R79; 10_state.md R33; 60_exceptions.md R321, R325. The latch of the word (log 8) and the host's list (log 2)
are the model's choices. -/
def Obligations.IllegalWordTrapsAndChangesNothingElse : Prop :=
  ∀ (s : State) (u : Word) (rest : List HostAction),
    s.host = .write cmdIndex u :: rest → s.rst = false → s.st.fault = false → s.st.busy = false →
    (∀ i : Instr, i.wellFormed = true → encode i ≠ u.setWidth 32) →
    ∃ t, step s = .next t ∧ Kind.illegalCommand.code = 9 ∧
      { s with host := rest, cmd := u.setWidth 32 }.Leaves t s.readV s.readX s.readLmem
        { s.st with fault := true, kind := some .illegalCommand } (u &&& 0xFFFFFFFF) s.draws

/-- O10. While BUSY = 0: what a host read of every index returns, and what a host write to every index but CMD
does. 20_memory.md R56; 10_state.md R26, R32, R33. A write to CMD is O6 to O9's. The word returned (log 9) and the
host's list (log 2) are the model's own fields. -/
def Obligations.HostRegisterSpaceMap : Prop :=
  ∀ (s : State) (rest : List HostAction) (w : Word), s.st.busy = false →
    (∀ i, s.host = .read i :: rest → ∃ d, step s = .next { s with host := rest, hostData := d } ∧
      (i = 0x000 → d.toNat = s.st.ovf.toNat + 2 * s.st.sgn.toNat + 4 * s.st.abs.toNat + 8 * s.st.fault.toNat +
        16 * kindCode s.st.kind) ∧
      (i = 0x001 → d = s.fcmd) ∧ (i = 0x002 → d.toNat = s.params.width.val) ∧
      (i = 0x003 → d.toNat = (s.params.width.val + 63) / 64) ∧ (i = 0x004 → d.toNat = s.params.nlmem.val) ∧
      (i = 0x005 → d.toNat = (s.params.debug).toNat + 2 * s.params.shrOvfInexact.toNat + 0x1101000) ∧
      (i = 0x006 → d = 0) ∧ (∀ j : XReg, i = 0x010 + j.val → d = s.readX j) ∧
      (∀ a, a < s.params.nlmem.val → i = 0x100000000 + a → d = s.readLmem a) ∧
      (7 ≤ i → i < 0x010 ∨ 0x020 ≤ i → i < 0x100000000 ∨ 0x100000000 + s.params.nlmem.val ≤ i → d = 0)) ∧
    (∀ j : XReg, s.host = .write (0x010 + j.val) w :: rest → ∃ t, step s = .next t ∧
      { s with host := rest }.Leaves t s.readV (fun k => if k = j then w else s.readX k) s.readLmem s.st s.fcmd
        s.draws) ∧
    (∀ a, a < s.params.nlmem.val → s.host = .write (0x100000000 + a) w :: rest → ∃ t, step s = .next t ∧
      { s with host := rest }.Leaves t s.readV s.readX (fun b => if b = a then w else s.readLmem b) s.st s.fcmd
        s.draws) ∧
    (∀ i, i ≠ 0x006 → i < 0x010 ∨ 0x020 ≤ i → i < 0x100000000 ∨ 0x100000000 + s.params.nlmem.val ≤ i →
      s.host = .write i w :: rest → step s = .next { s with host := rest })

/-- O11. A step stops exactly when the host touches CMD, X or LMEM of a busy block; it never refuses. 20_memory.md
R57; 93_implementation_defined.md U12. -/
def Obligations.OnlyBrokenHandshakeStopsTheMachine : Prop :=
  ∀ s : State,
    (step s = .fault .handshakeBroken ↔ s.st.busy = true ∧ ∃ i rest,
      ((s.host = .read i :: rest ∧ i ≠ 0x006) ∨ ∃ w, s.host = .write i w :: rest) ∧
      (i = 0x006 ∨ (0x010 ≤ i ∧ i < 0x020) ∨
        (0x100000000 ≤ i ∧ i < 0x100000000 + s.params.nlmem.val))) ∧
    (step s = .fault .handshakeBroken ∨ ∃ t, step s = .next t)

/-- O12. Every step keeps: canonical wide values, a legal status, FCMD's shape, LMEM's form and bounds.
10_state.md R21, R26, R28, R29, R31, R35. -/
def Obligations.InvariantKeptByEveryStep : Prop :=
  ∀ s t : State, s.Inv → step s = .next t → t.Inv

/-- O13. The machine invariant holds right after reset, for every instance. 10_state.md R39. -/
def Obligations.InvariantHoldsAtReset : Prop :=
  (∀ p : Params, (State.resetOf p).Inv) ∧ State.reset.Inv

/-- O14. No step changes B, NLMEM, DEBUG or SHR_OVF_INEXACT, so WIDTH, LIMBS, LMSIZE and CAP are constant.
00_scope.md R7; 10_state.md R32. -/
def Obligations.InstanceParametersNeverChange : Prop :=
  ∀ s t : State, step s = .next t →
    t.params = s.params ∧ ∀ i, 2 ≤ i → i ≤ 5 → t.hostRead i = s.hostRead i

/-- O15. Every command completes in its step: done, absent, or a trap, the last two writing nothing else.
60_exceptions.md R320, R323, R324, R325; 70_reset_and_hazards.md R359. -/
def Obligations.EveryCommandEndsInOneOfThreeOutcomes : Prop :=
  ∀ (i : Instr) (s : State), ∃ t, exec i s = .next t ∧
    (t.params = s.params ∧ t.rst = s.rst ∧ t.host = s.host ∧ t.hostData = s.hostData ∧ t.epoch = s.epoch ∧
      t.cmd = s.cmd) ∧
    ((t.st.abs = false ∧ t.st.kind = none ∧ t.st.fault = s.st.fault ∧ t.st.busy = s.st.busy ∧ t.fcmd = s.fcmd) ∨
     (∃ k ∈ i.absentKinds, t = { s with st := { s.st with abs := true, kind := some k } }) ∨
     (∃ k ∈ i.trapKinds, t =
        { s with st := { s.st with fault := true, kind := some k }, fcmd := s.cmd.setWidth 64 }))

/-- O16. Which command can fail, how, and with which kind. 60_exceptions.md R321, R322; the two lists are Safety's
trapKinds and absentKinds. -/
def Obligations.FailureKindsPerCommand : Prop :=
  (∀ (i : Instr) (s : State) (k : Kind), s.st.fault = false →
    (i.Traps s k → k ∈ i.trapKinds) ∧ (i.Absents s k → k ∈ i.absentKinds)) ∧
  (∀ (i : Instr) (s : State), i.trapKinds = [] → i.absentKinds = [] →
    ∃ t, exec i s = .next t ∧ t.st.abs = false ∧ t.st.kind = none ∧ t.st.fault = s.st.fault ∧ t.fcmd = s.fcmd) ∧
  [Kind.invalidLength, .overflow, .divisionByZero, .invalidDigit, .invalidRadix, .empty, .notInvertible,
    .domainError, .illegalCommand, .lmemRange].map Kind.code = [1, 2, 3, 4, 5, 6, 7, 8, 9, 10]

/-- O17. OVF is written only by the nine .O commands, SGN only by GCDEXT, and no command reads OVF. 10_state.md
R26, R27; 43_modular.md R228. -/
def Obligations.FlagsAreWrittenOnlyByTheirCommands : Prop :=
  (∀ (i : Instr) (s t : State), exec i s = .next t →
    (i.writesOvf = false → t.st.ovf = s.st.ovf) ∧
    ((∀ vg va vb vx vy, i ≠ .gcdext vg va vb vx vy) → t.st.sgn = s.st.sgn ∧ t.draws = s.draws)) ∧
  (∀ (i : Instr) (s t : State) (b : Bool), exec i s = .next t →
    ∃ t', exec i (s.setOvf b) = .next t' ∧ t'.setOvf false = t.setOvf false)

/-- O18. A command changes no V or X but its destinations, and only STL changes limb memory. 60_exceptions.md R323
to R325. -/
def Obligations.CommandsWriteOnlyTheirDestinations : Prop :=
  ∀ (i : Instr) (s t : State), exec i s = .next t →
    (∀ j, j ∉ i.wideDests → t.readV j = s.readV j) ∧ (∀ j, j ∉ i.scalarDests → t.readX j = s.readX j) ∧
    ((∀ vs xaddr, i ≠ .stl vs xaddr) → ∀ a, t.readLmem a = s.readLmem a) ∧
    (t.fcmd = s.fcmd ∨ (t.st.fault = true ∧ t.fcmd = s.cmd.setWidth 64))

/-- O19. A command's effect does not depend on the host's list, the last read, the reset input or FCMD.
10_state.md R36: no hidden state that a command can observe. -/
def Obligations.CommandsDependOnNoHiddenState : Prop :=
  ∀ (i : Instr) (s t : State) (h : List HostAction) (d : Word) (r : Bool) (f : Word), exec i s = .next t →
    ∃ t', exec i { s with host := h, hostData := d, rst := r, fcmd := f } = .next t' ∧
      t' = { t with host := h, hostData := d, rst := r, fcmd := t'.fcmd } ∧
      (t'.fcmd = f ∨ (t'.fcmd = t.fcmd ∧ ∃ k ∈ i.trapKinds, t = s.trap k))

/-- O20. NOP, LIX, MOV and LDC complete in every state with the values and frame of R110 to R113.
40_limbs_load_store.md R107, R110 to R113. -/
def Obligations.SystemAndConstantCommands : Prop :=
  ∀ (s : State) (vd va : VReg) (xd : XReg) (imm : BitVec 16),
    Instr.nop.CompletesPlain s ∧
    (Instr.lix xd imm).CompletesX s xd (BitVec.ofNat 64 imm.toNat) ∧
    (Instr.mov vd va).CompletesV s vd (s.readV va) ∧
    (Instr.ldc vd 0).CompletesV s vd 0 ∧ (Instr.ldc vd 1).CompletesV s vd (1 % 2 ^ s.B) ∧
    (Instr.ldc vd 2).CompletesV s vd (2 ^ s.B - 1)

/-- O21. LDL checks length, then range, then excess bits, and otherwise loads the exact value.
40_limbs_load_store.md R114; 60_exceptions.md R328 (the order of the checks). -/
def Obligations.ExactLengthLoad : Prop :=
  ∀ (s : State) (vd : VReg) (xaddr xn : XReg),
    let a := (s.readX xaddr).toNat
    let n := (s.readX xn).toNat
    (n ≠ (s.B + 63) / 64 → (Instr.ldl vd xaddr xn).Traps s .invalidLength) ∧
    (n = (s.B + 63) / 64 → s.params.nlmem.val < a + n → (Instr.ldl vd xaddr xn).Traps s .lmemRange) ∧
    (n = (s.B + 63) / 64 → a + n ≤ s.params.nlmem.val → 2 ^ s.B ≤ s.sliceValue a n →
      (Instr.ldl vd xaddr xn).Traps s .overflow) ∧
    (n = (s.B + 63) / 64 → a + n ≤ s.params.nlmem.val → s.sliceValue a n < 2 ^ s.B →
      (Instr.ldl vd xaddr xn).CompletesV s vd (s.sliceValue a n))

/-- O22. LDS.W, LDS.C, LDS.O, LDS.S: wrapped, checked, flagged and saturated value of any slice.
40_limbs_load_store.md R108, R115 to R118; 20_memory.md R54. -/
def Obligations.SliceLoadVariants : Prop :=
  ∀ (s : State) (vd : VReg) (xaddr xn : XReg),
    let a := (s.readX xaddr).toNat
    let n := (s.readX xn).toNat
    let T := s.sliceValue a n
    (s.params.nlmem.val < a + n →
      (Instr.ldsW vd xaddr xn).Traps s .lmemRange ∧ (Instr.ldsC vd xaddr xn).Traps s .lmemRange ∧
      (Instr.ldsO vd xaddr xn).Traps s .lmemRange ∧ (Instr.ldsS vd xaddr xn).Traps s .lmemRange) ∧
    (a + n ≤ s.params.nlmem.val →
      (Instr.ldsW vd xaddr xn).CompletesV s vd (T % 2 ^ s.B) ∧
      (T < 2 ^ s.B → (Instr.ldsC vd xaddr xn).CompletesV s vd T ∧
        (Instr.ldsO vd xaddr xn).CompletesO s vd T false ∧ (Instr.ldsS vd xaddr xn).CompletesV s vd T) ∧
      (2 ^ s.B ≤ T → (Instr.ldsC vd xaddr xn).Absents s .overflow ∧
        (Instr.ldsO vd xaddr xn).CompletesO s vd (T % 2 ^ s.B) true ∧
        (Instr.ldsS vd xaddr xn).CompletesV s vd (2 ^ s.B - 1)))

/-- O23. STL stores limb j of V[vs] at LMEM[X[xaddr]+j] for j < L and nothing else, or traps LmemRange.
40_limbs_load_store.md R119; 20_memory.md R52, R55. -/
def Obligations.StoreWritesExactlyItsLimbs : Prop :=
  ∀ (s : State) (vs : VReg) (xaddr : XReg),
    let a := (s.readX xaddr).toNat
    let n := (s.B + 63) / 64
    (s.params.nlmem.val < a + n → (Instr.stl vs xaddr).Traps s .lmemRange) ∧
    (a + n ≤ s.params.nlmem.val →
      (Instr.stl vs xaddr).CompletesStore s a n fun j => BitVec.ofNat 64 (s.readV vs / 2 ^ (64 * j)))

/-- O24. STL followed by LDL of the same L words returns the same value. 40_limbs_load_store.md R119, corner
cases. -/
def Obligations.StoreThenLoadReturnsTheValue : Prop :=
  ∀ (s t : State) (vs vd : VReg) (xaddr xn : XReg), s.Canonical →
    (s.readX xaddr).toNat + (s.B + 63) / 64 ≤ s.params.nlmem.val → (s.readX xn).toNat = (s.B + 63) / 64 →
    exec (.stl vs xaddr) s = .next t → (Instr.ldl vd xaddr xn).CompletesV t vd (s.readV vs)

/-- O25. ADD in five flavours: (a+b) mod 2^B, overflow exactly when a+b ≥ 2^B, saturation to 2^B - 1.
41_arith_flavours.md R130, R131, R140 to R144. -/
def Obligations.AddFiveFlavours : Prop :=
  ∀ (s : State) (vd va vb : VReg),
    FiveFlavours s (.addP vd va vb) (.addW vd va vb) (.addC vd va vb) (.addO vd va vb) (.addS vd va vb) vd
      ((s.readV va + s.readV vb) % 2 ^ s.B) (2 ^ s.B ≤ s.readV va + s.readV vb) (2 ^ s.B - 1) s.params.debug

/-- O26. SUB in five flavours: the difference mod 2^B, overflow exactly when a < b, saturation to 0.
41_arith_flavours.md R130, R132, R145 to R149. -/
def Obligations.SubFiveFlavours : Prop :=
  ∀ (s : State) (vd va vb : VReg), s.Canonical →
    FiveFlavours s (.subP vd va vb) (.subW vd va vb) (.subC vd va vb) (.subO vd va vb) (.subS vd va vb) vd
      (if s.readV vb ≤ s.readV va then s.readV va - s.readV vb else s.readV va + 2 ^ s.B - s.readV vb)
      (s.readV va < s.readV vb) 0 s.params.debug

/-- O27. MUL in five flavours: a·b mod 2^B, overflow exactly when a·b ≥ 2^B, saturation to 2^B - 1.
41_arith_flavours.md R130, R133, R150 to R154. -/
def Obligations.MulFiveFlavours : Prop :=
  ∀ (s : State) (vd va vb : VReg),
    FiveFlavours s (.mulP vd va vb) (.mulW vd va vb) (.mulC vd va vb) (.mulO vd va vb) (.mulS vd va vb) vd
      (s.readV va * s.readV vb % 2 ^ s.B) (2 ^ s.B ≤ s.readV va * s.readV vb) (2 ^ s.B - 1) s.params.debug

/-- O28. MULX in five flavours: V[va]·X[xb] with the full 64-bit scalar, not reduced first. 41_arith_flavours.md
R130, R134, R155 to R159. -/
def Obligations.MulxFiveFlavours : Prop :=
  ∀ (s : State) (vd va : VReg) (xb : XReg),
    FiveFlavours s (.mulxP vd va xb) (.mulxW vd va xb) (.mulxC vd va xb) (.mulxO vd va xb) (.mulxS vd va xb) vd
      (s.readV va * (s.readX xb).toNat % 2 ^ s.B) (2 ^ s.B ≤ s.readV va * (s.readX xb).toNat) (2 ^ s.B - 1)
      s.params.debug ∧
    (s.readV va < 2 ^ s.B → mulxLimbs s.B (s.readV va) (s.readX xb) =
      (s.readV va * (s.readX xb).toNat % 2 ^ s.B, decide (2 ^ s.B ≤ s.readV va * (s.readX xb).toNat)))

/-- O29. NEG in five flavours: (2^B - a) mod 2^B, overflow exactly when a ≠ 0, saturation to 0.
41_arith_flavours.md R130, R135, R160 to R164. -/
def Obligations.NegFiveFlavours : Prop :=
  ∀ (s : State) (vd va : VReg), s.Canonical →
    FiveFlavours s (.negP vd va) (.negW vd va) (.negC vd va) (.negO vd va) (.negS vd va) vd
      ((2 ^ s.B - s.readV va) % 2 ^ s.B) (s.readV va ≠ 0) 0 s.params.debug ∧
    (s.readV va + (2 ^ s.B - s.readV va) % 2 ^ s.B) % 2 ^ s.B = 0

/-- O30. POW in five flavours: a^x mod 2^B with a^0 = 1, overflow exactly when a^x ≥ 2^B (never at B = 0).
41_arith_flavours.md R130, R136, R165 to R169. -/
def Obligations.PowFiveFlavours : Prop :=
  ∀ (s : State) (vd va vb : VReg), s.Canonical →
    FiveFlavours s (.powP vd va vb) (.powW vd va vb) (.powC vd va vb) (.powO vd va vb) (.powS vd va vb) vd
      (s.readV va ^ s.readV vb % 2 ^ s.B) (s.B ≠ 0 ∧ 2 ^ s.B ≤ s.readV va ^ s.readV vb) (2 ^ s.B - 1)
      s.params.debug

/-- O31. SHL in five flavours: x·2^k mod 2^B, overflow exactly when x·2^k ≥ 2^B; the plain form never traps.
44_bitwise_shift.md R245, R248, R250 to R254. -/
def Obligations.ShlFiveFlavours : Prop :=
  ∀ (s : State) (vd va : VReg) (xk : XReg), s.Canonical →
    let x := s.readV va
    let k := (s.readX xk).toNat
    FiveFlavours s (.shlP vd va xk) (.shlW vd va xk) (.shlC vd va xk) (.shlO vd va xk) (.shlS vd va xk) vd
      (x * 2 ^ k % 2 ^ s.B) (2 ^ s.B ≤ x * 2 ^ k) (2 ^ s.B - 1) false ∧
    (s.B ≤ k → (Instr.shlW vd va xk).CompletesV s vd 0)

/-- O32. SHR in five flavours: x div 2^k, the flag being SHR_OVF_INEXACT and a lost set bit. 44_bitwise_shift.md
R246, R248, R255 to R259. -/
def Obligations.ShrFiveFlavours : Prop :=
  ∀ (s : State) (vd va : VReg) (xk : XReg), s.Canonical →
    let x := s.readV va
    let k := (s.readX xk).toNat
    FiveFlavours s (.shrP vd va xk) (.shrW vd va xk) (.shrC vd va xk) (.shrO vd va xk) (.shrS vd va xk) vd
      (x / 2 ^ k) (s.params.shrOvfInexact = true ∧ x % 2 ^ k ≠ 0) (x / 2 ^ k) false ∧
    (s.B ≤ k → (Instr.shrW vd va xk).CompletesV s vd 0)

/-- O33. DIV REM CDIV CREM DIVCEIL DIVREM by d ≠ 0: n = q·d + r with r < d, and the ceiling. 42_divide_log_root.md
R180, R184 to R189. -/
def Obligations.DivisionQuotientAndRemainder : Prop :=
  ∀ (s : State) (vd va vb vr : VReg), s.readV vb ≠ 0 →
    ∃ q r c, s.readV va = q * s.readV vb + r ∧ r < s.readV vb ∧
      s.readV va ≤ c * s.readV vb ∧ c * s.readV vb < s.readV va + s.readV vb ∧
      (Instr.div vd va vb).CompletesV s vd q ∧ (Instr.cdiv vd va vb).CompletesV s vd q ∧
      (Instr.rem vd va vb).CompletesV s vd r ∧ (Instr.crem vd va vb).CompletesV s vd r ∧
      (Instr.divceil vd va vb).CompletesV s vd c ∧
      (vd ≠ vr → (Instr.divrem vd va vb vr).CompletesVV s vd q vr r)

/-- O34. Division by zero traps DivisionByZero in the plain family and is absent in CDIV and CREM.
42_divide_log_root.md R184 to R189; 43_modular.md R210; 45_bitscan_compare.md R292. -/
def Obligations.DivisionByZeroFails : Prop :=
  ∀ (s : State) (vd va vb vr vz : VReg), s.readV vz = 0 →
    (Instr.div vd va vz).Traps s .divisionByZero ∧ (Instr.rem vd va vz).Traps s .divisionByZero ∧
    (Instr.divceil vd va vz).Traps s .divisionByZero ∧
    (vd ≠ vr → (Instr.divrem vd va vz vr).Traps s .divisionByZero) ∧
    (Instr.redmod vd va vz).Traps s .divisionByZero ∧ (Instr.addmod vd va vb vz).Traps s .divisionByZero ∧
    (Instr.mulmod vd va vb vz).Traps s .divisionByZero ∧ (Instr.powmod vd va vb vz).Traps s .divisionByZero ∧
    (Instr.nextmult vd va vz).Traps s .divisionByZero ∧
    (Instr.cdiv vd va vz).Absents s .divisionByZero ∧ (Instr.crem vd va vz).Absents s .divisionByZero

/-- O35. LOG and CLOG give the largest k with b^k ≤ n; both fail on b < 2 or n = 0. 42_divide_log_root.md R190,
R191, R192. -/
def Obligations.LogarithmIsTheLargestExponent : Prop :=
  ∀ (s : State) (xd : XReg) (va vb : VReg), s.Canonical →
    (2 ≤ s.readV vb → s.readV va ≠ 0 → ∃ k, k < s.B ∧ s.readV vb ^ k ≤ s.readV va ∧
      s.readV va < s.readV vb ^ (k + 1) ∧ (Instr.log xd va vb).CompletesX s xd (BitVec.ofNat 64 k) ∧
      (Instr.clog xd va vb).CompletesX s xd (BitVec.ofNat 64 k)) ∧
    (s.readV vb < 2 ∨ s.readV va = 0 →
      (Instr.log xd va vb).Traps s .domainError ∧ (Instr.clog xd va vb).Absents s .domainError)

/-- O36. LOG2 CLOG2 LOG10 CLOG10 give the largest exponents of 2 and 10; all fail on 0. 42_divide_log_root.md
R190, R193 to R196. -/
def Obligations.Log2AndLog10 : Prop :=
  ∀ (s : State) (xd : XReg) (va : VReg), s.Canonical →
    (s.readV va ≠ 0 → ∃ k m, k < 2 ^ 32 ∧ m < 2 ^ 32 ∧ 2 ^ k ≤ s.readV va ∧ s.readV va < 2 ^ (k + 1) ∧
      10 ^ m ≤ s.readV va ∧ s.readV va < 10 ^ (m + 1) ∧
      (Instr.log2 xd va).CompletesX s xd (BitVec.ofNat 64 k) ∧
      (Instr.clog2 xd va).CompletesX s xd (BitVec.ofNat 64 k) ∧
      (Instr.log10 xd va).CompletesX s xd (BitVec.ofNat 64 m) ∧
      (Instr.clog10 xd va).CompletesX s xd (BitVec.ofNat 64 m)) ∧
    (s.readV va = 0 →
      (Instr.log2 xd va).Traps s .domainError ∧ (Instr.clog2 xd va).Absents s .domainError ∧
      (Instr.log10 xd va).Traps s .domainError ∧ (Instr.clog10 xd va).Absents s .domainError)

/-- O37. ROOT gives the x with x^g ≤ n < (x+1)^g, g the full 64-bit degree; degree 0 traps DomainError.
42_divide_log_root.md R197, R198. -/
def Obligations.RootIsTheFloorRoot : Prop :=
  ∀ (s : State) (vd va : VReg) (xdeg : XReg),
    ((s.readX xdeg).toNat ≠ 0 → ∃ x, x ^ (s.readX xdeg).toNat ≤ s.readV va ∧
      s.readV va < (x + 1) ^ (s.readX xdeg).toNat ∧ (Instr.root vd va xdeg).CompletesV s vd x) ∧
    ((s.readX xdeg).toNat = 0 → (Instr.root vd va xdeg).Traps s .domainError)

/-- O38. REDMOD ADDMOD MULMOD POWMOD give the remainder of the exact natural expression, for m ≠ 0. 43_modular.md
R210 to R214. -/
def Obligations.ModularRemainders : Prop :=
  ∀ (s : State) (vd va vb vm : VReg), s.readV vm ≠ 0 →
    (Instr.redmod vd va vm).CompletesV s vd (s.readV va % s.readV vm) ∧
    (Instr.addmod vd va vb vm).CompletesV s vd ((s.readV va + s.readV vb) % s.readV vm) ∧
    (Instr.mulmod vd va vb vm).CompletesV s vd (s.readV va * s.readV vb % s.readV vm) ∧
    (Instr.powmod vd va vb vm).CompletesV s vd (s.readV va ^ s.readV vb % s.readV vm)

/-- O39. INVMOD gives the x < m with a·x ≡ 1 (mod m) exactly for units; else it is absent(NotInvertible).
43_modular.md R215, R216. -/
def Obligations.ModularInverse : Prop :=
  ∀ (s : State) (vd va vm : VReg),
    (2 ≤ s.readV vm → Nat.gcd (s.readV va) (s.readV vm) = 1 → ∃ x, x < s.readV vm ∧
      s.readV va * x % s.readV vm = 1 ∧ (Instr.invmod vd va vm).CompletesV s vd x) ∧
    (s.readV vm = 1 → (Instr.invmod vd va vm).CompletesV s vd 0) ∧
    (s.readV vm = 0 ∨ (2 ≤ s.readV vm ∧ Nat.gcd (s.readV va) (s.readV vm) ≠ 1) →
      (Instr.invmod vd va vm).Absents s .notInvertible)

/-- O40. MULREDC and SQRREDC give the r < m with r·R ≡ a·b (mod m), R = 2^(64L). 43_modular.md R217 to R220. -/
def Obligations.MontgomeryMultiplicationLaw : Prop :=
  ∀ (s : State) (vd va vb vm : VReg) (xinv : XReg), s.Canonical → s.readV vm % 2 = 1 →
    (s.readX xinv).toNat * (s.readV vm % 2 ^ 64) % 2 ^ 64 = 2 ^ 64 - 1 → s.readV va < s.readV vm →
    (s.readV vb < s.readV vm → ∃ r, r < s.readV vm ∧
      r * 2 ^ (64 * ((s.B + 63) / 64)) % s.readV vm = s.readV va * s.readV vb % s.readV vm ∧
      (Instr.mulredc vd va vb vm xinv).CompletesV s vd r) ∧
    (∃ r, r < s.readV vm ∧
      r * 2 ^ (64 * ((s.B + 63) / 64)) % s.readV vm = s.readV va * s.readV va % s.readV vm ∧
      (Instr.sqrredc vd va vm xinv).CompletesV s vd r)

/-- O41. MULREDC and SQRREDC trap DomainError on an even modulus, a wrong inv, or an operand ≥ m. 43_modular.md
R219, R220. -/
def Obligations.MontgomeryEntryChecks : Prop :=
  ∀ (s : State) (vd va vb vm : VReg) (xinv : XReg),
    (s.readV vm % 2 = 0 ∨ (s.readX xinv).toNat * (s.readV vm % 2 ^ 64) % 2 ^ 64 ≠ 2 ^ 64 - 1 ∨
      s.readV vm ≤ s.readV va ∨ s.readV vm ≤ s.readV vb →
      (Instr.mulredc vd va vb vm xinv).Traps s .domainError) ∧
    (s.readV vm % 2 = 0 ∨ (s.readX xinv).toNat * (s.readV vm % 2 ^ 64) % 2 ^ 64 ≠ 2 ^ 64 - 1 ∨
      s.readV vm ≤ s.readV va → (Instr.sqrredc vd va vm xinv).Traps s .domainError)

/-- O42. GCD gives the greatest common divisor in every state; LCM the least common multiple or absent(Overflow).
43_modular.md R221, R223, R229. -/
def Obligations.GcdAndLcm : Prop :=
  ∀ (s : State) (vd va vb : VReg),
    (∃ g, g ∣ s.readV va ∧ g ∣ s.readV vb ∧ (∀ d, d ∣ s.readV va → d ∣ s.readV vb → d ∣ g) ∧
      (Instr.gcd vd va vb).CompletesV s vd g) ∧
    (∃ e, s.readV va ∣ e ∧ s.readV vb ∣ e ∧ (∀ m, s.readV va ∣ m → s.readV vb ∣ m → e ∣ m) ∧
      (e < 2 ^ s.B → (Instr.lcm vd va vb).CompletesV s vd e) ∧
      (2 ^ s.B ≤ e → (Instr.lcm vd va vb).Absents s .overflow))

/-- O43. GCDEXT writes the gcd, wide cofactors and SGN in Bezout's relation, whatever triple is drawn.
43_modular.md R228; 93_implementation_defined.md U5. -/
def Obligations.GcdextBezoutRelation : Prop :=
  ∀ (s : State) (vg va vb vx vy : VReg), s.Canonical → vg ≠ vx → vg ≠ vy → vx ≠ vy →
    ∃ (x y : Nat) (sg : Bool) (t : State), exec (.gcdext vg va vb vx vy) s = .next t ∧
      x < 2 ^ s.B ∧ y < 2 ^ s.B ∧
      (sg = true ∧ s.readV va * x = s.readV vb * y + Nat.gcd (s.readV va) (s.readV vb) ∨
        sg = false ∧ s.readV vb * y = s.readV va * x + Nat.gcd (s.readV va) (s.readV vb)) ∧
      s.Leaves t
        (fun j => if j = vg then Nat.gcd (s.readV va) (s.readV vb) else if j = vx then x else if j = vy then y
          else s.readV j)
        s.readX s.readLmem { s.st.afterDone with sgn := sg } s.fcmd (s.draws + 1) ∧
      ((x, y, sg) = Config.freeCofactors s.draws ∨
        admissibleCofactors s.B (s.readV va) (s.readV vb) (Config.freeCofactors s.draws) = false)

/-- O44. NOT AND OR XOR act bit by bit on the B value bits, limb by limb with the top limb canonicalised.
44_bitwise_shift.md R240 to R244. -/
def Obligations.LimbParallelLogic : Prop :=
  ∀ (s : State) (vd va vb : VReg), s.Canonical →
    (∃ r, r < 2 ^ s.B ∧ r = 2 ^ s.B - 1 - s.readV va ∧ (∀ i, i < s.B → r.testBit i = !(s.readV va).testBit i) ∧
      (Instr.vnot vd va).CompletesV s vd r) ∧
    (∃ r, r < 2 ^ s.B ∧ (∀ i, r.testBit i = ((s.readV va).testBit i && (s.readV vb).testBit i)) ∧
      (Instr.vand vd va vb).CompletesV s vd r) ∧
    (∃ r, r < 2 ^ s.B ∧ (∀ i, r.testBit i = ((s.readV va).testBit i || (s.readV vb).testBit i)) ∧
      (Instr.vor vd va vb).CompletesV s vd r) ∧
    (∃ r, r < 2 ^ s.B ∧ (∀ i, r.testBit i = ((s.readV va).testBit i ^^ (s.readV vb).testBit i)) ∧
      (Instr.vxor vd va vb).CompletesV s vd r)

/-- O45. ROL moves bit i to bit (i+k) mod B and ROR moves it back; at B = 0 both are no-operations.
44_bitwise_shift.md R260 to R262. -/
def Obligations.RotatesMoveEveryBit : Prop :=
  ∀ (s : State) (vd va : VReg) (xk : XReg), s.Canonical →
    ∃ l r, l < 2 ^ s.B ∧ r < 2 ^ s.B ∧
      (∀ i, i < s.B → l.testBit ((i + (s.readX xk).toNat) % s.B) = (s.readV va).testBit i) ∧
      (∀ i, i < s.B → r.testBit i = (s.readV va).testBit ((i + (s.readX xk).toNat) % s.B)) ∧
      (Instr.rol vd va xk).CompletesV s vd l ∧ (Instr.ror vd va xk).CompletesV s vd r

/-- O46. REVB sends bit i to bit B-1-i, and reversing twice gives the value back. 44_bitwise_shift.md R263. -/
def Obligations.ReverseBitsReversesTheValue : Prop :=
  ∀ (s : State) (vd va : VReg), s.Canonical →
    ∃ r, r < 2 ^ s.B ∧ (∀ i, i < s.B → r.testBit i = (s.readV va).testBit (s.B - 1 - i)) ∧
      (Instr.revb vd va).CompletesV s vd r ∧
      ∀ t : State, t.params = s.params → t.readV va = r → (Instr.revb vd va).CompletesV t vd (s.readV va)

/-- O47. CLZ CLO CTZ CTO count consecutive zero or one bits from the top or the bottom of the B bits.
45_bitscan_compare.md R280 to R284. -/
def Obligations.LeadingAndTrailingScans : Prop :=
  ∀ (s : State) (xd : XReg) (va : VReg), s.Canonical → ∀ b : Bool,
    ∃ h t, h ≤ s.B ∧ t ≤ s.B ∧
      (∀ i, i < s.B → s.B - h ≤ i → (s.readV va).testBit i = b) ∧
      (h < s.B → (s.readV va).testBit (s.B - 1 - h) = !b) ∧
      (∀ i, i < t → (s.readV va).testBit i = b) ∧ (t < s.B → (s.readV va).testBit t = !b) ∧
      (if b then Instr.clo xd va else Instr.clz xd va).CompletesX s xd (BitVec.ofNat 64 h) ∧
      (if b then Instr.cto xd va else Instr.ctz xd va).CompletesX s xd (BitVec.ofNat 64 t)

/-- O48. POPC CNTZ BITLEN BYTELEN ISZERO ISPOW2 give the counts, lengths and tests of R280. 45_bitscan_compare.md
R280, R285 to R290. -/
def Obligations.CountsLengthsAndTests : Prop :=
  ∀ (s : State) (xd : XReg) (va : VReg), s.Canonical →
    let c := ((Finset.range s.B).filter fun i => (s.readV va).testBit i = true).card
    (Instr.popc xd va).CompletesX s xd (BitVec.ofNat 64 c) ∧
    (Instr.cntz xd va).CompletesX s xd (BitVec.ofNat 64 (s.B - c)) ∧
    (∃ n, n ≤ s.B ∧ s.readV va < 2 ^ n ∧ (s.readV va ≠ 0 → 2 ^ (n - 1) ≤ s.readV va) ∧
      (s.readV va = 0 → n = 0) ∧ (Instr.bitlen xd va).CompletesX s xd (BitVec.ofNat 64 n) ∧
      (Instr.bytelen xd va).CompletesX s xd (BitVec.ofNat 64 ((n + 7) / 8))) ∧
    (s.readV va = 0 → (Instr.iszero xd va).CompletesX s xd 1) ∧
    (s.readV va ≠ 0 → (Instr.iszero xd va).CompletesX s xd 0) ∧
    ((∃ j, s.readV va = 2 ^ j) → (Instr.ispow2 xd va).CompletesX s xd 1) ∧
    ((¬ ∃ j, s.readV va = 2 ^ j) → (Instr.ispow2 xd va).CompletesX s xd 0)

/-- O49. NEXTPOW2 and NEXTMULT give the smallest power of two, the smallest multiple of m, that is ≥ x.
45_bitscan_compare.md R291, R292. -/
def Obligations.NextPowerAndNextMultiple : Prop :=
  ∀ (s : State) (vd va vb : VReg), s.Canonical →
    (s.B = 0 → (Instr.nextpow2 vd va).CompletesV s vd 0) ∧
    (s.B ≠ 0 → ∃ j, s.readV va ≤ 2 ^ j ∧ (∀ i, s.readV va ≤ 2 ^ i → j ≤ i) ∧
      (2 ^ j < 2 ^ s.B → (Instr.nextpow2 vd va).CompletesV s vd (2 ^ j)) ∧
      (2 ^ s.B ≤ 2 ^ j → (Instr.nextpow2 vd va).Absents s .overflow)) ∧
    (s.readV vb ≠ 0 → ∃ e, s.readV vb ∣ e ∧ s.readV va ≤ e ∧ e < s.readV va + s.readV vb ∧
      (e < 2 ^ s.B → (Instr.nextmult vd va vb).CompletesV s vd e) ∧
      (2 ^ s.B ≤ e → (Instr.nextmult vd va vb).Absents s .overflow))

/-- O50. BIT reads bit i (0 for i ≥ B); SETBIT and CLRBIT change bit i alone and trap DomainError for i ≥ B.
45_bitscan_compare.md R293 to R295. -/
def Obligations.BitReadSetAndClear : Prop :=
  ∀ (s : State) (xd : XReg) (vd va : VReg) (xi : XReg), s.Canonical →
    let i := (s.readX xi).toNat
    (i < s.B → (Instr.bit xd va xi).CompletesX s xd (if (s.readV va).testBit i then 1 else 0) ∧
      ∃ u c, u < 2 ^ s.B ∧ c < 2 ^ s.B ∧
        (∀ j, u.testBit j = (decide (j = i) || (s.readV va).testBit j)) ∧
        (∀ j, c.testBit j = (!decide (j = i) && (s.readV va).testBit j)) ∧
        (Instr.setbit vd va xi).CompletesV s vd u ∧ (Instr.clrbit vd va xi).CompletesV s vd c) ∧
    (s.B ≤ i → (Instr.bit xd va xi).CompletesX s xd 0 ∧ (Instr.setbit vd va xi).Traps s .domainError ∧
      (Instr.clrbit vd va xi).Traps s .domainError)

/-- O51. BYTE and CBYTE read little-endian byte i; out of range BYTE gives 0 and CBYTE is absent(DomainError).
45_bitscan_compare.md R296, R297; 20_memory.md R51. -/
def Obligations.ByteAccess : Prop :=
  ∀ (s : State) (xd : XReg) (va : VReg) (xi : XReg),
    let i := (s.readX xi).toNat
    (i < (s.B + 7) / 8 → ∃ b : BitVec 8, (∀ j, j < 8 → b.getLsbD j = (s.readV va).testBit (8 * i + j)) ∧
      (Instr.byte xd va xi).CompletesX s xd (b.setWidth 64) ∧
      (Instr.cbyte xd va xi).CompletesX s xd (b.setWidth 64)) ∧
    ((s.B + 7) / 8 ≤ i → (Instr.byte xd va xi).CompletesX s xd 0 ∧
      (Instr.cbyte xd va xi).Absents s .domainError)

/-- O52. MSBITS gives bits B-1:B-k right-aligned for k ≤ min(64, B) and traps DomainError otherwise.
45_bitscan_compare.md R298; 91_not_in_source.md N22. -/
def Obligations.MostSignificantBits : Prop :=
  ∀ (s : State) (xd : XReg) (va : VReg) (xk : XReg), s.Canonical →
    let k := (s.readX xk).toNat
    (k ≤ 64 → k ≤ s.B → ∃ w : Word,
      (∀ j, w.getLsbD j = (decide (j < k) && (s.readV va).testBit (s.B - k + j))) ∧
      (Instr.msbits xd va xk).CompletesX s xd w) ∧
    (64 < k ∨ s.B < k → (Instr.msbits xd va xk).Traps s .domainError)

/-- O53. EQ and LT write 1 or 0 by equality and by the order of the naturals. 45_bitscan_compare.md R299 to R301. -/
def Obligations.EqualityAndOrder : Prop :=
  ∀ (s : State) (xd : XReg) (va vb : VReg),
    (s.readV va = s.readV vb → (Instr.veq xd va vb).CompletesX s xd 1) ∧
    (s.readV va ≠ s.readV vb → (Instr.veq xd va vb).CompletesX s xd 0) ∧
    (s.readV va < s.readV vb → (Instr.vlt xd va vb).CompletesX s xd 1) ∧
    (¬ s.readV va < s.readV vb → (Instr.vlt xd va vb).CompletesX s xd 0)

/-- O54. The ripple-carry and ripple-borrow limb forms compute add and sub, result and flag. 41_arith_flavours.md
R131, R132 (the two forms agree). -/
def Obligations.AdderLimbFormsAgree : Prop :=
  ∀ B a b : Nat, a < 2 ^ B → b < 2 ^ B →
    addLimbs B a b = ((a + b) % 2 ^ B, decide (2 ^ B ≤ a + b)) ∧
    subLimbs B a b = (if b ≤ a then a - b else a + 2 ^ B - b, decide (a < b))

/-- O55. mul: result, flag and saturation value, and the schoolbook limb product gives the same result and flag.
41_arith_flavours.md R133; mul_nxm, canon_limbs, MAX and MASK are the model's mulNxM, canonLimbs, maxValue and
topMask. The single-limb product of R134 is in MulxFiveFlavours. -/
def Obligations.MultiplierLimbFormsAgree : Prop :=
  ∀ B a b : Nat, a < 2 ^ B → b < 2 ^ B →
    let L := limbCount B
    let p := mulNxM (limbsOf L a) (limbsOf L b)
    (mulVal B a b).r = a * b % 2 ^ B ∧ ((mulVal B a b).ovf = true ↔ 2 ^ B ≤ a * b) ∧
    (mulVal B a b).sat = maxValue B ∧
    (B = 0 → (mulVal B a b).r = 0 ∧ (mulVal B a b).ovf = false) ∧
    p.length = 2 * L ∧ (mulVal B a b).r = val (canonLimbs B (p.take L)) ∧
    ((mulVal B a b).ovf = true ↔
      (∃ j, L ≤ j ∧ j < 2 * L ∧ p.getD j 0 ≠ 0) ∨ (1 ≤ L ∧ p.getD (L - 1) 0 &&& ~~~topMask B ≠ 0)) ∧
    mulLimbs B a b = ((mulVal B a b).r, (mulVal B a b).ovf)

/-- O56. Single-limb long division computes quotient and remainder. 42_divide_log_root.md R182. -/
def Obligations.SingleLimbDivisionIsDivision : Prop :=
  ∀ B n d : Nat, n < 2 ^ B → 0 < d → d < 2 ^ 64 →
    val (divSingle d (limbsOf (limbCount B) n)).1 = n / d ∧ (divSingle d (limbsOf (limbCount B) n)).2 = n % d

/-- O57. Knuth Algorithm D, with its two-step correction and add-back, computes quotient and remainder.
42_divide_log_root.md R183. -/
def Obligations.KnuthDivisionIsDivision : Prop :=
  ∀ n d : Nat, 2 ^ 64 ≤ d → knuthD n d = (n / d, n % d)

/-- O58. The binary gcd procedure computes the greatest common divisor. 43_modular.md R222. -/
def Obligations.BinaryGcdIsTheGcd : Prop :=
  ∀ a b : Nat, binaryGcd a b = Nat.gcd a b

/-- O59. The limb-offset and in-limb shifter computes shl and shr for k < B. 44_bitwise_shift.md R247. -/
def Obligations.ShifterLimbFormAgrees : Prop :=
  ∀ B x k : Nat, x < 2 ^ B → k < B →
    shlLimbs B x k = x * 2 ^ k % 2 ^ B ∧ shrLimbs B x k = x / 2 ^ k

/-- O60. ZERO = 0, ONE = 1 mod 2^B, MAX = 2^B - 1, and the limbs of MAX are all ones below a top limb MASK.
40_limbs_load_store.md R107; MASK is topMask, which 00_scope.md R7 defines. -/
def Obligations.ConstantsAndTheirLimbs : Prop :=
  ∀ B : Nat,
    zeroValue = 0 ∧ oneValue B = 1 % 2 ^ B ∧ (B = 0 → oneValue B = zeroValue) ∧
    maxValue B = 2 ^ B - 1 ∧ maxValue B = (1 <<< B) - 1 ∧ (B = 0 → maxValue B = zeroValue) ∧
    (∀ j, j + 1 < limbCount B → (limb (maxValue B) j).toNat = 2 ^ 64 - 1) ∧
    (1 ≤ limbCount B → limb (maxValue B) (limbCount B - 1) = topMask B)
end

