-- ==== Sys2Proof/Laws/Limbs.lean ====
section
/-! SUPPORT. The laws of the limb primitives (40_limbs_load_store.md R100 to R106) and of limb sequences
(00_scope.md R9). -/

namespace Sys2Proof.Machine

@[simp] theorem val_nil : val [] = 0 := rfl

@[simp] theorem val_cons (w : Word) (ws : List Word) : val (w :: ws) = w.toNat + 2 ^ 64 * val ws := rfl

@[simp] theorem length_limbsOf (n v : Nat) : (limbsOf n v).length = n := by
  induction n generalizing v with
  | zero => rfl
  | succ n ih => simp [limbsOf, ih]

/-- The limbs of a value sum back to it (R9). -/
theorem val_limbsOf (n v : Nat) : val (limbsOf n v) = v % 2 ^ (64 * n) := by
  induction n generalizing v with
  | zero => simp [limbsOf, Nat.mod_one]
  | succ n ih =>
    rw [limbsOf, val_cons, ih, BitVec.toNat_ofNat, show 64 * (n + 1) = 64 + 64 * n by omega, Nat.pow_add,
      Nat.mod_mul]

theorem val_limbsOf_of_lt {n v : Nat} (h : v < 2 ^ (64 * n)) : val (limbsOf n v) = v := by
  rw [val_limbsOf, Nat.mod_eq_of_lt h]

/-- Limb `j` of a value (R9). -/
theorem limbsOf_getElem? (n v j : Nat) (h : j < n) : (limbsOf n v)[j]? = some (limb v j) := by
  induction n generalizing v j with
  | zero => omega
  | succ n ih =>
    cases j with
    | zero => simp [limbsOf, limb]
    | succ j =>
      rw [limbsOf, List.getElem?_cons_succ, ih _ _ (by omega), limb, limb, Nat.div_div_eq_div_mul,
        ← Nat.pow_add, show 64 + 64 * j = 64 * (j + 1) by omega]

theorem val_lt (s : List Word) : val s < 2 ^ (64 * s.length) := by
  induction s with
  | nil => simp
  | cons w ws ih =>
    rw [val_cons, List.length_cons, show 64 * (ws.length + 1) = 64 + 64 * ws.length by omega, Nat.pow_add]
    have := w.isLt
    generalize 2 ^ (64 * ws.length) = M at *
    omega

/-- The limbs of the value of a sequence are the sequence. -/
theorem limbsOf_val (s : List Word) : limbsOf s.length (val s) = s := by
  induction s with
  | nil => rfl
  | cons w ws ih =>
    have hw := w.isLt
    rw [List.length_cons, limbsOf, val_cons]
    congr 1
    · apply BitVec.eq_of_toNat_eq; rw [BitVec.toNat_ofNat]; omega
    · rw [show (w.toNat + 2 ^ 64 * val ws) / 2 ^ 64 = val ws by omega, ih]

theorem le_limbCount (B : Nat) : B ≤ 64 * limbCount B := by unfold limbCount; omega

theorem limbCount_lt (B : Nat) : 64 * limbCount B < B + 64 := by unfold limbCount; omega

theorem limbCount_eq_zero {B : Nat} : limbCount B = 0 ↔ B = 0 := by unfold limbCount; omega

theorem lt_limbs {B v : Nat} (h : v < 2 ^ B) : v < 2 ^ (64 * limbCount B) :=
  Nat.lt_of_lt_of_le h (Nat.pow_le_pow_right (by omega) (le_limbCount B))

/-- R100: the sum word and the carry out. -/
theorem adc_spec (a b : Word) (c : Bool) :
    (adc a b c).1.toNat + 2 ^ 64 * (adc a b c).2.toNat = a.toNat + b.toNat + c.toNat := by
  have ha := a.isLt; have hb := b.isLt; have hc := c.toNat_lt
  simp only [adc, BitVec.toNat_ofNat]
  by_cases h : 2 ^ 64 ≤ a.toNat + b.toNat + c.toNat <;> simp only [h, decide_true, decide_false, Bool.toNat_true,
    Bool.toNat_false] <;> omega

/-- R101: the difference word and the borrow out. -/
theorem sbb_spec (a b : Word) (c : Bool) :
    (sbb a b c).1.toNat + b.toNat + c.toNat = a.toNat + 2 ^ 64 * (sbb a b c).2.toNat := by
  have ha := a.isLt; have hb := b.isLt; have hc := c.toNat_lt
  unfold sbb
  split <;> simp only [BitVec.toNat_ofNat, Bool.toNat_true, Bool.toNat_false] <;> omega

/-- R104: no overflow, and the low and carry words. -/
theorem mac_spec (a b acc c : Word) :
    (mac a b acc c).1.toNat + 2 ^ 64 * (mac a b acc c).2.toNat = a.toNat * b.toNat + acc.toNat + c.toNat := by
  have ha := a.isLt; have hb := b.isLt; have h1 := acc.isLt; have h2 := c.isLt
  have h : a.toNat * b.toNat ≤ (2 ^ 64 - 1) * (2 ^ 64 - 1) := Nat.mul_le_mul (by omega) (by omega)
  simp only [mac, BitVec.toNat_ofNat]
  omega

theorem length_addN (as : List Word) : ∀ (bs : List Word) (c : Bool), as.length = bs.length →
    (addN as bs c).1.length = as.length := by
  induction as with
  | nil => intro bs c h; cases bs <;> simp_all [addN]
  | cons a as ih =>
    intro bs c h
    cases bs with
    | nil => simp at h
    | cons b bs => simp only [addN, List.length_cons]; rw [ih]; simpa using h

/-- R102: `val(s) + c·2^(64n) = val(a) + val(b) + c0`. -/
theorem addN_spec (as : List Word) : ∀ (bs : List Word) (c : Bool), as.length = bs.length →
    val (addN as bs c).1 + 2 ^ (64 * as.length) * (addN as bs c).2.toNat = val as + val bs + c.toNat := by
  induction as with
  | nil => intro bs c h; cases bs <;> simp_all [addN]
  | cons a as ih =>
    intro bs c h
    cases bs with
    | nil => simp at h
    | cons b bs =>
      have h1 := adc_spec a b c
      have h2 := ih bs (adc a b c).2 (by simpa using h)
      simp only [addN, val_cons, List.length_cons]
      rw [show 64 * (as.length + 1) = 64 + 64 * as.length by omega, Nat.pow_add, Nat.mul_assoc]
      generalize 2 ^ (64 * as.length) * _ = M at h2 ⊢
      omega

theorem length_subN (as : List Word) : ∀ (bs : List Word) (c : Bool), as.length = bs.length →
    (subN as bs c).1.length = as.length := by
  induction as with
  | nil => intro bs c h; cases bs <;> simp_all [subN]
  | cons a as ih =>
    intro bs c h
    cases bs with
    | nil => simp at h
    | cons b bs => simp only [subN, List.length_cons]; rw [ih]; simpa using h

/-- R103: `val(s) − c·2^(64n) = val(a) − val(b) − c0`. -/
theorem subN_spec (as : List Word) : ∀ (bs : List Word) (c : Bool), as.length = bs.length →
    val (subN as bs c).1 + val bs + c.toNat = val as + 2 ^ (64 * as.length) * (subN as bs c).2.toNat := by
  induction as with
  | nil => intro bs c h; cases bs <;> simp_all [subN]
  | cons a as ih =>
    intro bs c h
    cases bs with
    | nil => simp at h
    | cons b bs =>
      have h1 := sbb_spec a b c
      have h2 := ih bs (sbb a b c).2 (by simpa using h)
      simp only [subN, val_cons, List.length_cons]
      rw [show 64 * (as.length + 1) = 64 + 64 * as.length by omega, Nat.pow_add, Nat.mul_assoc]
      generalize 2 ^ (64 * as.length) * _ = M at h2 ⊢
      omega

theorem length_mulRow (a : Word) (bs : List Word) : ∀ (rs : List Word) (c : Word),
    (mulRow a bs rs c).length = rs.length := by
  induction bs with
  | nil => intro rs c; cases rs <;> simp [mulRow]
  | cons b bs ih =>
    intro rs c
    cases rs with
    | nil => simp [mulRow]
    | cons r rs => simp [mulRow, ih]

/-- One row of the product: where the limb after the accumulated ones is zero, `a·val(b)` and the carry are
added (R105). -/
theorem mulRow_spec (a : Word) (bs : List Word) : ∀ (rs : List Word) (c : Word), bs.length < rs.length →
    rs[bs.length]? = some 0 →
    val (mulRow a bs rs c) = val rs + a.toNat * val bs + c.toNat := by
  induction bs with
  | nil =>
    intro rs c h h0
    cases rs with
    | nil => simp at h
    | cons r rs => simp at h0; subst h0; simp [mulRow]; omega
  | cons b bs ih =>
    intro rs c h h0
    cases rs with
    | nil => simp at h
    | cons r rs =>
      have h1 := mac_spec a b r c
      have h2 := ih rs (mac a b r c).2 (by simpa using h) (by simpa using h0)
      simp only [mulRow, val_cons, h2, Nat.mul_add]
      rw [show a.toNat * (2 ^ 64 * val bs) = 2 ^ 64 * (a.toNat * val bs) by ring]
      generalize a.toNat * val bs = M at *
      generalize a.toNat * b.toNat = N at *
      omega

theorem mulRow_getElem? (a : Word) (bs : List Word) : ∀ (rs : List Word) (c : Word) (j : Nat), bs.length < j →
    (mulRow a bs rs c)[j]? = rs[j]? := by
  induction bs with
  | nil =>
    intro rs c j h
    cases rs with
    | nil => simp [mulRow]
    | cons r rs => cases j with
      | zero => simp at h
      | succ j => simp [mulRow]
  | cons b bs ih =>
    intro rs c j h
    cases rs with
    | nil => simp [mulRow]
    | cons r rs =>
      cases j with
      | zero => simp at h
      | succ j => simp only [mulRow, List.getElem?_cons_succ]; exact ih _ _ _ (by simpa using h)

theorem mulLoop_spec (as : List Word) : ∀ (bs rs : List Word), rs.length = as.length + bs.length →
    (∀ j, bs.length ≤ j → j < rs.length → rs[j]? = some 0) →
    val (mulLoop as bs rs) = val rs + val as * val bs ∧ (mulLoop as bs rs).length = rs.length := by
  induction as with
  | nil => intro bs rs h h0; simp [mulLoop]
  | cons a as ih =>
    intro bs rs h h0
    have hlen : bs.length < rs.length := by simp only [List.length_cons] at h; omega
    have h1 := mulRow_spec a bs rs 0 hlen (h0 _ (Nat.le_refl _) hlen)
    have h2 := length_mulRow a bs rs 0
    have h3 := mulRow_getElem? a bs rs 0
    simp only [mulLoop]
    cases hr : mulRow a bs rs 0 with
    | nil => rw [hr] at h2; simp at h2; omega
    | cons r rs' =>
      rw [hr] at h1 h2 h3
      simp only [List.length_cons] at h h2
      obtain ⟨h4, h5⟩ := ih bs rs' (by omega) (fun j hj hj2 => by
        have := h3 (j + 1) (by omega)
        simp only [List.getElem?_cons_succ] at this
        rw [this]; exact h0 _ (by omega) (by omega))
      constructor
      · simp only [val_cons] at h1 ⊢
        rw [h4, Nat.add_mul, Nat.mul_assoc]
        rw [show (0 : Word).toNat = 0 from rfl] at h1
        generalize val as * val bs = M at *
        generalize a.toNat * val bs = N at *
        omega
      · simp only [List.length_cons]; omega

theorem val_replicate_zero (n : Nat) : val (List.replicate n 0) = 0 := by
  induction n with
  | zero => rfl
  | succ n ih => rw [List.replicate_succ, val_cons, ih]; rfl

/-- R105: `val(r) = val(a)·val(b)`, exactly, in `n + m` limbs. -/
theorem mulNxM_spec (as bs : List Word) :
    val (mulNxM as bs) = val as * val bs ∧ (mulNxM as bs).length = as.length + bs.length := by
  obtain ⟨h1, h2⟩ := mulLoop_spec as bs (List.replicate (as.length + bs.length) 0) (by simp) (by
    intro j _ hj; rw [List.getElem?_replicate]; simp at hj; simp [hj])
  rw [val_replicate_zero, Nat.zero_add] at h1
  exact ⟨h1, by rw [mulNxM, h2, List.length_replicate]⟩

theorem toNat_topMask {B : Nat} (h : B % 64 ≠ 0) : (topMask B).toNat = 2 ^ (B % 64) - 1 := by
  rw [topMask, if_neg h, BitVec.toNat_ofNat]
  have : 2 ^ (B % 64) ≤ 2 ^ 63 := Nat.pow_le_pow_right (by omega) (by omega)
  omega

/-- The top limb masked (R106): the remainder modulo `2^(B − 64(L−1))`. -/
theorem toNat_and_topMask (w : Word) {B : Nat} (hB : B ≠ 0) :
    (w &&& topMask B).toNat = w.toNat % 2 ^ (B - 64 * (limbCount B - 1)) := by
  by_cases h : B % 64 = 0
  · have e : B - 64 * (limbCount B - 1) = 64 := by unfold limbCount; omega
    rw [e, Nat.mod_eq_of_lt w.isLt, topMask, if_pos h, BitVec.and_allOnes]
  · have e : B - 64 * (limbCount B - 1) = B % 64 := by unfold limbCount; omega
    rw [e, BitVec.toNat_and, toNat_topMask h, Nat.and_two_pow_sub_one_eq_mod]

theorem canonLimbs_spec_aux (B : Nat) : ∀ (s : List Word), s ≠ [] →
    val (canonLimbs B s) + 2 ^ (64 * (s.length - 1)) * ((s.getLastD 0).toNat - (s.getLastD 0 &&& topMask B).toNat) =
      val s ∧ (s.getLastD 0 &&& topMask B).toNat ≤ (s.getLastD 0).toNat
  | [], h => absurd rfl h
  | [w], _ => by
    have hle : (w &&& topMask B).toNat ≤ w.toNat := by rw [BitVec.toNat_and]; exact Nat.and_le_left
    simp only [canonLimbs, val_cons, val_nil, List.getLastD_cons, List.getLastD_nil, List.length_singleton]
    refine ⟨?_, hle⟩
    omega
  | w :: w' :: ws, _ => by
    obtain ⟨h1, h2⟩ := canonLimbs_spec_aux B (w' :: ws) (by simp)
    have hl : (w :: w' :: ws).getLastD 0 = (w' :: ws).getLastD 0 := by simp
    rw [hl]
    refine ⟨?_, h2⟩
    rw [canonLimbs, val_cons, val_cons, ← h1, List.length_cons,
      show 64 * ((w' :: ws).length + 1 - 1) = 64 + 64 * ((w' :: ws).length - 1) by
        simp only [List.length_cons]; omega, Nat.pow_add, Nat.mul_assoc, Nat.mul_add]
    omega

theorem val_split_last : ∀ (s : List Word), s ≠ [] →
    ∃ lo, lo < 2 ^ (64 * (s.length - 1)) ∧ val s = lo + 2 ^ (64 * (s.length - 1)) * (s.getLastD 0).toNat
  | [], h => absurd rfl h
  | [w], _ => ⟨0, by simp, by simp⟩
  | w :: w' :: ws, _ => by
    obtain ⟨lo, h1, h2⟩ := val_split_last (w' :: ws) (by simp)
    have hl : (w :: w' :: ws).getLastD 0 = (w' :: ws).getLastD 0 := by simp
    refine ⟨w.toNat + 2 ^ 64 * lo, ?_, ?_⟩
    · rw [show 64 * ((w :: w' :: ws).length - 1) = 64 + 64 * ((w' :: ws).length - 1) by
        simp only [List.length_cons]; omega, Nat.pow_add]
      have := w.isLt
      generalize 2 ^ (64 * ((w' :: ws).length - 1)) = M at *
      omega
    · rw [val_cons, h2, hl, show 64 * ((w :: w' :: ws).length - 1) = 64 + 64 * ((w' :: ws).length - 1) by
        simp only [List.length_cons]; omega, Nat.pow_add, Nat.mul_add, Nat.mul_assoc]
      omega

/-- R106: `canon_limbs` reduces the value modulo `2^B`. -/
theorem val_canonLimbs {B : Nat} {s : List Word} (h : s.length = limbCount B) :
    val (canonLimbs B s) = val s % 2 ^ B := by
  by_cases hB : B = 0
  · subst hB
    have : s = [] := List.eq_nil_of_length_eq_zero (by rw [h]; rfl)
    subst this; simp [canonLimbs]
  · have hs : s ≠ [] := by rintro rfl; exact hB (limbCount_eq_zero.1 (by simpa using h.symm))
    obtain ⟨h1, h2⟩ := canonLimbs_spec_aux B s hs
    obtain ⟨lo, h3, h4⟩ := val_split_last s hs
    have hm := toNat_and_topMask (s.getLastD 0) hB
    rw [← h] at hm
    have hle : 64 * (s.length - 1) ≤ B := by rw [h]; unfold limbCount; omega
    have hpow : 2 ^ B = 2 ^ (64 * (s.length - 1)) * 2 ^ (B - 64 * (s.length - 1)) := by
      rw [← Nat.pow_add]; congr 1; omega
    rw [hpow, h4, Nat.mod_mul, Nat.add_mul_mod_self_left, Nat.mod_eq_of_lt h3,
      Nat.add_mul_div_left _ _ (Nat.two_pow_pos _), Nat.div_eq_of_lt h3, Nat.zero_add, ← hm]
    have h5 : 2 ^ (64 * (s.length - 1)) * ((s.getLastD 0).toNat - (s.getLastD 0 &&& topMask B).toNat) +
        2 ^ (64 * (s.length - 1)) * (s.getLastD 0 &&& topMask B).toNat =
        2 ^ (64 * (s.length - 1)) * (s.getLastD 0).toNat := by
      rw [← Nat.mul_add, Nat.sub_add_cancel h2]
    omega

/-- R106: the masked-off top bits are non-zero exactly when the value is `≥ 2^B`. -/
theorem maskedOff_eq {B : Nat} {s : List Word} (h : s.length = limbCount B) :
    maskedOff B s = decide (2 ^ B ≤ val s) := by
  by_cases hB : B = 0
  · subst hB
    have : s = [] := List.eq_nil_of_length_eq_zero (by rw [h]; rfl)
    subst this; simp [maskedOff]
  · have hs : s ≠ [] := by rintro rfl; exact hB (limbCount_eq_zero.1 (by simpa using h.symm))
    obtain ⟨lo, h3, h4⟩ := val_split_last s hs
    have hm := toNat_and_topMask (s.getLastD 0) hB
    rw [← h] at hm
    have hle : 64 * (s.length - 1) ≤ B := by rw [h]; unfold limbCount; omega
    have hpow : 2 ^ B = 2 ^ (64 * (s.length - 1)) * 2 ^ (B - 64 * (s.length - 1)) := by
      rw [← Nat.pow_add]; congr 1; omega
    have key : (s.getLastD 0 &&& ~~~topMask B = 0) ↔
        (s.getLastD 0).toNat < 2 ^ (B - 64 * (s.length - 1)) := by
      have e : s.getLastD 0 = (s.getLastD 0 &&& topMask B) ↔ s.getLastD 0 &&& ~~~topMask B = 0 := by
        constructor
        · intro e
          rw [e, BitVec.and_assoc]
          apply BitVec.eq_of_getLsbD_eq
          simp
        · intro e
          apply BitVec.eq_of_getLsbD_eq
          intro i hi
          have := congrArg (fun v => v.getLsbD i) e
          simp only [BitVec.getLsbD_and, BitVec.getLsbD_not] at this ⊢
          revert this
          cases (s.getLastD 0).getLsbD i <;> cases (topMask B).getLsbD i <;> simp [hi]
      rw [← e]
      constructor
      · intro e
        have := congrArg BitVec.toNat e
        rw [hm] at this
        rw [this]; exact Nat.mod_lt _ (Nat.two_pow_pos _)
      · intro hlt
        apply BitVec.eq_of_toNat_eq
        rw [hm, Nat.mod_eq_of_lt hlt]
    unfold maskedOff
    apply decide_eq_decide.2
    rw [Ne, key, Nat.not_lt, hpow, h4]
    generalize 2 ^ (64 * (s.length - 1)) = M at *
    constructor
    · intro hk; exact Nat.le_trans (Nat.mul_le_mul_left M hk) (Nat.le_add_left _ _)
    · intro hk
      by_contra hlt
      have : M * ((s.getLastD 0).toNat + 1) ≤ M * 2 ^ (B - 64 * (s.length - 1)) :=
        Nat.mul_le_mul_left M (by omega)
      rw [Nat.mul_add] at this
      omega

theorem val_append (a b : List Word) : val (a ++ b) = val a + 2 ^ (64 * a.length) * val b := by
  induction a with
  | nil => simp
  | cons w ws ih =>
    rw [List.cons_append, val_cons, ih, val_cons, List.length_cons,
      show 64 * (ws.length + 1) = 64 + 64 * ws.length by omega, Nat.pow_add, Nat.mul_assoc, Nat.mul_add]
    omega

theorem val_eq_zero_iff (s : List Word) : val s = 0 ↔ ∀ w ∈ s, w = 0 := by
  induction s with
  | nil => simp
  | cons w ws ih =>
    rw [val_cons, List.forall_mem_cons, ← ih]
    constructor
    · intro h; exact ⟨BitVec.eq_of_toNat_eq (by simp; omega), by omega⟩
    · rintro ⟨rfl, h⟩; simp [h]

end Sys2Proof.Machine
end

