-- ==== Sys2Proof/Laws/Values.lean ====
section
/-! SUPPORT. One lemma per value function: what it computes, in the rules' words (41_arith_flavours.md R131 to R136,
42_divide_log_root.md R188 to R197, 44_bitwise_shift.md R245 to R263, 45_bitscan_compare.md R280 to R292). -/

namespace Sys2Proof.Machine

theorem maxValue_add_one (B : Nat) : maxValue B + 1 = 2 ^ B := by
  have := Nat.two_pow_pos B
  unfold maxValue; omega

theorem maxValue_lt (B : Nat) : maxValue B < 2 ^ B := by have := maxValue_add_one B; omega

theorem oneValue_lt (B : Nat) : oneValue B < 2 ^ B := Nat.mod_lt _ (Nat.two_pow_pos B)

/-- R130 for an exact natural result. -/
theorem narrow_nat (B e : Nat) :
    (narrow B (e : Int)).r = e % 2 ^ B ∧ (narrow B (e : Int)).ovf = decide (2 ^ B ≤ e) ∧
      (narrow B (e : Int)).sat = maxValue B := by
  have h : ¬ ((e : Int) < 0) := by omega
  refine ⟨?_, ?_, ?_⟩
  · simp only [narrow]
    rw [show ((e : Int) % (2 ^ B : Nat)) = ((e % 2 ^ B : Nat) : Int) by push_cast; rfl, Int.toNat_natCast]
  · simp only [narrow]
    apply decide_eq_decide.2
    constructor
    · rintro (h' | h')
      · omega
      · exact_mod_cast h'
    · intro h'; right; exact_mod_cast h'
  · simp [narrow, h]

theorem narrow_lt (B : Nat) (e : Int) : (narrow B e).r < 2 ^ B ∧ (narrow B e).sat < 2 ^ B := by
  have h2 : (0 : Int) < (2 ^ B : Nat) := by exact_mod_cast Nat.two_pow_pos B
  constructor
  · simp only [narrow]
    have h0 := Int.emod_nonneg e h2.ne'
    have h1 := Int.emod_lt_of_pos e h2
    omega
  · simp only [narrow]
    split
    · exact Nat.two_pow_pos B
    · exact maxValue_lt B

/-- R131. -/
theorem addVal_spec (B a b : Nat) : (addVal B a b).r = (a + b) % 2 ^ B ∧
    (addVal B a b).ovf = decide (2 ^ B ≤ a + b) ∧ (addVal B a b).sat = maxValue B := by
  have := narrow_nat B (a + b); simpa [addVal] using this

/-- R133. -/
theorem mulVal_spec (B a b : Nat) : (mulVal B a b).r = a * b % 2 ^ B ∧
    (mulVal B a b).ovf = decide (2 ^ B ≤ a * b) ∧ (mulVal B a b).sat = maxValue B := by
  have := narrow_nat B (a * b); simpa [mulVal] using this

/-- R134. -/
theorem mulxVal_spec (B a : Nat) (s : Word) : (mulxVal B a s).r = a * s.toNat % 2 ^ B ∧
    (mulxVal B a s).ovf = decide (2 ^ B ≤ a * s.toNat) ∧ (mulxVal B a s).sat = maxValue B := by
  have := narrow_nat B (a * s.toNat); simpa [mulxVal] using this

/-- R132: the flag is the borrow, the clamp value is `ZERO` where it is used. -/
theorem subVal_spec {B a b : Nat} (ha : a < 2 ^ B) (hb : b < 2 ^ B) :
    (subVal B a b).r = (if b ≤ a then a - b else a + 2 ^ B - b) ∧
    (subVal B a b).ovf = decide (a < b) ∧ ((subVal B a b).ovf = true → (subVal B a b).sat = 0) := by
  generalize hM : 2 ^ B = M at *
  have hd : (subVal B a b).ovf = decide (a < b) := by
    simp only [subVal, narrow, hM]
    apply decide_eq_decide.2; omega
  refine ⟨?_, hd, ?_⟩
  · simp only [subVal, narrow, hM]
    split
    · rw [Int.emod_eq_of_lt (by omega) (by omega)]; omega
    · rw [← Int.add_emod_right, Int.emod_eq_of_lt (by omega) (by omega)]; omega
  · intro h
    rw [hd, decide_eq_true_eq] at h
    simp only [subVal, narrow]
    rw [if_pos (by omega)]

/-- The loop of R136 on unwrapped operands: the wrapped power and whether a step overflowed. -/
theorem powLoop_spec {B a x : Nat} (hB : 1 ≤ B) : ∀ (i p : Nat) (o : Bool),
    (o = true → 2 ^ B ≤ a ^ p) → (o = false → a ^ p < 2 ^ B) → p = x / 2 ^ i →
    (powLoop B a x i (a ^ p % 2 ^ B) o).1 = a ^ x % 2 ^ B ∧
    (powLoop B a x i (a ^ p % 2 ^ B) o).2 = decide (2 ^ B ≤ a ^ x) := by
  have hpos := Nat.two_pow_pos B
  have hB2 : 2 ≤ 2 ^ B := by
    calc 2 = 2 ^ 1 := rfl
    _ ≤ 2 ^ B := Nat.pow_le_pow_right (by omega) hB
  intro i
  induction i with
  | zero =>
    intro p o h1 h2 hp
    simp only [Nat.pow_zero, Nat.div_one] at hp
    subst hp
    refine ⟨rfl, ?_⟩
    cases o with
    | true => simpa [powLoop] using h1 rfl
    | false => simpa [powLoop] using h2 rfl
  | succ i ih =>
    intro p o h1 h2 hp
    have hq : x / 2 ^ i = 2 * p + (x.testBit i).toNat := by
      rw [hp, Nat.pow_succ, ← Nat.div_div_eq_div_mul, Nat.testBit_eq_decide_div_mod_eq]
      have := Nat.mod_two_eq_zero_or_one (x / 2 ^ i)
      rcases this with h | h <;> simp [h] <;> omega
    have hmono : ∀ q r : Nat, 2 ^ B ≤ a ^ q → q ≤ r → 2 ^ B ≤ a ^ r := by
      intro q r hq hqr
      have ha : 1 ≤ a := by
        rcases Nat.eq_zero_or_pos a with rfl | h
        · rcases Nat.eq_zero_or_pos q with rfl | hq0
          · simp at hq; omega
          · rw [Nat.zero_pow hq0] at hq; omega
        · exact h
      exact Nat.le_trans hq (Nat.pow_le_pow_right ha hqr)
    have hsq := mulVal_spec B (a ^ p % 2 ^ B) (a ^ p % 2 ^ B)
    have hsqr : (mulVal B (a ^ p % 2 ^ B) (a ^ p % 2 ^ B)).r = a ^ (2 * p) % 2 ^ B := by
      rw [hsq.1, ← Nat.mul_mod, ← Nat.pow_add, Nat.two_mul]
    have hso : (o || (mulVal B (a ^ p % 2 ^ B) (a ^ p % 2 ^ B)).ovf) = decide (2 ^ B ≤ a ^ (2 * p)) := by
      cases o with
      | true =>
        have := hmono p (2 * p) (h1 rfl) (by omega)
        simp [this]
      | false =>
        rw [Bool.false_or, hsq.2.1, Nat.mod_eq_of_lt (h2 rfl), ← Nat.pow_add, Nat.two_mul]
    simp only [powLoop]
    split
    · rename_i hb
      have hq' : x / 2 ^ i = 2 * p + 1 := by rw [hq, hb]; rfl
      have hm := mulVal_spec B (a ^ (2 * p) % 2 ^ B) a
      have hmr : (mulVal B (a ^ (2 * p) % 2 ^ B) a).r = a ^ (2 * p + 1) % 2 ^ B := by
        rw [hm.1, Nat.mod_mul_mod, Nat.pow_succ]
      have hmo : (o || (mulVal B (a ^ p % 2 ^ B) (a ^ p % 2 ^ B)).ovf ||
          (mulVal B (a ^ (2 * p) % 2 ^ B) a).ovf) = decide (2 ^ B ≤ a ^ (2 * p + 1)) := by
        rw [hso]
        by_cases h : 2 ^ B ≤ a ^ (2 * p)
        · simp [h, hmono _ (2 * p + 1) h (by omega)]
        · rw [hm.2.1, Nat.mod_eq_of_lt (by omega), ← Nat.pow_succ]
          simp [h]
      rw [hsqr, hmr, hmo]
      exact ih (2 * p + 1) _ (by simp) (by simp) hq'.symm
    · rename_i hb
      have hq' : x / 2 ^ i = 2 * p := by rw [hq]; simp [hb]
      rw [hsqr, hso]
      exact ih (2 * p) _ (by simp) (by simp) hq'.symm

/-- R136: the closed form of the power and its flag; at `B = 0` the unique value without overflow. -/
theorem powVal_spec {B a x : Nat} (hx : x < 2 ^ B) : (powVal B a x).r = a ^ x % 2 ^ B ∧
    (powVal B a x).ovf = decide (B ≠ 0 ∧ 2 ^ B ≤ a ^ x) ∧ (powVal B a x).sat = maxValue B := by
  rcases Nat.eq_zero_or_pos B with rfl | hB
  · refine ⟨?_, ?_, rfl⟩
    · simp [powVal, powLoop, oneValue, Nat.mod_one]
    · simp [powVal, powLoop]
  · have h2 : 1 < 2 ^ B := Nat.one_lt_two_pow (by omega)
    have h := powLoop_spec (B := B) (a := a) (x := x) hB B 0 false (by simp) (by simpa using h2)
      (by rw [Nat.div_eq_of_lt hx])
    rw [Nat.pow_zero] at h
    refine ⟨h.1, ?_, rfl⟩
    rw [powVal]
    exact h.2.trans (decide_eq_decide.2 (by simp [show B ≠ 0 by omega]))

/-- R245, with the exact value `x·2^k` at every `k`. -/
theorem shlVal_spec {B x k : Nat} : (shlVal B x k).r = x * 2 ^ k % 2 ^ B ∧
    (x < 2 ^ B → (shlVal B x k).ovf = decide (2 ^ B ≤ x * 2 ^ k)) ∧ (shlVal B x k).sat = maxValue B := by
  refine ⟨?_, ?_, rfl⟩
  · simp only [shlVal]
    split
    · rename_i h
      rw [show k = B + (k - B) by omega, Nat.pow_add]
      have : x * (2 ^ B * 2 ^ (k - B)) = 2 ^ B * (x * 2 ^ (k - B)) := by ring
      rw [this, Nat.mul_mod_right]
    · rfl
  · intro hx
    simp only [shlVal]
    split
    · rename_i h
      apply decide_eq_decide.2
      constructor
      · intro hne
        calc 2 ^ B ≤ 2 ^ k := Nat.pow_le_pow_right (by omega) h
        _ ≤ x * 2 ^ k := Nat.le_mul_of_pos_left _ (by omega)
      · rintro h' rfl
        have := Nat.two_pow_pos B
        omega
    · rename_i h
      apply decide_eq_decide.2
      have hp : 2 ^ B = 2 ^ (B - k) * 2 ^ k := by rw [← Nat.pow_add]; congr 1; omega
      rw [hp, Nat.mul_le_mul_right_iff (Nat.two_pow_pos k), Ne,
        Nat.div_eq_zero_iff_lt (Nat.two_pow_pos _), Nat.not_lt]

theorem shlVal_lt {B x k : Nat} : (shlVal B x k).r < 2 ^ B := by
  rw [shlVal_spec.1]; exact Nat.mod_lt _ (Nat.two_pow_pos B)

/-- R246. -/
theorem shrVal_spec {inexact : Bool} {B x k : Nat} (hx : x < 2 ^ B) :
    (shrVal inexact B x k).r = x / 2 ^ k ∧
    (shrVal inexact B x k).ovf = (inexact && decide (x % 2 ^ k ≠ 0)) ∧
    (shrVal inexact B x k).sat = x / 2 ^ k := by
  have hle : B ≤ k → x < 2 ^ k := fun h => Nat.lt_of_lt_of_le hx (Nat.pow_le_pow_right (by omega) h)
  have hr : shrResult B x k = x / 2 ^ k := by
    unfold shrResult
    split
    · rename_i h; rw [Nat.div_eq_of_lt (hle h)]
    · rfl
  refine ⟨hr, ?_, hr⟩
  simp only [shrVal, shrLosesBits]
  split
  · rename_i h; rw [Nat.mod_eq_of_lt (hle h)]
  · rfl

/-- R188: the ceiling of the exact quotient. -/
theorem divCeil_spec {n d : Nat} (hd : d ≠ 0) : n ≤ divCeil n d * d ∧ divCeil n d * d < n + d := by
  have h := Nat.div_add_mod n d
  have hlt := Nat.mod_lt n (Nat.pos_of_ne_zero hd)
  rw [Nat.mul_comm] at h
  unfold divCeil
  split
  · omega
  · rw [Nat.add_mul, Nat.one_mul]; omega

theorem divCeil_le {n d : Nat} (hd : d ≠ 0) : divCeil n d ≤ n := by
  have h := Nat.div_add_mod n d
  unfold divCeil
  split
  · exact Nat.div_le_self n d
  · rename_i hr
    have hd2 : 2 ≤ d := by
      rcases Nat.lt_or_ge d 2 with h' | h'
      · have : d = 1 := by omega
        subst this; rw [Nat.mod_one] at hr; omega
      · exact h'
    have : 2 * (n / d) ≤ d * (n / d) := Nat.mul_le_mul_right _ hd2
    omega

/-- R280: `2^(bit_len − 1) ≤ x < 2^bit_len`. -/
theorem bitLen_spec (x : Nat) : x < 2 ^ bitLen x ∧ (x ≠ 0 → 2 ^ (bitLen x - 1) ≤ x) := by
  unfold bitLen
  split
  · subst_vars; simp
  · rename_i h
    exact ⟨Nat.lt_log2_self, fun _ => by simpa using Nat.log2_self_le h⟩

theorem bitLen_le {B x : Nat} (h : x < 2 ^ B) : bitLen x ≤ B := by
  unfold bitLen
  split
  · omega
  · rename_i h0
    exact (Nat.log2_lt h0).2 h

theorem bitLen_pos {x : Nat} (h : x ≠ 0) : 1 ≤ bitLen x := by unfold bitLen; rw [if_neg h]; omega

theorem leadingZeros_le (B x : Nat) : leadingZeros B x ≤ B := Nat.sub_le _ _

/-- R280: the largest `t ≤ n` with `x mod 2^t = 0`. -/
theorem trailingZeros_spec (n x : Nat) : trailingZeros n x ≤ n ∧ x % 2 ^ trailingZeros n x = 0 ∧
    (trailingZeros n x < n → x.testBit (trailingZeros n x) = true) := by
  induction n generalizing x with
  | zero => simp [trailingZeros, Nat.mod_one]
  | succ n ih =>
    obtain ⟨h1, h2, h3⟩ := ih (x / 2)
    simp only [trailingZeros]
    split
    · rename_i h
      refine ⟨by omega, by simp [Nat.mod_one], fun _ => ?_⟩
      rw [Nat.testBit_zero]; simpa using h
    · rename_i h
      refine ⟨by omega, ?_, fun hlt => ?_⟩
      · rw [Nat.pow_add, Nat.pow_one, Nat.mod_mul, h2]; omega
      · rw [Nat.add_comm, Nat.testBit_succ]; exact h3 (by omega)

/-- R280: `Σ_{i<n} bit(x, i)`. -/
theorem countOnes_spec (n x : Nat) : countOnes n x = ∑ i ∈ Finset.range n, (x.testBit i).toNat := by
  induction n with
  | zero => rfl
  | succ n ih => rw [countOnes, ih, Finset.sum_range_succ, Nat.add_comm]

theorem countOnes_le (n x : Nat) : countOnes n x ≤ n := by
  induction n with
  | zero => simp [countOnes]
  | succ n ih => have := (x.testBit n).toNat_le; rw [countOnes]; omega

theorem countOnes_zero (n : Nat) : countOnes n 0 = 0 := by
  induction n with
  | zero => rfl
  | succ n ih => simp [countOnes, ih]

theorem countOnes_two_pow {n j : Nat} : countOnes n (2 ^ j) = if j < n then 1 else 0 := by
  induction n with
  | zero => simp [countOnes]
  | succ n ih =>
    rw [countOnes, ih, Nat.testBit_two_pow]
    by_cases h : j = n
    · subst h; simp
    · by_cases h2 : j < n
      · simp [h, h2, show j < n + 1 by omega]
      · simp [h, h2, show ¬ j < n + 1 by omega]

/-- R280: a value has exactly one set bit when it is a power of two. -/
theorem countOnes_eq_one {n x : Nat} (hx : x < 2 ^ n) : countOnes n x = 1 ↔ ∃ j, x = 2 ^ j := by
  constructor
  · intro h
    induction n generalizing x with
    | zero => simp [countOnes] at h
    | succ n ih =>
      rw [countOnes] at h
      have key : countOnes n x = countOnes n (x % 2 ^ n) := by
        rw [countOnes_spec, countOnes_spec]
        apply Finset.sum_congr rfl
        intro i hi
        rw [Nat.testBit_mod_two_pow, decide_eq_true (Finset.mem_range.1 hi), Bool.true_and]
      have hb := Nat.mod_lt x (Nat.two_pow_pos n)
      have hdm := Nat.div_add_mod x (2 ^ n)
      have hdiv : x / 2 ^ n = (x.testBit n).toNat := by
        have : x / 2 ^ n < 2 := by
          rw [Nat.div_lt_iff_lt_mul (Nat.two_pow_pos n)]; rw [Nat.pow_succ] at hx; omega
        rw [Nat.testBit_eq_decide_div_mod_eq]
        generalize x / 2 ^ n = q at this ⊢
        interval_cases q <;> rfl
      cases hbit : x.testBit n with
      | false =>
        rw [hbit] at h hdiv
        simp only [Bool.toNat_false] at h hdiv
        rw [hdiv] at hdm
        obtain ⟨j, hj⟩ := ih hb (by rw [← key]; omega)
        exact ⟨j, by omega⟩
      | true =>
        rw [hbit] at h hdiv
        simp only [Bool.toNat_true] at h hdiv
        refine ⟨n, ?_⟩
        have h0 : countOnes n (x % 2 ^ n) = 0 := by rw [← key]; omega
        have : x % 2 ^ n = 0 := by
          apply Nat.eq_of_testBit_eq
          intro i
          rw [Nat.zero_testBit]
          by_cases hi : i < n
          · rw [countOnes_spec, Finset.sum_eq_zero_iff] at h0
            have := h0 i (Finset.mem_range.2 hi)
            simpa using this
          · exact Nat.testBit_lt_two_pow (Nat.lt_of_lt_of_le hb (Nat.pow_le_pow_right (by omega) (by omega)))
        rw [hdiv, this] at hdm; omega
  · rintro ⟨j, rfl⟩
    have hj : j < n := (Nat.pow_lt_pow_iff_right (by omega)).1 hx
    rw [countOnes_two_pow, if_pos hj]

/-- R291: the smallest power of two `≥ x`. -/
theorem nextPow2_spec (x : Nat) : x ≤ nextPow2 x ∧ (∃ j, nextPow2 x = 2 ^ j) ∧
    ∀ j, x ≤ 2 ^ j → nextPow2 x ≤ 2 ^ j := by
  unfold nextPow2
  split
  · rename_i h
    exact ⟨h, ⟨0, rfl⟩, fun j _ => Nat.one_le_two_pow⟩
  · rename_i h
    obtain ⟨h1, h2⟩ := bitLen_spec (x - 1)
    refine ⟨by omega, ⟨_, rfl⟩, fun j hj => ?_⟩
    exact Nat.pow_le_pow_right (by omega) (bitLen_le (by have := Nat.two_pow_pos j; omega))

/-- R292: the smallest multiple of `m` that is `≥ x`. -/
theorem nextMultiple_spec {x m : Nat} (hm : m ≠ 0) : m ∣ nextMultiple x m ∧ x ≤ nextMultiple x m ∧
    nextMultiple x m < x + m := by
  have h := Nat.div_add_mod (x + m - 1) m
  have hlt := Nat.mod_lt (x + m - 1) (Nat.pos_of_ne_zero hm)
  rw [Nat.mul_comm] at h
  unfold nextMultiple
  exact ⟨Nat.dvd_mul_left m _, by omega, by omega⟩

theorem ilogLoop_spec {b : Nat} (hb : 2 ≤ b) : ∀ (r n : Nat), 1 ≤ n → n < 2 ^ r →
    b ^ ilogLoop b r n ≤ n ∧ n < b ^ (ilogLoop b r n + 1) := by
  intro r
  induction r with
  | zero => intro n h1 h2; simp at h2; omega
  | succ r ih =>
    intro n h1 h2
    simp only [ilogLoop]
    split
    · exact ⟨by simpa using h1, by simpa using ‹n < b›⟩
    · rename_i hlt
      have hd1 : 1 ≤ n / b := (Nat.le_div_iff_mul_le (by omega)).2 (by omega)
      have hd2 : n / b < 2 ^ r := by
        calc n / b ≤ n / 2 := Nat.div_le_div_left hb (by omega)
        _ < 2 ^ r := by rw [Nat.pow_succ] at h2; omega
      obtain ⟨h3, h4⟩ := ih (n / b) hd1 hd2
      constructor
      · rw [Nat.add_comm, Nat.pow_succ]
        exact (Nat.le_div_iff_mul_le (by omega)).1 h3
      · rw [Nat.add_comm 1, Nat.pow_succ]
        exact (Nat.div_lt_iff_lt_mul (by omega)).1 h4

/-- R190: the largest `k` with `b^k ≤ n`. -/
theorem ilog_spec {n b : Nat} (hb : 2 ≤ b) (hn : n ≠ 0) : b ^ ilog n b ≤ n ∧ n < b ^ (ilog n b + 1) :=
  ilogLoop_spec hb _ _ (by omega) (bitLen_spec n).1

/-- R190: a logarithm of a wide value is below `B`. -/
theorem ilog_lt {B n b : Nat} (hb : 2 ≤ b) (hn : n ≠ 0) (h : n < 2 ^ B) : ilog n b < B := by
  have h1 := (ilog_spec hb hn).1
  have h2 : 2 ^ ilog n b ≤ b ^ ilog n b := Nat.pow_le_pow_left hb _
  exact (Nat.pow_lt_pow_iff_right (a := 2) (by omega)).1 (by omega)

theorem rootLoop_spec {n g : Nat} : ∀ (i x : Nat), x ^ g ≤ n → n < (x + 2 ^ i) ^ g →
    (rootLoop n g i x) ^ g ≤ n ∧ n < (rootLoop n g i x + 1) ^ g := by
  intro i
  induction i with
  | zero => intro x h1 h2; exact ⟨h1, by simpa [rootLoop] using h2⟩
  | succ i ih =>
    intro x h1 h2
    simp only [rootLoop]
    split
    · rename_i h
      exact ih _ h (by rw [Nat.add_assoc, ← Nat.two_mul, Nat.mul_comm, ← Nat.pow_succ]; exact h2)
    · rename_i h
      exact ih _ h1 (by omega)

/-- R197: `x^g ≤ n < (x+1)^g`. -/
theorem iroot_spec {n g : Nat} (hg : g ≠ 0) : iroot n g ^ g ≤ n ∧ n < (iroot n g + 1) ^ g := by
  have hlen := (bitLen_spec n).1
  unfold iroot
  split
  · subst_vars; simp [Nat.zero_pow (Nat.pos_of_ne_zero hg)]
  · split
    · rename_i h0 h
      refine ⟨by rw [Nat.one_pow]; omega, ?_⟩
      exact Nat.lt_of_lt_of_le hlen (Nat.pow_le_pow_right (by omega) h)
    · refine rootLoop_spec _ _ (by rw [Nat.zero_pow (Nat.pos_of_ne_zero hg)]; omega) ?_
      rw [Nat.zero_add, ← Nat.pow_mul]
      refine Nat.lt_of_lt_of_le hlen (Nat.pow_le_pow_right (by omega) ?_)
      have := Nat.div_add_mod (bitLen n) g
      have := Nat.mod_lt (bitLen n) (Nat.pos_of_ne_zero hg)
      rw [Nat.add_mul, Nat.one_mul, Nat.mul_comm]; omega

theorem iroot_le {n g : Nat} (hg : g ≠ 0) : iroot n g ≤ n :=
  Nat.le_trans (Nat.le_self_pow hg _) (iroot_spec hg).1

end Sys2Proof.Machine
end

