-- ==== Sys2Proof/Laws/Bits.lean ====
section
/-! SUPPORT. The lane-wise operations as operations on values, and the rotates and the bit reversal bit by bit
(44_bitwise_shift.md R240 to R263). -/

namespace Sys2Proof.Machine

theorem mod_two_pow_and (a b i : Nat) : a % 2 ^ i &&& b % 2 ^ i = (a &&& b) % 2 ^ i := by
  apply Nat.eq_of_testBit_eq; intro j
  simp only [Nat.testBit_and, Nat.testBit_mod_two_pow]
  cases decide (j < i) <;> simp

theorem add_two_pow_mul_eq_or {a b i : Nat} (h : a < 2 ^ i) : a + 2 ^ i * b = a ||| 2 ^ i * b := by
  rw [Nat.add_comm, Nat.two_pow_add_eq_or_of_lt h, Nat.or_comm]

/-- Bits of a number split at bit `i`. -/
theorem testBit_add_two_pow_mul {a i : Nat} (h : a < 2 ^ i) (b j : Nat) :
    (a + 2 ^ i * b).testBit j = if j < i then a.testBit j else b.testBit (j - i) := by
  rw [Nat.add_comm, Nat.testBit_two_pow_mul_add _ h]

theorem testBit_val_cons (w : Word) (ws : List Word) (j : Nat) :
    (val (w :: ws)).testBit j = if j < 64 then w.toNat.testBit j else (val ws).testBit (j - 64) := by
  rw [val_cons, testBit_add_two_pow_mul w.isLt]

/-- R240, R242: lane-wise `AND` is `AND` of the values. -/
theorem val_zipWith_and : ∀ (a b : List Word), a.length = b.length →
    val (List.zipWith (fun u w => u &&& w) a b) = val a &&& val b
  | [], [], _ => rfl
  | x :: a, y :: b, h => by
    apply Nat.eq_of_testBit_eq; intro j
    rw [List.zipWith_cons_cons, testBit_val_cons, val_zipWith_and a b (by simpa using h), Nat.testBit_and,
      Nat.testBit_and, testBit_val_cons, testBit_val_cons, BitVec.toNat_and, Nat.testBit_and]
    split <;> rfl

/-- R240, R243. -/
theorem val_zipWith_or : ∀ (a b : List Word), a.length = b.length →
    val (List.zipWith (fun u w => u ||| w) a b) = val a ||| val b
  | [], [], _ => rfl
  | x :: a, y :: b, h => by
    apply Nat.eq_of_testBit_eq; intro j
    rw [List.zipWith_cons_cons, testBit_val_cons, val_zipWith_or a b (by simpa using h), Nat.testBit_or,
      Nat.testBit_or, testBit_val_cons, testBit_val_cons, BitVec.toNat_or, Nat.testBit_or]
    split <;> rfl

/-- R240, R244. -/
theorem val_zipWith_xor : ∀ (a b : List Word), a.length = b.length →
    val (List.zipWith (fun u w => u ^^^ w) a b) = val a ^^^ val b
  | [], [], _ => rfl
  | x :: a, y :: b, h => by
    apply Nat.eq_of_testBit_eq; intro j
    rw [List.zipWith_cons_cons, testBit_val_cons, val_zipWith_xor a b (by simpa using h), Nat.testBit_xor,
      Nat.testBit_xor, testBit_val_cons, testBit_val_cons, BitVec.toNat_xor, Nat.testBit_xor]
    split <;> rfl

theorem val_map_not (s : List Word) :
    val (s.map fun w => w ^^^ BitVec.allOnes 64) + val s + 1 = 2 ^ (64 * s.length) := by
  induction s with
  | nil => rfl
  | cons w ws ih =>
    have hw := w.isLt
    have hx : (w ^^^ BitVec.allOnes 64).toNat = 2 ^ 64 - 1 - w.toNat := by
      rw [BitVec.xor_allOnes, BitVec.toNat_not]
    rw [List.map_cons, val_cons, val_cons, hx, List.length_cons,
      show 64 * (ws.length + 1) = 64 + 64 * ws.length by omega, Nat.pow_add, ← ih]
    omega

/-- R241: `NOT` is `MAX − x`. -/
theorem val_canon_not {B x : Nat} (hx : x < 2 ^ B) :
    val (canonLimbs B ((limbsOf (limbCount B) x).map fun w => w ^^^ BitVec.allOnes 64)) = maxValue B - x := by
  rw [val_canonLimbs (by simp)]
  have h := val_map_not (limbsOf (limbCount B) x)
  rw [val_limbsOf_of_lt (lt_limbs hx), length_limbsOf] at h
  have hp : 2 ^ (64 * limbCount B) = 2 ^ B * 2 ^ (64 * limbCount B - B) := by
    rw [← Nat.pow_add]; congr 1; have := le_limbCount B; omega
  have hk := Nat.two_pow_pos (64 * limbCount B - B)
  obtain ⟨k, hk'⟩ : ∃ k, 2 ^ (64 * limbCount B - B) = k + 1 := ⟨_, (Nat.succ_pred_eq_of_pos hk).symm⟩
  rw [hp, hk'] at h
  have hv : val ((limbsOf (limbCount B) x).map fun w => w ^^^ BitVec.allOnes 64) =
      (2 ^ B - 1 - x) + 2 ^ B * k := by
    rw [Nat.mul_add, Nat.mul_one] at h; omega
  rw [hv, Nat.add_mul_mod_self_left, Nat.mod_eq_of_lt (by omega)]; rfl

/-- The lane-wise results on the limbs of two wide values. -/
theorem val_and_limbs {B a b : Nat} (ha : a < 2 ^ B) (hb : b < 2 ^ B) :
    val (List.zipWith (fun u w => u &&& w) (limbsOf (limbCount B) a) (limbsOf (limbCount B) b)) = a &&& b := by
  rw [val_zipWith_and _ _ (by simp), val_limbsOf_of_lt (lt_limbs ha), val_limbsOf_of_lt (lt_limbs hb)]

theorem val_or_limbs {B a b : Nat} (ha : a < 2 ^ B) (hb : b < 2 ^ B) :
    val (List.zipWith (fun u w => u ||| w) (limbsOf (limbCount B) a) (limbsOf (limbCount B) b)) = a ||| b := by
  rw [val_zipWith_or _ _ (by simp), val_limbsOf_of_lt (lt_limbs ha), val_limbsOf_of_lt (lt_limbs hb)]

theorem val_xor_limbs {B a b : Nat} (ha : a < 2 ^ B) (hb : b < 2 ^ B) :
    val (List.zipWith (fun u w => u ^^^ w) (limbsOf (limbCount B) a) (limbsOf (limbCount B) b)) = a ^^^ b := by
  rw [val_zipWith_xor _ _ (by simp), val_limbsOf_of_lt (lt_limbs ha), val_limbsOf_of_lt (lt_limbs hb)]

theorem rotl_zero_cases {B k : Nat} (h : B = 0 ∨ k % B = 0) (x : Nat) : rotl B x k = x := by
  rw [rotl, if_pos h]

/-- R260: the rotation of a wide value is a wide value. -/
theorem rotl_lt {B x : Nat} (hx : x < 2 ^ B) (k : Nat) : rotl B x k < 2 ^ B := by
  unfold rotl
  split
  · exact hx
  · rename_i h
    have hB : 0 < B := by omega
    have hk := Nat.mod_lt k hB
    have hp : 2 ^ B = 2 ^ (B - k % B) * 2 ^ (k % B) := by rw [← Nat.pow_add]; congr 1; omega
    have h1 : x / 2 ^ (B - k % B) < 2 ^ (k % B) := by
      rw [Nat.div_lt_iff_lt_mul (Nat.two_pow_pos _), Nat.mul_comm, ← hp]; exact hx
    have h2 : x * 2 ^ (k % B) % 2 ^ B = x % 2 ^ (B - k % B) * 2 ^ (k % B) := by
      rw [hp, Nat.mul_mod_mul_right]
    have h3 := Nat.mod_lt x (Nat.two_pow_pos (B - k % B))
    have h4 : x % 2 ^ (B - k % B) * 2 ^ (k % B) + 2 ^ (k % B) ≤ 2 ^ (B - k % B) * 2 ^ (k % B) := by
      have := Nat.mul_le_mul_right (2 ^ (k % B)) (show x % 2 ^ (B - k % B) + 1 ≤ 2 ^ (B - k % B) from h3)
      rw [Nat.add_mul, Nat.one_mul] at this; exact this
    rw [h2, hp]; omega

/-- R260: bit `i` of `x` moves to bit `(i + k) mod B`. -/
theorem rotl_testBit {B x : Nat} (hx : x < 2 ^ B) (k : Nat) {i : Nat} (hi : i < B) :
    (rotl B x k).testBit ((i + k) % B) = x.testBit i := by
  unfold rotl
  split
  · rename_i h
    have hk : k % B = 0 := by omega
    rw [Nat.add_mod, hk, Nat.add_zero, Nat.mod_mod, Nat.mod_eq_of_lt hi]
  · rename_i h
    have hB : 0 < B := by omega
    have hk := Nat.mod_lt k hB
    have hk0 : 0 < k % B := by omega
    have hidx : (i + k) % B = if i + k % B < B then i + k % B else i + k % B - B := by
      rw [Nat.add_mod, Nat.mod_eq_of_lt hi]
      split
      · rw [Nat.mod_eq_of_lt (by assumption)]
      · rw [Nat.mod_eq_sub_mod (by omega), Nat.mod_eq_of_lt (by omega)]
    generalize hkk : k % B = r at *
    have hp : 2 ^ B = 2 ^ r * 2 ^ (B - r) := by rw [← Nat.pow_add]; congr 1; omega
    have h1 : x / 2 ^ (B - r) < 2 ^ r := by
      rw [Nat.div_lt_iff_lt_mul (Nat.two_pow_pos _), ← hp]; exact hx
    have h2 : x * 2 ^ r % 2 ^ B = 2 ^ r * (x % 2 ^ (B - r)) := by
      rw [hp, Nat.mul_comm x, Nat.mul_mod_mul_left]
    rw [h2, Nat.add_comm, testBit_add_two_pow_mul h1, hidx]
    split
    · rw [if_neg (by omega), Nat.testBit_mod_two_pow, decide_eq_true (by omega), Bool.true_and]
      congr 1; omega
    · rw [if_pos (by omega), Nat.testBit_div_two_pow]
      congr 1; omega

theorem rotr_eq_rotl {B : Nat} (hB : B ≠ 0) (x k : Nat) : rotr B x k = rotl B x (B - k % B) := by
  unfold rotr
  split
  · rename_i h
    have hk : k % B = 0 := by omega
    rw [rotl, if_pos (by rw [hk]; simp)]
  · rfl

theorem rotr_lt {B x : Nat} (hx : x < 2 ^ B) (k : Nat) : rotr B x k < 2 ^ B := by
  unfold rotr
  split
  · exact hx
  · exact rotl_lt hx _

/-- R260: bit `(i + k) mod B` of `x` moves to bit `i`. -/
theorem rotr_testBit {B x : Nat} (hx : x < 2 ^ B) (k : Nat) {i : Nat} (hi : i < B) :
    (rotr B x k).testBit i = x.testBit ((i + k) % B) := by
  have hB : 0 < B := by omega
  have hk := Nat.mod_lt k hB
  rw [rotr_eq_rotl (by omega)]
  have h := rotl_testBit hx (B - k % B) (i := (i + k) % B) (Nat.mod_lt _ hB)
  rw [← h]
  congr 1
  have e : (i + k) % B + (B - k % B) ≡ i [MOD B] := by
    have h1 : (i + k) % B + (B - k % B) ≡ i + k % B + (B - k % B) [MOD B] := by
      apply Nat.ModEq.add_right
      exact (Nat.mod_modEq _ _).trans (Nat.ModEq.add_left _ (Nat.mod_modEq _ _).symm)
    have h2 : i + k % B + (B - k % B) = i + B := by omega
    rw [h2] at h1
    exact h1.trans (Nat.add_mod_right _ _)
  have := e
  rw [Nat.ModEq, Nat.mod_eq_of_lt hi] at this
  exact this.symm

/-- The sum of R263 over the low `n` bits: bit `j` of it is bit `B−1−j` of `x` where that is one of them. -/
theorem reverseBits_testBit_aux {B x : Nat} : ∀ n, n ≤ B →
    reverseBits B x n % 2 ^ (B - n) = 0 ∧ reverseBits B x n < 2 ^ B ∧
    ∀ j, (reverseBits B x n).testBit j = (decide (j < B ∧ B - 1 - j < n) && x.testBit (B - 1 - j)) := by
  intro n
  induction n with
  | zero => intro _; refine ⟨by simp [reverseBits], Nat.two_pow_pos B, fun j => by simp [reverseBits]⟩
  | succ n ih =>
    intro hn
    obtain ⟨h1, h2, h3⟩ := ih (by omega)
    have hpow : 2 ^ (B - n) = 2 ^ (B - 1 - n) * 2 := by rw [← Nat.pow_succ]; congr 1; omega
    obtain ⟨u, hu⟩ := Nat.dvd_of_mod_eq_zero h1
    have hb := (x.testBit n).toNat_lt
    have hval : reverseBits B x (n + 1) = 2 ^ (B - 1 - n) * ((x.testBit n).toNat + 2 ^ 1 * u) := by
      rw [reverseBits, hu, hpow]; ring
    have hu2 : u < 2 ^ n := by
      have hp : 2 ^ B = 2 ^ (B - n) * 2 ^ n := by rw [← Nat.pow_add]; congr 1; omega
      rw [hu, hp] at h2
      exact Nat.lt_of_mul_lt_mul_left h2
    refine ⟨?_, ?_, ?_⟩
    · rw [show B - (n + 1) = B - 1 - n by omega, hval, Nat.mul_mod_right]
    · rw [hval]
      have hp : 2 ^ B = 2 ^ (B - 1 - n) * 2 ^ (n + 1) := by rw [← Nat.pow_add]; congr 1; omega
      rw [hp]
      apply Nat.mul_lt_mul_of_pos_left _ (Nat.two_pow_pos _)
      rw [Nat.pow_succ]; omega
    · intro j
      have h3' := h3 j
      rw [hu, hpow, Nat.mul_assoc, Nat.testBit_two_pow_mul] at h3'
      rw [hval, Nat.testBit_two_pow_mul, testBit_add_two_pow_mul (by simpa using hb)]
      by_cases hj : B - 1 - n ≤ j
      · by_cases hj2 : j = B - 1 - n
        · subst hj2
          rw [show B - 1 - (B - 1 - n) = n by omega]
          cases x.testBit n <;> (simp; try omega)
        · rw [if_neg (by omega), decide_eq_true hj, Bool.true_and]
          rw [decide_eq_true hj, Bool.true_and] at h3'
          have h4 : u.testBit (j - (B - 1 - n) - 1) = (2 * u).testBit (j - (B - 1 - n)) := by
            rw [show j - (B - 1 - n) = (j - (B - 1 - n) - 1) + 1 by omega, Nat.testBit_succ,
              Nat.mul_div_cancel_left _ (by omega)]; rfl
          rw [h4, h3']
          congr 1
          apply decide_eq_decide.2; omega
      · rw [decide_eq_false hj, Bool.false_and, decide_eq_false (by omega), Bool.false_and]

theorem reverseBits_lt (B x : Nat) : reverseBits B x B < 2 ^ B :=
  (reverseBits_testBit_aux B (Nat.le_refl B)).2.1

/-- R263: bit `i` of the reversal is bit `B−1−i`. -/
theorem reverseBits_testBit {B x i : Nat} (hi : i < B) :
    (reverseBits B x B).testBit i = x.testBit (B - 1 - i) := by
  rw [(reverseBits_testBit_aux B (Nat.le_refl B)).2.2 i, decide_eq_true (by omega), Bool.true_and]

end Sys2Proof.Machine
end

