-- ==== Sys2Proof/Laws/Encoding.lean ====
section
/-! SUPPORT. The fields of a packed word, and the mask tests on it (30_encoding.md R71, R72, R77). -/

namespace Sys2Proof

/-- A word is its opcode, its five register fields and its low nibble. -/
theorem word_ext {u w : CommandWord} (h0 : u.extractLsb' 24 8 = w.extractLsb' 24 8)
    (h1 : u.extractLsb' 20 4 = w.extractLsb' 20 4) (h2 : u.extractLsb' 16 4 = w.extractLsb' 16 4)
    (h3 : u.extractLsb' 12 4 = w.extractLsb' 12 4) (h4 : u.extractLsb' 8 4 = w.extractLsb' 8 4)
    (h5 : u.extractLsb' 4 4 = w.extractLsb' 4 4) (hz : u.extractLsb' 0 4 = w.extractLsb' 0 4) : u = w := by
  have e := fun {n : Nat} {x y : BitVec n} (h : x = y) => congrArg BitVec.toNat h
  have h0 := e h0; have h1 := e h1; have h2 := e h2; have h3 := e h3
  have h4 := e h4; have h5 := e h5; have hz := e hz
  simp only [BitVec.extractLsb'_toNat, Nat.shiftRight_eq_div_pow] at h0 h1 h2 h3 h4 h5 hz
  apply BitVec.eq_of_toNat_eq
  have := u.isLt; have := w.isLt
  omega

@[simp] theorem regOfNibble_nibbleOfReg (r : Fin 16) : regOfNibble (nibbleOfReg r) = r := by
  apply Fin.ext; simp [regOfNibble, nibbleOfReg]

@[simp] theorem nibbleOfReg_regOfNibble (n : BitVec 4) : nibbleOfReg (regOfNibble n) = n := by
  apply BitVec.eq_of_toNat_eq; simp [regOfNibble, nibbleOfReg]

theorem packed_opc (a b c d e f : Nat)
    (_ : a < 256 ∧ b < 16 ∧ c < 16 ∧ d < 16 ∧ e < 16 ∧ f < 16) :
    (a * 16777216 + b * 1048576 + c * 65536 + d * 4096 + e * 256 + f * 16) / 2 ^ 24 % 2 ^ 8 = a := by
  norm_num only; omega

theorem packed_f1 (a b c d e f : Nat)
    (_ : a < 256 ∧ b < 16 ∧ c < 16 ∧ d < 16 ∧ e < 16 ∧ f < 16) :
    (a * 16777216 + b * 1048576 + c * 65536 + d * 4096 + e * 256 + f * 16) / 2 ^ 20 % 2 ^ 4 = b := by
  norm_num only; omega

theorem packed_f2 (a b c d e f : Nat)
    (_ : a < 256 ∧ b < 16 ∧ c < 16 ∧ d < 16 ∧ e < 16 ∧ f < 16) :
    (a * 16777216 + b * 1048576 + c * 65536 + d * 4096 + e * 256 + f * 16) / 2 ^ 16 % 2 ^ 4 = c := by
  norm_num only; omega

theorem packed_f3 (a b c d e f : Nat)
    (_ : a < 256 ∧ b < 16 ∧ c < 16 ∧ d < 16 ∧ e < 16 ∧ f < 16) :
    (a * 16777216 + b * 1048576 + c * 65536 + d * 4096 + e * 256 + f * 16) / 2 ^ 12 % 2 ^ 4 = d := by
  norm_num only; omega

theorem packed_f4 (a b c d e f : Nat)
    (_ : a < 256 ∧ b < 16 ∧ c < 16 ∧ d < 16 ∧ e < 16 ∧ f < 16) :
    (a * 16777216 + b * 1048576 + c * 65536 + d * 4096 + e * 256 + f * 16) / 2 ^ 8 % 2 ^ 4 = e := by
  norm_num only; omega

theorem packed_f5 (a b c d e f : Nat)
    (_ : a < 256 ∧ b < 16 ∧ c < 16 ∧ d < 16 ∧ e < 16 ∧ f < 16) :
    (a * 16777216 + b * 1048576 + c * 65536 + d * 4096 + e * 256 + f * 16) / 2 ^ 4 % 2 ^ 4 = f := by
  norm_num only; omega

theorem packed_z (a b c d e f : Nat)
    (_ : a < 256 ∧ b < 16 ∧ c < 16 ∧ d < 16 ∧ e < 16 ∧ f < 16) :
    (a * 16777216 + b * 1048576 + c * 65536 + d * 4096 + e * 256 + f * 16) / 2 ^ 0 % 2 ^ 4 = 0 := by
  norm_num only; omega

theorem packed_imm (a b c : Nat) (_ : a < 256 ∧ b < 16 ∧ c < 65536) :
    (a * 2 ^ 24 + b * 2 ^ 20 + c * 2 ^ 4) % 2 ^ 32 / 2 ^ 4 % 2 ^ 16 = c := by
  norm_num only; omega

section packR
variable (opc : BitVec 8) (f1 f2 f3 f4 f5 : Fin 16)

theorem packR_toNat : (packR opc f1 f2 f3 f4 f5).toNat = opc.toNat * 2 ^ 24 + f1.val * 2 ^ 20 + f2.val * 2 ^ 16 +
    f3.val * 2 ^ 12 + f4.val * 2 ^ 8 + f5.val * 2 ^ 4 := by
  simp only [packR, BitVec.toNat_ofNat]
  have := opc.isLt
  omega

theorem packR_toNat' : (packR opc f1 f2 f3 f4 f5).toNat = opc.toNat * 16777216 + f1.val * 1048576 +
    f2.val * 65536 + f3.val * 4096 + f4.val * 256 + f5.val * 16 := packR_toNat ..

theorem packR_opc : (packR opc f1 f2 f3 f4 f5).extractLsb' 24 8 = opc := by
  apply BitVec.eq_of_toNat_eq
  rw [BitVec.extractLsb'_toNat, packR_toNat', Nat.shiftRight_eq_div_pow]
  exact (packed_opc _ _ _ _ _ _ ⟨opc.isLt, f1.isLt, f2.isLt, f3.isLt, f4.isLt, f5.isLt⟩)

theorem packR_f1 : (packR opc f1 f2 f3 f4 f5).extractLsb' 20 4 = nibbleOfReg f1 := by
  apply BitVec.eq_of_toNat_eq
  rw [BitVec.extractLsb'_toNat, packR_toNat', Nat.shiftRight_eq_div_pow]
  exact (packed_f1 _ _ _ _ _ _ ⟨opc.isLt, f1.isLt, f2.isLt, f3.isLt, f4.isLt, f5.isLt⟩).trans
    (Nat.mod_eq_of_lt f1.isLt).symm

theorem packR_f2 : (packR opc f1 f2 f3 f4 f5).extractLsb' 16 4 = nibbleOfReg f2 := by
  apply BitVec.eq_of_toNat_eq
  rw [BitVec.extractLsb'_toNat, packR_toNat', Nat.shiftRight_eq_div_pow]
  exact (packed_f2 _ _ _ _ _ _ ⟨opc.isLt, f1.isLt, f2.isLt, f3.isLt, f4.isLt, f5.isLt⟩).trans
    (Nat.mod_eq_of_lt f2.isLt).symm

theorem packR_f3 : (packR opc f1 f2 f3 f4 f5).extractLsb' 12 4 = nibbleOfReg f3 := by
  apply BitVec.eq_of_toNat_eq
  rw [BitVec.extractLsb'_toNat, packR_toNat', Nat.shiftRight_eq_div_pow]
  exact (packed_f3 _ _ _ _ _ _ ⟨opc.isLt, f1.isLt, f2.isLt, f3.isLt, f4.isLt, f5.isLt⟩).trans
    (Nat.mod_eq_of_lt f3.isLt).symm

theorem packR_f4 : (packR opc f1 f2 f3 f4 f5).extractLsb' 8 4 = nibbleOfReg f4 := by
  apply BitVec.eq_of_toNat_eq
  rw [BitVec.extractLsb'_toNat, packR_toNat', Nat.shiftRight_eq_div_pow]
  exact (packed_f4 _ _ _ _ _ _ ⟨opc.isLt, f1.isLt, f2.isLt, f3.isLt, f4.isLt, f5.isLt⟩).trans
    (Nat.mod_eq_of_lt f4.isLt).symm

theorem packR_f5 : (packR opc f1 f2 f3 f4 f5).extractLsb' 4 4 = nibbleOfReg f5 := by
  apply BitVec.eq_of_toNat_eq
  rw [BitVec.extractLsb'_toNat, packR_toNat', Nat.shiftRight_eq_div_pow]
  exact (packed_f5 _ _ _ _ _ _ ⟨opc.isLt, f1.isLt, f2.isLt, f3.isLt, f4.isLt, f5.isLt⟩).trans
    (Nat.mod_eq_of_lt f5.isLt).symm

theorem packR_z : (packR opc f1 f2 f3 f4 f5).extractLsb' 0 4 = 0 := by
  apply BitVec.eq_of_toNat_eq
  rw [BitVec.extractLsb'_toNat, packR_toNat', Nat.shiftRight_eq_div_pow]
  exact (packed_z _ _ _ _ _ _ ⟨opc.isLt, f1.isLt, f2.isLt, f3.isLt, f4.isLt, f5.isLt⟩)

end packR

/-- A format I word is the format R word whose `F2..F5` are the immediate's nibbles (R72). -/
theorem packI_eq_packR (opc : BitVec 8) (f1 : Fin 16) (imm : BitVec 16) :
    packI opc f1 imm = packR opc f1 (Fin.ofNat 16 (imm.toNat / 4096)) (Fin.ofNat 16 (imm.toNat / 256))
      (Fin.ofNat 16 (imm.toNat / 16)) (Fin.ofNat 16 imm.toNat) := by
  apply BitVec.eq_of_toNat_eq
  have := imm.isLt; have := opc.isLt
  simp only [packR_toNat, packI, BitVec.toNat_ofNat, Fin.val_ofNat]
  omega

/-- The immediate of a format I word (R72, R73). -/
theorem packI_imm (opc : BitVec 8) (f1 : Fin 16) (imm : BitVec 16) :
    (packI opc f1 imm).extractLsb' 4 16 = imm := by
  apply BitVec.eq_of_toNat_eq
  rw [BitVec.extractLsb'_toNat, Nat.shiftRight_eq_div_pow, packI, BitVec.toNat_ofNat]
  exact packed_imm _ _ _ ⟨opc.isLt, f1.isLt, imm.isLt⟩

/-- The row of an opcode, the mask test and the operand conditions together: what a packed word decodes to. -/
theorem decode_of_row {w : CommandWord} {row : OpcodeRow} {i : Instr} (hr : rowOf (opcodeOf w) = some row)
    (hm : w &&& row.mask = row.matchWord) (hb : row.build (fieldsOf w) = i) (hw : i.wellFormed = true) :
    decode w = .ok i := by
  simp [decode, hr, hm, hb, checkOperands, hw]

theorem fieldsOf_packR (opc : BitVec 8) (f1 f2 f3 f4 f5 : Fin 16) :
    fieldsOf (packR opc f1 f2 f3 f4 f5) = ⟨f1, f2, f3, f4, f5, (packR opc f1 f2 f3 f4 f5).extractLsb' 4 16⟩ := by
  simp [fieldsOf, packR_f1, packR_f2, packR_f3, packR_f4, packR_f5]

theorem opcodeOf_packR (opc : BitVec 8) (f1 f2 f3 f4 f5 : Fin 16) : opcodeOf (packR opc f1 f2 f3 f4 f5) = opc :=
  packR_opc ..

theorem opcodeOf_packI (opc : BitVec 8) (f1 : Fin 16) (imm : BitVec 16) : opcodeOf (packI opc f1 imm) = opc := by
  rw [packI_eq_packR]; exact packR_opc ..

theorem fieldsOf_packI_f1 (opc : BitVec 8) (f1 : Fin 16) (imm : BitVec 16) :
    (fieldsOf (packI opc f1 imm)).f1 = f1 := by
  rw [packI_eq_packR, fieldsOf_packR]

theorem fieldsOf_packI_imm (opc : BitVec 8) (f1 : Fin 16) (imm : BitVec 16) :
    (fieldsOf (packI opc f1 imm)).imm = imm := packI_imm ..

/-- A masked packed word, field by field. -/
theorem packR_and (opc : BitVec 8) (f1 f2 f3 f4 f5 : Fin 16) (mask m : CommandWord)
    (h0 : opc &&& mask.extractLsb' 24 8 = m.extractLsb' 24 8)
    (h1 : nibbleOfReg f1 &&& mask.extractLsb' 20 4 = m.extractLsb' 20 4)
    (h2 : nibbleOfReg f2 &&& mask.extractLsb' 16 4 = m.extractLsb' 16 4)
    (h3 : nibbleOfReg f3 &&& mask.extractLsb' 12 4 = m.extractLsb' 12 4)
    (h4 : nibbleOfReg f4 &&& mask.extractLsb' 8 4 = m.extractLsb' 8 4)
    (h5 : nibbleOfReg f5 &&& mask.extractLsb' 4 4 = m.extractLsb' 4 4)
    (hz : 0 = m.extractLsb' 0 4) : packR opc f1 f2 f3 f4 f5 &&& mask = m := by
  apply word_ext <;>
    simp only [BitVec.extractLsb'_and, packR_opc, packR_f1, packR_f2, packR_f3, packR_f4, packR_f5, packR_z]
  case hz => rw [← hz]; simp
  all_goals assumption

end Sys2Proof
end

