-- ==== Sys2Proof/Laws/LimbForms.lean ====
section
/-! SUPPORT. The laws the limb-level procedures rest on: the low half of a product (41_arith_flavours.md R133) and
one quotient digit of Knuth Algorithm D (42_divide_log_root.md R183). -/

namespace Sys2Proof.Machine

/-- R133: the low `L` limbs canonicalised are the value modulo `2^B`; a high limb or a masked bit is set exactly
when the value is `≥ 2^B`. -/
theorem lowProduct_spec {B : Nat} {p : List Word} (hl : limbCount B ≤ p.length) :
    lowProduct B p = (val p % 2 ^ B, decide (2 ^ B ≤ val p)) := by
  have h1 : (p.take (limbCount B)).length = limbCount B := by simpa using hl
  have h2 := val_append (p.take (limbCount B)) (p.drop (limbCount B))
  rw [List.take_append_drop, h1] at h2
  have hp : 2 ^ (64 * limbCount B) = 2 ^ B * 2 ^ (64 * limbCount B - B) := by
    rw [← Nat.pow_add]; congr 1; have := le_limbCount B; omega
  have hle : 2 ^ B ≤ 2 ^ (64 * limbCount B) := Nat.pow_le_pow_right (by omega) (le_limbCount B)
  simp only [lowProduct]
  rw [val_canonLimbs h1, maskedOff_eq h1]
  refine Prod.ext (by rw [h2, hp, Nat.mul_assoc, Nat.add_mul_mod_self_left]) ?_
  by_cases h0 : val (p.drop (limbCount B)) = 0
  · have : (p.drop (limbCount B)).any (fun w => decide (w ≠ 0)) = false := by
      rw [List.any_eq_false]; intro w hw; simp [(val_eq_zero_iff _).1 h0 w hw]
    simp only [this, Bool.false_or]; rw [h2, h0]; simp
  · have : (p.drop (limbCount B)).any (fun w => decide (w ≠ 0)) = true := by
      rw [List.any_eq_true]
      by_contra hcon
      apply h0; rw [val_eq_zero_iff]; intro w hw
      by_contra hw0
      exact hcon ⟨w, hw, by simpa using hw0⟩
    simp only [this, Bool.true_or]; symm; apply decide_eq_true
    rw [h2]
    calc 2 ^ B ≤ 2 ^ (64 * limbCount B) * 1 := by omega
    _ ≤ 2 ^ (64 * limbCount B) * val (p.drop (limbCount B)) := Nat.mul_le_mul_left _ (by omega)
    _ ≤ _ := Nat.le_add_left _ _

/-- The correction of R183, with `b = 2^64`: it never goes below a true digit `q`, keeps `qhat ≤ b`, and ends with
`qhat` times the divisor's top two limbs not above the window's top three. -/
theorem correctQhat_spec {b v1 v2 u2 num q : Nat} (hb : 2 ^ 64 = b) (hv2 : v2 < b) (hq : q < b)
    (hstep : ∀ x, q ≤ x → num * b + u2 < x * (v1 * b + v2) → q < x) :
    ∀ n qhat rhat, num = qhat * v1 + rhat → q ≤ qhat → qhat ≤ b + 1 →
      (n = 0 → b ≤ rhat ∧ qhat ≤ b) → (n = 1 → b ≤ rhat + v1) → (n = 2 → b ≤ rhat + 2 * v1) → n ≤ 2 →
      q ≤ correctQhat v1 v2 u2 n qhat rhat ∧ correctQhat v1 v2 u2 n qhat rhat ≤ b ∧
      correctQhat v1 v2 u2 n qhat rhat * (v1 * b + v2) ≤ num * b + u2 := by
  have big : ∀ x r, num = x * v1 + r → b ≤ r → x ≤ b →
      x * (v1 * b + v2) ≤ num * b + u2 := by
    intro x r h1 h2 h3
    have e1 : x * v2 ≤ b * b := Nat.mul_le_mul h3 (by omega)
    have e2 : b * b ≤ r * b := Nat.mul_le_mul_right _ h2
    rw [h1, Nat.mul_add, Nat.add_mul, Nat.mul_assoc]
    omega
  intro n
  induction n with
  | zero =>
    intro qhat rhat h1 h2 h3 h4 _ _ _
    obtain ⟨h5, h6⟩ := h4 rfl
    exact ⟨h2, h6, big _ _ h1 h5 h6⟩
  | succ n ih =>
    intro qhat rhat h1 h2 h3 h4 h5 h6 h7
    rw [correctQhat, hb]
    split
    · rename_i ht
      have hlt : q < qhat := by
        rcases ht with ht | ht
        · omega
        · apply hstep _ h2
          rw [h1, Nat.mul_add, Nat.add_mul, ← Nat.mul_assoc]
          omega
      have h1' : num = (qhat - 1) * v1 + (rhat + v1) := by
        obtain ⟨m, rfl⟩ : ∃ m, qhat = m + 1 := ⟨qhat - 1, by omega⟩
        rw [h1, Nat.add_sub_cancel, Nat.add_mul]; omega
      split
      · rename_i hr
        exact ⟨by omega, by omega, big _ _ h1' hr (by omega)⟩
      · rename_i hr
        refine ih _ _ h1' (by omega) (by omega) (fun hn => ?_) (fun hn => ?_) (fun hn => ?_) (by omega)
        · have := h5 (by omega); omega
        · have := h6 (by omega); omega
        · omega
    · rename_i ht
      refine ⟨h2, by omega, ?_⟩
      rw [h1, Nat.mul_add, Nat.add_mul, ← Nat.mul_assoc]
      omega

/-- Three facts of a window `u` and a divisor `v` cut at `P`, `v` in turn at `b`: a digit the test on the top
limbs rejects is above the true one, the estimate is not below it and is at most `b + 1`. -/
theorem estimate_spec {b h P v u : Nat} (hbh : b = 2 * h) (hh : 2 ≤ h) (hP : 0 < P)
    (hlo : h * b ≤ v / P) (hu : u < v * b) :
    (∀ x, u / P < x * (v / P) → u / v < x) ∧ u / v ≤ u / P / b / (v / P / b) ∧
      u / P / b / (v / P / b) ≤ b + 1 ∧ h ≤ v / P / b := by
  have hb : 0 < b := by omega
  have hvpos : 0 < v := by
    rcases Nat.eq_zero_or_pos v with hz | hz
    · subst hz; simp at hu
    · exact hz
  have hv1 : h ≤ v / P / b := by rw [Nat.le_div_iff_mul_le hb]; exact hlo
  have hv1p : 0 < v / P / b := by omega
  have hvP : v / P * P ≤ v := Nat.div_mul_le_self v P
  refine ⟨fun x hx => ?_, ?_, ?_, hv1⟩
  · rw [Nat.div_lt_iff_lt_mul hvpos]
    have h1 : u < x * (v / P) * P := (Nat.div_lt_iff_lt_mul hP).1 hx
    rw [Nat.mul_assoc] at h1
    exact Nat.lt_of_lt_of_le h1 (Nat.mul_le_mul_left _ hvP)
  · rw [Nat.le_div_iff_mul_le hv1p, Nat.le_div_iff_mul_le hb, Nat.mul_assoc]
    refine Nat.le_trans (Nat.mul_le_mul_left _ (Nat.div_mul_le_self _ b)) ?_
    rw [Nat.le_div_iff_mul_le hP, Nat.mul_assoc]
    exact Nat.le_trans (Nat.mul_le_mul_left _ hvP) (Nat.div_mul_le_self u v)
  · rw [← Nat.lt_succ_iff, Nat.div_lt_iff_lt_mul hv1p]
    have hvU : v < (v / P / b + 1) * (P * b) := by
      rw [Nat.div_div_eq_div_mul, Nat.mul_comm]; exact Nat.lt_mul_div_succ v (Nat.mul_pos hP hb)
    have h3 : u / P / b < (v / P / b + 1) * b := by
      rw [Nat.div_div_eq_div_mul u, Nat.div_lt_iff_lt_mul (Nat.mul_pos hP hb), Nat.mul_right_comm]
      exact Nat.lt_trans hu (Nat.mul_lt_mul_of_pos_right hvU hb)
    generalize v / P / b = v1 at *
    have e1 : (b + 1).succ * v1 = v1 * b + 2 * v1 := by rw [Nat.succ_eq_add_one]; ring
    have e2 : (v1 + 1) * b = v1 * b + b := by ring
    omega

/-- A digit at most `b` whose top limbs stay within the window is at most one too large. -/
theorem estimate_le {b P v u Q : Nat} (hP : 0 < P) (hb : 0 < b) (hvb : b ≤ v / P) (hQ : Q ≤ b)
    (h : Q * (v / P) ≤ u / P) : Q * v < u + v := by
  have h1 : Q * (v / P) * P ≤ u :=
    Nat.le_trans (Nat.mul_le_mul_right _ h) (Nat.div_mul_le_self u P)
  have h2 : Q * (v % P) ≤ b * (v % P) := Nat.mul_le_mul_right _ hQ
  have h3 : b * (v % P) < b * P := Nat.mul_lt_mul_of_pos_left (Nat.mod_lt v hP) hb
  have h4 : b * P ≤ v := Nat.le_trans (Nat.mul_le_mul_right _ hvb) (Nat.div_mul_le_self v P)
  have h5 : Q * v = Q * (v / P) * P + Q * (v % P) := by
    conv_lhs => rw [← Nat.div_add_mod v P]
    ring
  omega

/-- Multiply, subtract and, on a borrow, add back (R183): right for a digit that is exact or one too large. -/
theorem addBack_spec {b M v u Q : Nat} (hv : 0 < v) (hQ : u / v ≤ Q) (hQ' : Q * v < u + v)
    (hq : u / v < b) (hM : b * v ≤ M) :
    (if Q * v ≤ u then (Q, u - Q * v) else (Q - 1, (u + M - Q * v + v) % M)) = (u / v, u % v) := by
  have hdm := Nat.div_add_mod u v
  have hrm := Nat.mod_lt u hv
  have hc : v * (u / v) = u / v * v := Nat.mul_comm _ _
  split
  · rename_i hle
    have hE : Q = u / v := Nat.le_antisymm ((Nat.le_div_iff_mul_le hv).2 hle) hQ
    subst hE
    refine Prod.ext rfl ?_
    show u - u / v * v = _
    omega
  · rename_i hle
    have hE : Q = u / v + 1 := by
      apply Nat.le_antisymm
      · have : Q - 1 ≤ u / v := by
          rw [Nat.le_div_iff_mul_le hv, Nat.sub_mul]; omega
        omega
      · rw [Nat.succ_le_iff, Nat.div_lt_iff_lt_mul hv]; omega
    subst hE
    have hexp : (u / v + 1) * v = u / v * v + v := by ring
    have hbound : (u / v + 1) * v ≤ M := Nat.le_trans (Nat.mul_le_mul_right _ hq) hM
    have hvM : v ≤ M := by rw [hexp] at hbound; omega
    refine Prod.ext (by simp) ?_
    show (u + M - (u / v + 1) * v + v) % M = u % v
    rw [hexp] at hbound ⊢
    rw [show u + M - (u / v * v + v) + v = u % v + M by omega, Nat.add_mod_right,
      Nat.mod_eq_of_lt (by omega)]

/-- R183: one digit, for a normalised divisor of `k ≥ 2` limbs and a window below `v·2^64`: the digit is the
quotient and the window left is the remainder, the add-back included. -/
theorem knuthDigit_spec {k v u : Nat} (hk : 2 ≤ k) (hv1 : 2 ^ (64 * k - 1) ≤ v) (hv2 : v < 2 ^ (64 * k))
    (hu : u < v * 2 ^ 64) : knuthDigit k v u = (u / v, u % v) := by
  obtain ⟨m, rfl⟩ : ∃ m, k = m + 2 := ⟨k - 2, by omega⟩
  obtain ⟨b, hb⟩ : ∃ b, 2 ^ 64 = b := ⟨_, rfl⟩
  obtain ⟨h, hh⟩ : ∃ h, 2 ^ 63 = h := ⟨_, rfl⟩
  have pw : ∀ {x : Nat} (y z : Nat), x = y + z → 2 ^ x = 2 ^ y * 2 ^ z := by
    intro x y z hx; rw [hx, Nat.pow_add]
  have hbh : b = 2 * h := by rw [← hb, ← hh, pw 1 63 rfl]; rfl
  have hh0 : 2 ≤ h := by rw [← hh]; decide
  have hP := Nat.two_pow_pos (64 * m)
  have e1 : 2 ^ (64 * (m + 2) - 1) = h * b * 2 ^ (64 * m) := by
    rw [pw 63 (64 * m + 64) (by omega), pw (64 * m) 64 rfl, hb, hh, Nat.mul_comm (2 ^ _) b, Nat.mul_assoc]
  have e3 : 2 ^ (64 * (m + 2 - 1)) = 2 ^ (64 * m) * b := by rw [pw (64 * m) 64 (by omega), hb]
  have e4 : 2 ^ (64 * (m + 2 + 1)) = b * 2 ^ (64 * (m + 2)) := by rw [pw 64 (64 * (m + 2)) (by omega), hb]
  have hb0 : 0 < b := by omega
  rw [hb] at hu
  have hlo : h * b ≤ v / 2 ^ (64 * m) := by
    rw [Nat.le_div_iff_mul_le hP]; rw [e1] at hv1; exact hv1
  have hM : b * v ≤ 2 ^ (64 * (m + 2 + 1)) := by
    rw [e4]; exact Nat.mul_le_mul_left _ (Nat.le_of_lt hv2)
  have hvpos : 0 < v := Nat.lt_of_lt_of_le (Nat.two_pow_pos _) hv1
  have hq : u / v < b := (Nat.div_lt_iff_lt_mul hvpos).2 (by rw [Nat.mul_comm]; exact hu)
  clear hv1 hv2 e1 e4
  rw [knuthDigit]
  simp only [hb, e3, show m + 2 - 2 = m by omega]
  rw [← Nat.div_div_eq_div_mul, ← Nat.div_div_eq_div_mul]
  clear e3
  generalize 2 ^ (64 * (m + 2 + 1)) = M at *
  generalize 2 ^ (64 * m) = P at *
  obtain ⟨hstep, hest, hqhat, hv1h⟩ := estimate_spec hbh hh0 hP hlo hu
  have dV := Nat.div_add_mod' (v / P) b
  have dU := Nat.div_add_mod' (u / P) b
  have hvb : b ≤ v / P := by
    have : 1 * b ≤ h * b := Nat.mul_le_mul_right _ (by omega)
    omega
  have hc := correctQhat_spec (v1 := v / P / b) (v2 := v / P % b) (u2 := u / P % b) (num := u / P / b) hb
    (Nat.mod_lt _ hb0) hq (fun x _ hx => hstep x (by rw [← dU, ← dV]; exact hx)) 2 _ _
    (Nat.div_add_mod' (u / P / b) (v / P / b)).symm hest hqhat (by simp) (by simp) (fun _ => by omega) (by omega)
  rw [dU, dV] at hc
  exact addBack_spec hvpos hc.1 (estimate_le hP hb0 hvb hc.2.1 hc.2.2) hq hM

end Sys2Proof.Machine
end

