-- ==== Sys2Proof/Laws/State.lean ====
section
/-! SUPPORT. One lemma per field per update of State, and the reads through every update. -/

namespace Sys2Proof.Machine

variable (s : State)

@[simp] theorem State.writeV_params (i : VReg) (n : Nat) : (s.writeV i n).params = s.params := rfl
@[simp] theorem State.writeV_v (i : VReg) (n : Nat) : (s.writeV i n).v = s.v.set i n := rfl
@[simp] theorem State.writeV_x (i : VReg) (n : Nat) : (s.writeV i n).x = s.x := rfl
@[simp] theorem State.writeV_st (i : VReg) (n : Nat) : (s.writeV i n).st = s.st := rfl
@[simp] theorem State.writeV_fcmd (i : VReg) (n : Nat) : (s.writeV i n).fcmd = s.fcmd := rfl
@[simp] theorem State.writeV_cmd (i : VReg) (n : Nat) : (s.writeV i n).cmd = s.cmd := rfl
@[simp] theorem State.writeV_lmem (i : VReg) (n : Nat) : (s.writeV i n).lmem = s.lmem := rfl
@[simp] theorem State.writeV_rst (i : VReg) (n : Nat) : (s.writeV i n).rst = s.rst := rfl
@[simp] theorem State.writeV_host (i : VReg) (n : Nat) : (s.writeV i n).host = s.host := rfl
@[simp] theorem State.writeV_hostData (i : VReg) (n : Nat) : (s.writeV i n).hostData = s.hostData := rfl
@[simp] theorem State.writeV_epoch (i : VReg) (n : Nat) : (s.writeV i n).epoch = s.epoch := rfl
@[simp] theorem State.writeV_draws (i : VReg) (n : Nat) : (s.writeV i n).draws = s.draws := rfl
@[simp] theorem State.writeV_B (i : VReg) (n : Nat) : (s.writeV i n).B = s.B := rfl
@[simp] theorem State.readX_writeV (i : VReg) (n : Nat) (j : XReg) : (s.writeV i n).readX j = s.readX j := rfl
@[simp] theorem State.readLmem_writeV (i : VReg) (n : Nat) (c : Nat) : (s.writeV i n).readLmem c = s.readLmem c := rfl

@[simp] theorem State.writeX_params (i : XReg) (w : Word) : (s.writeX i w).params = s.params := rfl
@[simp] theorem State.writeX_v (i : XReg) (w : Word) : (s.writeX i w).v = s.v := rfl
@[simp] theorem State.writeX_x (i : XReg) (w : Word) : (s.writeX i w).x = s.x.set i w := rfl
@[simp] theorem State.writeX_st (i : XReg) (w : Word) : (s.writeX i w).st = s.st := rfl
@[simp] theorem State.writeX_fcmd (i : XReg) (w : Word) : (s.writeX i w).fcmd = s.fcmd := rfl
@[simp] theorem State.writeX_cmd (i : XReg) (w : Word) : (s.writeX i w).cmd = s.cmd := rfl
@[simp] theorem State.writeX_lmem (i : XReg) (w : Word) : (s.writeX i w).lmem = s.lmem := rfl
@[simp] theorem State.writeX_rst (i : XReg) (w : Word) : (s.writeX i w).rst = s.rst := rfl
@[simp] theorem State.writeX_host (i : XReg) (w : Word) : (s.writeX i w).host = s.host := rfl
@[simp] theorem State.writeX_hostData (i : XReg) (w : Word) : (s.writeX i w).hostData = s.hostData := rfl
@[simp] theorem State.writeX_epoch (i : XReg) (w : Word) : (s.writeX i w).epoch = s.epoch := rfl
@[simp] theorem State.writeX_draws (i : XReg) (w : Word) : (s.writeX i w).draws = s.draws := rfl
@[simp] theorem State.writeX_B (i : XReg) (w : Word) : (s.writeX i w).B = s.B := rfl
@[simp] theorem State.readV_writeX (i : XReg) (w : Word) (j : VReg) : (s.writeX i w).readV j = s.readV j := rfl
@[simp] theorem State.readLmem_writeX (i : XReg) (w : Word) (c : Nat) : (s.writeX i w).readLmem c = s.readLmem c := rfl

@[simp] theorem State.writeLmem_params (a : Nat) (w : Word) : (s.writeLmem a w).params = s.params := rfl
@[simp] theorem State.writeLmem_v (a : Nat) (w : Word) : (s.writeLmem a w).v = s.v := rfl
@[simp] theorem State.writeLmem_x (a : Nat) (w : Word) : (s.writeLmem a w).x = s.x := rfl
@[simp] theorem State.writeLmem_st (a : Nat) (w : Word) : (s.writeLmem a w).st = s.st := rfl
@[simp] theorem State.writeLmem_fcmd (a : Nat) (w : Word) : (s.writeLmem a w).fcmd = s.fcmd := rfl
@[simp] theorem State.writeLmem_cmd (a : Nat) (w : Word) : (s.writeLmem a w).cmd = s.cmd := rfl
@[simp] theorem State.writeLmem_lmem (a : Nat) (w : Word) : (s.writeLmem a w).lmem = Memory.write s.lmem a w := rfl
@[simp] theorem State.writeLmem_rst (a : Nat) (w : Word) : (s.writeLmem a w).rst = s.rst := rfl
@[simp] theorem State.writeLmem_host (a : Nat) (w : Word) : (s.writeLmem a w).host = s.host := rfl
@[simp] theorem State.writeLmem_hostData (a : Nat) (w : Word) : (s.writeLmem a w).hostData = s.hostData := rfl
@[simp] theorem State.writeLmem_epoch (a : Nat) (w : Word) : (s.writeLmem a w).epoch = s.epoch := rfl
@[simp] theorem State.writeLmem_draws (a : Nat) (w : Word) : (s.writeLmem a w).draws = s.draws := rfl
@[simp] theorem State.writeLmem_B (a : Nat) (w : Word) : (s.writeLmem a w).B = s.B := rfl
@[simp] theorem State.readV_writeLmem (a : Nat) (w : Word) (j : VReg) : (s.writeLmem a w).readV j = s.readV j := rfl
@[simp] theorem State.readX_writeLmem (a : Nat) (w : Word) (j : XReg) : (s.writeLmem a w).readX j = s.readX j := rfl

@[simp] theorem State.setOvf_params (b : Bool) : (s.setOvf b).params = s.params := rfl
@[simp] theorem State.setOvf_v (b : Bool) : (s.setOvf b).v = s.v := rfl
@[simp] theorem State.setOvf_x (b : Bool) : (s.setOvf b).x = s.x := rfl
@[simp] theorem State.setOvf_st (b : Bool) : (s.setOvf b).st = { s.st with ovf := b } := rfl
@[simp] theorem State.setOvf_fcmd (b : Bool) : (s.setOvf b).fcmd = s.fcmd := rfl
@[simp] theorem State.setOvf_cmd (b : Bool) : (s.setOvf b).cmd = s.cmd := rfl
@[simp] theorem State.setOvf_lmem (b : Bool) : (s.setOvf b).lmem = s.lmem := rfl
@[simp] theorem State.setOvf_rst (b : Bool) : (s.setOvf b).rst = s.rst := rfl
@[simp] theorem State.setOvf_host (b : Bool) : (s.setOvf b).host = s.host := rfl
@[simp] theorem State.setOvf_hostData (b : Bool) : (s.setOvf b).hostData = s.hostData := rfl
@[simp] theorem State.setOvf_epoch (b : Bool) : (s.setOvf b).epoch = s.epoch := rfl
@[simp] theorem State.setOvf_draws (b : Bool) : (s.setOvf b).draws = s.draws := rfl
@[simp] theorem State.setOvf_B (b : Bool) : (s.setOvf b).B = s.B := rfl
@[simp] theorem State.readV_setOvf (b : Bool) (j : VReg) : (s.setOvf b).readV j = s.readV j := rfl
@[simp] theorem State.readX_setOvf (b : Bool) (j : XReg) : (s.setOvf b).readX j = s.readX j := rfl
@[simp] theorem State.readLmem_setOvf (b : Bool) (c : Nat) : (s.setOvf b).readLmem c = s.readLmem c := rfl

@[simp] theorem State.setSgn_params (b : Bool) : (s.setSgn b).params = s.params := rfl
@[simp] theorem State.setSgn_v (b : Bool) : (s.setSgn b).v = s.v := rfl
@[simp] theorem State.setSgn_x (b : Bool) : (s.setSgn b).x = s.x := rfl
@[simp] theorem State.setSgn_st (b : Bool) : (s.setSgn b).st = { s.st with sgn := b } := rfl
@[simp] theorem State.setSgn_fcmd (b : Bool) : (s.setSgn b).fcmd = s.fcmd := rfl
@[simp] theorem State.setSgn_cmd (b : Bool) : (s.setSgn b).cmd = s.cmd := rfl
@[simp] theorem State.setSgn_lmem (b : Bool) : (s.setSgn b).lmem = s.lmem := rfl
@[simp] theorem State.setSgn_rst (b : Bool) : (s.setSgn b).rst = s.rst := rfl
@[simp] theorem State.setSgn_host (b : Bool) : (s.setSgn b).host = s.host := rfl
@[simp] theorem State.setSgn_hostData (b : Bool) : (s.setSgn b).hostData = s.hostData := rfl
@[simp] theorem State.setSgn_epoch (b : Bool) : (s.setSgn b).epoch = s.epoch := rfl
@[simp] theorem State.setSgn_draws (b : Bool) : (s.setSgn b).draws = s.draws := rfl
@[simp] theorem State.setSgn_B (b : Bool) : (s.setSgn b).B = s.B := rfl
@[simp] theorem State.readV_setSgn (b : Bool) (j : VReg) : (s.setSgn b).readV j = s.readV j := rfl
@[simp] theorem State.readX_setSgn (b : Bool) (j : XReg) : (s.setSgn b).readX j = s.readX j := rfl
@[simp] theorem State.readLmem_setSgn (b : Bool) (c : Nat) : (s.setSgn b).readLmem c = s.readLmem c := rfl

@[simp] theorem State.done_params : (s.done).params = s.params := rfl
@[simp] theorem State.done_v : (s.done).v = s.v := rfl
@[simp] theorem State.done_x : (s.done).x = s.x := rfl
@[simp] theorem State.done_st : (s.done).st = { s.st with abs := false, kind := none } := rfl
@[simp] theorem State.done_fcmd : (s.done).fcmd = s.fcmd := rfl
@[simp] theorem State.done_cmd : (s.done).cmd = s.cmd := rfl
@[simp] theorem State.done_lmem : (s.done).lmem = s.lmem := rfl
@[simp] theorem State.done_rst : (s.done).rst = s.rst := rfl
@[simp] theorem State.done_host : (s.done).host = s.host := rfl
@[simp] theorem State.done_hostData : (s.done).hostData = s.hostData := rfl
@[simp] theorem State.done_epoch : (s.done).epoch = s.epoch := rfl
@[simp] theorem State.done_draws : (s.done).draws = s.draws := rfl
@[simp] theorem State.done_B : (s.done).B = s.B := rfl
@[simp] theorem State.readV_done (j : VReg) : (s.done).readV j = s.readV j := rfl
@[simp] theorem State.readX_done (j : XReg) : (s.done).readX j = s.readX j := rfl
@[simp] theorem State.readLmem_done (c : Nat) : (s.done).readLmem c = s.readLmem c := rfl

@[simp] theorem State.absent_params (k : Kind) : (s.absent k).params = s.params := rfl
@[simp] theorem State.absent_v (k : Kind) : (s.absent k).v = s.v := rfl
@[simp] theorem State.absent_x (k : Kind) : (s.absent k).x = s.x := rfl
@[simp] theorem State.absent_st (k : Kind) : (s.absent k).st = { s.st with abs := true, kind := some k } := rfl
@[simp] theorem State.absent_fcmd (k : Kind) : (s.absent k).fcmd = s.fcmd := rfl
@[simp] theorem State.absent_cmd (k : Kind) : (s.absent k).cmd = s.cmd := rfl
@[simp] theorem State.absent_lmem (k : Kind) : (s.absent k).lmem = s.lmem := rfl
@[simp] theorem State.absent_rst (k : Kind) : (s.absent k).rst = s.rst := rfl
@[simp] theorem State.absent_host (k : Kind) : (s.absent k).host = s.host := rfl
@[simp] theorem State.absent_hostData (k : Kind) : (s.absent k).hostData = s.hostData := rfl
@[simp] theorem State.absent_epoch (k : Kind) : (s.absent k).epoch = s.epoch := rfl
@[simp] theorem State.absent_draws (k : Kind) : (s.absent k).draws = s.draws := rfl
@[simp] theorem State.absent_B (k : Kind) : (s.absent k).B = s.B := rfl
@[simp] theorem State.readV_absent (k : Kind) (j : VReg) : (s.absent k).readV j = s.readV j := rfl
@[simp] theorem State.readX_absent (k : Kind) (j : XReg) : (s.absent k).readX j = s.readX j := rfl
@[simp] theorem State.readLmem_absent (k : Kind) (c : Nat) : (s.absent k).readLmem c = s.readLmem c := rfl

@[simp] theorem State.trap_params (k : Kind) : (s.trap k).params = s.params := rfl
@[simp] theorem State.trap_v (k : Kind) : (s.trap k).v = s.v := rfl
@[simp] theorem State.trap_x (k : Kind) : (s.trap k).x = s.x := rfl
@[simp] theorem State.trap_st (k : Kind) : (s.trap k).st = { s.st with fault := true, kind := some k } := rfl
@[simp] theorem State.trap_fcmd (k : Kind) : (s.trap k).fcmd = s.cmd.setWidth 64 := rfl
@[simp] theorem State.trap_cmd (k : Kind) : (s.trap k).cmd = s.cmd := rfl
@[simp] theorem State.trap_lmem (k : Kind) : (s.trap k).lmem = s.lmem := rfl
@[simp] theorem State.trap_rst (k : Kind) : (s.trap k).rst = s.rst := rfl
@[simp] theorem State.trap_host (k : Kind) : (s.trap k).host = s.host := rfl
@[simp] theorem State.trap_hostData (k : Kind) : (s.trap k).hostData = s.hostData := rfl
@[simp] theorem State.trap_epoch (k : Kind) : (s.trap k).epoch = s.epoch := rfl
@[simp] theorem State.trap_draws (k : Kind) : (s.trap k).draws = s.draws := rfl
@[simp] theorem State.trap_B (k : Kind) : (s.trap k).B = s.B := rfl
@[simp] theorem State.readV_trap (k : Kind) (j : VReg) : (s.trap k).readV j = s.readV j := rfl
@[simp] theorem State.readX_trap (k : Kind) (j : XReg) : (s.trap k).readX j = s.readX j := rfl
@[simp] theorem State.readLmem_trap (k : Kind) (c : Nat) : (s.trap k).readLmem c = s.readLmem c := rfl

/-- A wide write is read back, and no other wide register changes (00_scope.md R10). -/
@[simp] theorem State.readV_writeV (i : VReg) (n : Nat) (j : VReg) :
    (s.writeV i n).readV j = if j = i then n else s.readV j := by
  unfold State.readV State.writeV
  by_cases h : j = i
  · subst h; simp
  · simp [h, Fin.val_ne_of_ne (Ne.symm h)]

/-- A scalar write is read back, and no other scalar register changes (R10). -/
@[simp] theorem State.readX_writeX (i : XReg) (w : Word) (j : XReg) :
    (s.writeX i w).readX j = if j = i then w else s.readX j := by
  unfold State.readX State.writeX
  by_cases h : j = i
  · subst h; simp
  · simp [h, Fin.val_ne_of_ne (Ne.symm h)]

/-- Two states are equal when every field is. -/
theorem State.ext_fields {s t : State} (h1 : s.params = t.params) (h2 : s.v = t.v) (h3 : s.x = t.x)
    (h4 : s.st = t.st) (h5 : s.fcmd = t.fcmd) (h6 : s.cmd = t.cmd) (h7 : s.lmem = t.lmem) (h8 : s.rst = t.rst)
    (h9 : s.host = t.host) (h10 : s.hostData = t.hostData) (h11 : s.epoch = t.epoch)
    (h12 : s.draws = t.draws) : s = t := by
  cases s; cases t; simp_all

/-- Every register of a state right after reset (10_state.md R39). -/
@[simp] theorem State.readV_resetOf (p : Params) (i : VReg) : (State.resetOf p).readV i = 0 := by
  simp [State.readV, State.resetOf]

@[simp] theorem State.readX_resetOf (p : Params) (i : XReg) : (State.resetOf p).readX i = 0 := by
  simp [State.readX, State.resetOf]

@[simp] theorem State.readV_afterReset (i : VReg) : s.afterReset.readV i = 0 := by
  simp [State.readV, State.afterReset, State.resetOf]

@[simp] theorem State.readX_afterReset (i : XReg) : s.afterReset.readX i = 0 := by
  simp [State.readX, State.afterReset, State.resetOf]

end Sys2Proof.Machine
end

