-- ==== Sys2Proof/Laws/Memory.lean ====
section
/-! SUPPORT. Limb memory: read after write, the frame of a write, and that every memory operation keeps the
canonical form (20_memory.md R54, R55). -/

namespace Sys2Proof.Machine

/-- Read after write, and the frame of a write. -/
theorem Memory.find_write (m : Memory) (a : Nat) (w : Word) (b : Nat) :
    Memory.find (Memory.write m a w) b = if b = a then some w else Memory.find m b := by
  induction m with
  | nil => simp [Memory.write, Memory.find]
  | cons p rest ih =>
    obtain ⟨k, u⟩ := p
    simp only [Memory.write]
    split
    · simp only [Memory.find]
    · split
      · subst_vars; simp only [Memory.find]; split <;> simp_all
      · simp only [Memory.find, ih]; split
        · subst_vars; split <;> simp_all
        · rfl

/-- The indices listed after a write. -/
theorem Memory.mem_write {m : Memory} {a : Nat} {w : Word} {p : Nat × Word} (h : p ∈ Memory.write m a w) :
    p = (a, w) ∨ p ∈ m := by
  induction m with
  | nil => simpa [Memory.write] using h
  | cons q rest ih =>
    obtain ⟨k, u⟩ := q
    simp only [Memory.write] at h
    split at h
    · simpa using h
    · split at h
      · simp only [List.mem_cons] at h ⊢; tauto
      · simp only [List.mem_cons] at h ⊢
        rcases h with h | h
        · tauto
        · rcases ih h with h | h <;> tauto

/-- A write keeps the canonical form. -/
theorem Memory.wf_write {m : Memory} (h : m.wf) (a : Nat) (w : Word) : (Memory.write m a w).wf := by
  induction m with
  | nil => simp [Memory.write, Memory.wf]
  | cons q rest ih =>
    obtain ⟨k, u⟩ := q
    simp only [Memory.wf, List.pairwise_cons] at h ih
    obtain ⟨h1, h2⟩ := h
    simp only [Memory.write]
    split
    · simp only [Memory.wf, List.pairwise_cons, List.mem_cons]
      refine ⟨?_, h1, h2⟩
      rintro p (rfl | hp)
      · assumption
      · have := h1 p hp; simp at this ⊢; omega
    · split
      · subst_vars; simp only [Memory.wf, List.pairwise_cons]; exact ⟨h1, h2⟩
      · simp only [Memory.wf, List.pairwise_cons]
        refine ⟨fun p hp => ?_, ih h2⟩
        rcases Memory.mem_write hp with rfl | hp
        · simp; omega
        · exact h1 p hp

/-- An index below every listed one is not listed. -/
theorem Memory.find_eq_none_of_lt {m : Memory} {a : Nat} (h : ∀ p ∈ m, a < p.1) : Memory.find m a = none := by
  induction m with
  | nil => rfl
  | cons q rest ih =>
    obtain ⟨k, u⟩ := q
    have hk : a < k := h (k, u) (by simp)
    simp only [Memory.find, show a ≠ k by omega, if_false]
    exact ih fun p hp => h p (by simp [hp])

/-- Equal memories are equal lists: two memories in canonical form that list the same words are the same. -/
theorem Memory.ext_of_find : ∀ {m n : Memory}, m.wf → n.wf → (∀ a, Memory.find m a = Memory.find n a) → m = n
  | [], [], _, _, _ => rfl
  | [], (k, u) :: n, _, _, h => by simpa [Memory.find] using h k
  | (k, u) :: m, [], _, _, h => by simpa [Memory.find] using h k
  | (k, u) :: m, (l, w) :: n, hm, hn, h => by
    simp only [Memory.wf, List.pairwise_cons] at hm hn
    have hkl : k = l := by
      rcases Nat.lt_trichotomy k l with hlt | heq | hgt
      · have := h k
        rw [Memory.find_eq_none_of_lt (m := (l, w) :: n)] at this
        · simp [Memory.find] at this
        · intro p hp; simp only [List.mem_cons] at hp
          rcases hp with rfl | hp
          · exact hlt
          · exact Nat.lt_trans hlt (hn.1 p hp)
      · exact heq
      · have := h l
        rw [Memory.find_eq_none_of_lt (m := (k, u) :: m)] at this
        · simp [Memory.find] at this
        · intro p hp; simp only [List.mem_cons] at hp
          rcases hp with rfl | hp
          · exact hgt
          · exact Nat.lt_trans hgt (hm.1 p hp)
    subst hkl
    have hu : u = w := by simpa [Memory.find] using h k
    subst hu
    rw [Memory.ext_of_find hm.2 hn.2]
    intro a
    by_cases ha : a = k
    · subst ha; rw [Memory.find_eq_none_of_lt hm.1, Memory.find_eq_none_of_lt hn.1]
    · simpa [Memory.find, ha] using h a

/-- A word write is read back, and every other word reads as before. -/
@[simp] theorem State.readLmem_writeLmem (s : State) (a : Nat) (w : Word) (b : Nat) :
    (s.writeLmem a w).readLmem b = if b = a then w else s.readLmem b := by
  simp only [State.readLmem, State.writeLmem_lmem, State.writeLmem_epoch, Memory.find_write]
  split <;> rfl

/-- The words of a slice, one by one (R54). -/
theorem State.readWords_getElem? (s : State) (n : Nat) : ∀ a j, j < n →
    (s.readWords a n)[j]? = some (s.readLmem (a + j)) := by
  induction n with
  | zero => intro a j h; omega
  | succ n ih =>
    intro a j h
    cases j with
    | zero => rfl
    | succ j =>
      simp only [State.readWords, List.getElem?_cons_succ]
      rw [ih (a + 1) j (by omega)]
      congr 2; omega

@[simp] theorem State.length_readWords (s : State) (n : Nat) : ∀ a, (s.readWords a n).length = n := by
  induction n with
  | zero => intro a; rfl
  | succ n ih => intro a; simp [State.readWords, ih]

/-- Everything a store of words does: it changes limb memory alone, word by word (R55). -/
theorem State.writeWords_spec (ws : List Word) : ∀ (s : State) (a : Nat),
    (∀ b, (s.writeWords a ws).readLmem b =
      if a ≤ b ∧ b < a + ws.length then ws.getD (b - a) 0 else s.readLmem b) ∧
    s.writeWords a ws = { s with lmem := (s.writeWords a ws).lmem } := by
  induction ws with
  | nil =>
    intro s a
    refine ⟨fun b => ?_, rfl⟩
    rw [if_neg (by simp)]; rfl
  | cons w ws ih =>
    intro s a
    obtain ⟨h1, h2⟩ := ih (s.writeLmem a w) (a + 1)
    refine ⟨fun b => ?_, ?_⟩
    · simp only [State.writeWords]
      rw [h1 b]
      simp only [State.readLmem_writeLmem, List.length_cons]
      by_cases hb : b = a
      · subst hb; simp
      · by_cases hlt : a + 1 ≤ b ∧ b < a + 1 + ws.length
        · rw [if_pos hlt, if_pos (by omega), show b - a = (b - (a + 1)) + 1 by omega]
          simp
        · rw [if_neg hlt, if_neg hb, if_neg (by omega)]
    · simp only [State.writeWords]
      rw [h2]
      rfl

/-- Every memory operation keeps the canonical form. -/
theorem State.wf_writeWords (ws : List Word) : ∀ (s : State) (a : Nat), s.lmem.wf → (s.writeWords a ws).lmem.wf := by
  induction ws with
  | nil => exact fun s a h => h
  | cons w ws ih => exact fun s a h => ih _ _ (Memory.wf_write h a w)

/-- A store of words lists no index outside the stored ones that was not listed before. -/
theorem State.mem_writeWords (ws : List Word) : ∀ (s : State) (a : Nat) (p : Nat × Word),
    p ∈ (s.writeWords a ws).lmem → (a ≤ p.1 ∧ p.1 < a + ws.length) ∨ p ∈ s.lmem := by
  induction ws with
  | nil => exact fun s a p h => .inr h
  | cons w ws ih =>
    intro s a p h
    rcases ih _ _ p h with h | h
    · left; simp only [List.length_cons]; omega
    · rcases Memory.mem_write h with rfl | h
      · left; simp
      · exact .inr h

/-- Reset memory has the canonical form. -/
theorem State.wf_resetOf (p : Params) : (State.resetOf p).lmem.wf := List.Pairwise.nil

/-- Two spellings of an in-range slice: `memRead` and `slice` answer the words exactly when the range check
passes (R54). -/
theorem State.memRead_eq (s : State) (a n : Nat) :
    s.memRead a n = if a + n ≤ s.params.nlmem.val then some (s.readWords a n) else none := by
  unfold State.memRead State.lmemInRange
  split <;> split <;> simp_all

theorem State.memWrite_eq (s : State) (a : Nat) (ws : List Word) :
    s.memWrite a ws = if a + ws.length ≤ s.params.nlmem.val then some (s.writeWords a ws) else none := by
  unfold State.memWrite State.lmemInRange
  split <;> split <;> simp_all

end Sys2Proof.Machine
end

