-- ==== Sys2Proof/Laws/Modular.lean ====
section
/-! SUPPORT. One lemma per function of the modular unit and the gcd engine (43_modular.md R214 to R229). -/

namespace Sys2Proof.Machine

theorem powModLoop_spec {m a x : Nat} : ∀ (i p : Nat), p = x / 2 ^ i →
    powModLoop m a x i (a ^ p % m) = a ^ x % m := by
  intro i
  induction i with
  | zero => intro p hp; simp at hp; subst hp; rfl
  | succ i ih =>
    intro p hp
    have hq : x / 2 ^ i = 2 * p + (x.testBit i).toNat := by
      rw [hp, Nat.pow_succ, ← Nat.div_div_eq_div_mul, Nat.testBit_eq_decide_div_mod_eq]
      rcases Nat.mod_two_eq_zero_or_one (x / 2 ^ i) with h | h <;> simp [h] <;> omega
    have hsq : a ^ p % m * (a ^ p % m) % m = a ^ (2 * p) % m := by
      rw [← Nat.mul_mod, ← Nat.pow_add, Nat.two_mul]
    simp only [powModLoop, hsq]
    split
    · rename_i hb
      rw [Nat.mod_mul_mod, ← Nat.pow_succ]
      exact ih _ (by rw [hq, hb]; rfl)
    · rename_i hb
      exact ih _ (by rw [hq]; simp [hb])

/-- R214: `a^x mod m`. -/
theorem powMod_spec (m a x : Nat) : powMod m a x = a ^ x % m := by
  have := powModLoop_spec (m := m) (a := a) (x := x) (bitLen x) 0
    (by rw [Nat.div_eq_of_lt (bitLen_spec x).1])
  simpa [powMod] using this

theorem euclidLoop_spec {a m : Nat} (hm : m ≠ 0) : ∀ (n r0 r1 t0 t1 : Nat), r1 < n → t0 < m → t1 < m →
    a * t0 ≡ r0 [MOD m] → a * t1 ≡ r1 [MOD m] →
    euclidLoop m n r0 r1 t0 t1 < m ∧ a * euclidLoop m n r0 r1 t0 t1 ≡ Nat.gcd r0 r1 [MOD m] := by
  intro n
  induction n with
  | zero => intro r0 r1 t0 t1 h; omega
  | succ n ih =>
    intro r0 r1 t0 t1 hn h0 h1 e0 e1
    simp only [euclidLoop]
    split
    · subst_vars; exact ⟨h0, by simpa using e0⟩
    · rename_i hr
      have hlt := Nat.mod_lt r0 (Nat.pos_of_ne_zero hr)
      have hq := Nat.div_add_mod r0 r1
      have hml : r0 / r1 * t1 % m < m := Nat.mod_lt _ (Nat.pos_of_ne_zero hm)
      have key : a * ((t0 + (m - r0 / r1 * t1 % m)) % m) ≡ r0 % r1 [MOD m] := by
        have e2 : a * ((t0 + (m - r0 / r1 * t1 % m)) % m) ≡ a * (t0 + (m - r0 / r1 * t1 % m)) [MOD m] :=
          Nat.ModEq.mul_left _ (Nat.mod_modEq _ _)
        refine e2.trans ?_
        have e3 : a * (t0 + (m - r0 / r1 * t1 % m)) + r0 / r1 * (a * t1) ≡ r0 % r1 + r0 / r1 * (a * t1) [MOD m] := by
          have l : a * (t0 + (m - r0 / r1 * t1 % m)) + r0 / r1 * (a * t1) ≡ a * t0 [MOD m] := by
            have s : r0 / r1 * (a * t1) = a * (r0 / r1 * t1) := by ring
            rw [s, ← Nat.mul_add]
            have u : t0 + (m - r0 / r1 * t1 % m) + r0 / r1 * t1 ≡ t0 [MOD m] := by
              have d := Nat.div_add_mod (r0 / r1 * t1) m
              have : t0 + (m - r0 / r1 * t1 % m) + r0 / r1 * t1 = t0 + m * (r0 / r1 * t1 / m + 1) := by
                rw [Nat.mul_add, Nat.mul_one]; omega
              rw [this]
              exact Nat.add_mul_mod_self_left _ _ _
            exact Nat.ModEq.mul_left _ u
          have r : r0 % r1 + r0 / r1 * (a * t1) ≡ r0 [MOD m] := by
            have v : r0 % r1 + r0 / r1 * (a * t1) ≡ r0 % r1 + r0 / r1 * r1 [MOD m] :=
              Nat.ModEq.add_left _ (Nat.ModEq.mul_left _ e1)
            have w : r0 % r1 + r0 / r1 * r1 = r0 := by rw [Nat.mul_comm]; omega
            rwa [w] at v
          exact (l.trans e0).trans r.symm
        exact Nat.ModEq.add_right_cancel' _ e3
      have h := ih r1 (r0 % r1) t1 _ (by omega) h1 (Nat.mod_lt _ (Nat.pos_of_ne_zero hm)) e1 key
      refine ⟨h.1, ?_⟩
      have hg : Nat.gcd r1 (r0 % r1) = Nat.gcd r0 r1 := by
        rw [Nat.gcd_comm r1, ← Nat.gcd_rec, Nat.gcd_comm]
      rw [← hg]; exact h.2

/-- R215: a `t < m` with `a·t ≡ gcd(a, m) (mod m)`. -/
theorem cofactorMod_spec {m : Nat} (hm : m ≠ 0) (a : Nat) :
    cofactorMod a m < m ∧ a * cofactorMod a m ≡ Nat.gcd a m [MOD m] := by
  have hpos := Nat.pos_of_ne_zero hm
  have h := euclidLoop_spec (a := a) hm (m + 1) m (a % m) 0 (1 % m)
    (by have := Nat.mod_lt a hpos; omega) hpos (Nat.mod_lt _ hpos)
    (by have : m ≡ 0 [MOD m] := Nat.mod_self m
        simpa using this.symm)
    (by
      have h1 : a * (1 % m) ≡ a * 1 [MOD m] := Nat.ModEq.mul_left _ (Nat.mod_modEq _ _)
      have h2 : a * 1 ≡ a % m [MOD m] := by rw [Nat.mul_one]; exact (Nat.mod_modEq _ _).symm
      exact h1.trans h2)
  rw [Nat.gcd_comm, ← Nat.gcd_rec, Nat.gcd_comm] at h
  exact h

/-- R216: the inverse of a unit, for `m ≥ 2`. -/
theorem cofactorMod_inverse {a m : Nat} (hm : 2 ≤ m) (hg : Nat.gcd (a % m) m = 1) :
    cofactorMod a m < m ∧ a * cofactorMod a m % m = 1 := by
  obtain ⟨h1, h2⟩ := cofactorMod_spec (m := m) (by omega) a
  have hg' : Nat.gcd a m = 1 := by rw [Nat.gcd_comm, Nat.gcd_rec]; exact hg
  rw [hg'] at h2
  refine ⟨h1, ?_⟩
  have := h2
  rw [Nat.ModEq, Nat.mod_eq_of_lt (show 1 < m by omega)] at this
  exact this

/-- The loop of R218: it keeps `t` modulo `m`, clears the low limbs, and adds less than `m·2^(64i)`. -/
theorem redcLoop_spec {m inv ab : Nat} (hinv : inv * m % 2 ^ 64 = 2 ^ 64 - 1) : ∀ (n i t : Nat),
    t % 2 ^ (64 * i) = 0 → t ≡ ab [MOD m] → t + m ≤ ab + m * 2 ^ (64 * i) →
    redcLoop m inv n i t % 2 ^ (64 * (i + n)) = 0 ∧ redcLoop m inv n i t ≡ ab [MOD m] ∧
    redcLoop m inv n i t + m ≤ ab + m * 2 ^ (64 * (i + n)) := by
  intro n
  induction n with
  | zero => intro i t h1 h2 h3; exact ⟨h1, h2, h3⟩
  | succ n ih =>
    intro i t h1 h2 h3
    simp only [redcLoop]
    have hq : t / 2 ^ (64 * i) % 2 ^ 64 * inv % 2 ^ 64 < 2 ^ 64 := Nat.mod_lt _ (by norm_num)
    obtain ⟨u, rfl⟩ : 2 ^ (64 * i) ∣ t := Nat.dvd_of_mod_eq_zero h1
    have hpos := Nat.two_pow_pos (64 * i)
    rw [Nat.mul_div_cancel_left _ hpos] at hq ⊢
    have hpow : 2 ^ (64 * (i + 1)) = 2 ^ (64 * i) * 2 ^ 64 := by rw [← Nat.pow_add]; congr 1
    have hz : (u + u % 2 ^ 64 * inv % 2 ^ 64 * m) % 2 ^ 64 = 0 := by
      have e1 : u + u % 2 ^ 64 * inv % 2 ^ 64 * m ≡ u + u * (inv * m) [MOD 2 ^ 64] := by
        apply Nat.ModEq.add_left
        have e : u % 2 ^ 64 * inv % 2 ^ 64 ≡ u * inv [MOD 2 ^ 64] :=
          (Nat.mod_modEq _ _).trans (Nat.ModEq.mul_right _ (Nat.mod_modEq _ _))
        have := Nat.ModEq.mul_right m e
        rwa [Nat.mul_assoc u] at this
      have e2 : u + u * (inv * m) ≡ u + u * (2 ^ 64 - 1) [MOD 2 ^ 64] := by
        apply Nat.ModEq.add_left; apply Nat.ModEq.mul_left
        rw [Nat.ModEq, hinv]; rfl
      have e3 : u + u * (2 ^ 64 - 1) = 2 ^ 64 * u := by omega
      rw [e3] at e2
      have := e1.trans e2
      rw [Nat.ModEq, Nat.mul_mod_right] at this
      exact this
    generalize hqq : u % 2 ^ 64 * inv % 2 ^ 64 = q at *
    have hsum : 2 ^ (64 * i) * u + q * m * 2 ^ (64 * i) = 2 ^ (64 * i) * (u + q * m) := by ring
    rw [hsum]
    have hi : i + (n + 1) = i + 1 + n := by omega
    rw [hi]
    apply ih
    · rw [hpow]
      obtain ⟨k, hk⟩ := Nat.dvd_of_mod_eq_zero hz
      rw [hk, ← Nat.mul_assoc, Nat.mul_mod_right]
    · have : 2 ^ (64 * i) * (u + q * m) = 2 ^ (64 * i) * u + 2 ^ (64 * i) * q * m := by ring
      rw [this]
      have e : 2 ^ (64 * i) * u + 2 ^ (64 * i) * q * m ≡ 2 ^ (64 * i) * u [MOD m] := Nat.add_mul_mod_self_right _ _ _
      exact e.trans h2
    · rw [Nat.mul_add, hpow]
      have hle : q + 1 ≤ 2 ^ 64 := hq
      have : 2 ^ (64 * i) * m * (q + 1) ≤ 2 ^ (64 * i) * m * 2 ^ 64 := Nat.mul_le_mul_left _ hle
      have e1 : 2 ^ (64 * i) * m * (q + 1) = 2 ^ (64 * i) * (q * m) + m * 2 ^ (64 * i) := by ring
      have e2 : 2 ^ (64 * i) * m * 2 ^ 64 = m * (2 ^ (64 * i) * 2 ^ 64) := by ring
      rw [e1, e2] at this
      omega

/-- The last step of R218: the high half is below `2m`, and one conditional subtraction reduces it. -/
theorem redc_final {R t m ab : Nat} (hm : m < R) (hab : ab ≤ m * m) (h1 : t % R = 0) (h2 : t ≡ ab [MOD m])
    (h3 : t + m ≤ ab + m * R) (h0 : 0 < m) :
    (if m ≤ t / R then t / R - m else t / R) < m ∧ (if m ≤ t / R then t / R - m else t / R) * R ≡ ab [MOD m] := by
  have hmR : m * m ≤ m * R := Nat.mul_le_mul_left _ (by omega)
  obtain ⟨u, rfl⟩ : R ∣ t := Nat.dvd_of_mod_eq_zero h1
  rw [Nat.mul_div_cancel_left _ (show 0 < R by omega)]
  have hu : u < 2 * m := by
    by_contra hge
    have : R * (2 * m) ≤ R * u := Nat.mul_le_mul_left _ (by omega)
    have e : R * (2 * m) = m * R + m * R := by ring
    omega
  split
  · refine ⟨by omega, ?_⟩
    have e : (u - m) * R ≡ u * R [MOD m] := by
      have : u * R = (u - m) * R + R * m := by
        rw [Nat.mul_comm R m, ← Nat.add_mul]; congr 1; omega
      rw [this]
      exact (Nat.add_mul_mod_self_right _ _ _).symm
    exact e.trans (by rw [Nat.mul_comm]; exact h2)
  · exact ⟨by omega, by rw [Nat.mul_comm]; exact h2⟩

/-- R218: the unique `r < m` with `r·R ≡ a·b (mod m)`. -/
theorem redcMul_spec {B a b m inv : Nat} (hB : m < 2 ^ B) (ha : a < m) (hb : b < m)
    (hinv : inv * m % 2 ^ 64 = 2 ^ 64 - 1) :
    redcMul B a b m inv < m ∧ redcMul B a b m inv * 2 ^ (64 * limbCount B) ≡ a * b [MOD m] := by
  obtain ⟨h1, h2, h3⟩ := redcLoop_spec (ab := a * b) hinv (limbCount B) 0 (a * b) (by simp [Nat.mod_one])
    (Nat.ModEq.refl _) (by simp)
  rw [Nat.zero_add] at h1 h3
  exact redc_final (lt_limbs hB) (Nat.mul_le_mul (by omega) (by omega)) h1 h2 h3 (by omega)

/-- R217: the word `inv·limb(m, 0)` and `inv·m` agree modulo `2^64`. -/
theorem mul_limb_zero (inv m : Nat) : inv * (limb m 0).toNat % 2 ^ 64 = inv * m % 2 ^ 64 := by
  simp [limb, Nat.mul_mod]

/-- R228: the model's own triple is admissible for any two wide values. -/
theorem admissible_someCofactors {B a b : Nat} (ha : a < 2 ^ B) (hb : b < 2 ^ B) :
    admissibleCofactors B a b (someCofactors a b) = true := by
  have hpos := Nat.two_pow_pos B
  unfold someCofactors
  by_cases hb0 : b = 0
  · subst hb0
    by_cases ha0 : a = 0
    · subst ha0; simp [admissibleCofactors]
    · have : B ≠ 0 := by rintro rfl; omega
      simp [admissibleCofactors, ha0, this]
  · by_cases ha0 : a = 0
    · have : B ≠ 0 := by rintro rfl; omega
      subst ha0; simp [admissibleCofactors, hb0, this]
    · simp only [hb0, ha0, if_false]
      obtain ⟨h1, h2⟩ := cofactorMod_spec hb0 a
      have hg1 := Nat.gcd_le_left b (Nat.pos_of_ne_zero ha0)
      have hg2 := Nat.gcd_le_right a (Nat.pos_of_ne_zero hb0)
      have key : ∀ x, x ≠ 0 → x ≤ b → a * x ≡ Nat.gcd a b [MOD b] →
          admissibleCofactors B a b (x, (a * x - Nat.gcd a b) / b, true) = true := by
        intro x hx hxb hmod
        have hax : a ≤ a * x := Nat.le_mul_of_pos_right _ (Nat.pos_of_ne_zero hx)
        have hdvd : b ∣ a * x - Nat.gcd a b := (Nat.modEq_iff_dvd' (by omega)).1 hmod.symm
        have hmul := Nat.mul_div_cancel' hdvd
        have hy : (a * x - Nat.gcd a b) / b < 2 ^ B := by
          apply Nat.lt_of_le_of_lt _ ha
          apply Nat.div_le_of_le_mul
          have : a * x ≤ b * a := by rw [Nat.mul_comm b]; exact Nat.mul_le_mul_left _ hxb
          omega
        simp only [admissibleCofactors, Bool.and_eq_true, decide_eq_true_eq, if_true]
        exact ⟨⟨by omega, hy⟩, by omega⟩
      by_cases ht : cofactorMod a b = 0
      · rw [if_pos ht]
        apply key 1 (by omega) (by omega)
        rw [ht, Nat.mul_zero] at h2
        have hgb : b ∣ Nat.gcd a b := (Nat.modEq_zero_iff_dvd).1 h2.symm
        have hba : b ∣ a := Nat.dvd_trans hgb (Nat.gcd_dvd_left a b)
        rw [Nat.mul_one]
        exact ((Nat.modEq_zero_iff_dvd).2 hba).trans h2
      · rw [if_neg ht]
        exact key _ ht (by omega) h2

/-- R228: whatever is drawn satisfies the relation. -/
theorem drawnCofactors_spec {B a b : Nat} (n : Nat) (ha : a < 2 ^ B) (hb : b < 2 ^ B) :
    (drawnCofactors n B a b).1 < 2 ^ B ∧ (drawnCofactors n B a b).2.1 < 2 ^ B ∧
    if (drawnCofactors n B a b).2.2 then
      a * (drawnCofactors n B a b).1 = b * (drawnCofactors n B a b).2.1 + Nat.gcd a b
    else b * (drawnCofactors n B a b).2.1 = a * (drawnCofactors n B a b).1 + Nat.gcd a b := by
  have h : admissibleCofactors B a b (drawnCofactors n B a b) = true := by
    unfold drawnCofactors
    split
    · assumption
    · exact admissible_someCofactors ha hb
  generalize drawnCofactors n B a b = t at h ⊢
  obtain ⟨x, y, sg⟩ := t
  cases sg <;> simp [admissibleCofactors] at h ⊢ <;> omega

/-- R228, U5: an admissible proposal is the triple drawn, so every admissible triple is possible. -/
theorem drawnCofactors_of_admissible {B a b n : Nat}
    (h : admissibleCofactors B a b (Config.freeCofactors n) = true) :
    drawnCofactors n B a b = Config.freeCofactors n := by
  rw [drawnCofactors, if_pos h]

/-- R229. -/
theorem exactLcm_spec (a b : Nat) : exactLcm a b = Nat.lcm a b := by
  unfold exactLcm
  split
  · rename_i h; rcases h with rfl | rfl <;> simp
  · rw [Nat.lcm, Nat.div_mul_right_comm (Nat.gcd_dvd_left a b)]

end Sys2Proof.Machine
end

