-- ==== Sys2Proof/Laws/Ops.lean ====
section
/-! SUPPORT. What each shared operation does, said once in the terms claims use: the three outcomes, the two
one-destination completions, the five flavours, the slice loads and the store (60_exceptions.md R323 to R325;
41_arith_flavours.md R130; 20_memory.md R54, R55). -/

namespace Sys2Proof.Machine

variable (s : State)

/-- `done` (R323). -/
theorem State.leaves_done : s.Leaves s.done s.readV s.readX s.readLmem s.st.afterDone s.fcmd s.draws :=
  ⟨fun _ => rfl, fun _ => rfl, fun _ => rfl, rfl, rfl, rfl, rfl, rfl, rfl, rfl, rfl, rfl⟩

/-- `absent(K)` (R324). -/
theorem State.leaves_absent (k : Kind) : s.Leaves (s.absent k) s.readV s.readX s.readLmem
    { s.st with abs := true, kind := some k } s.fcmd s.draws :=
  ⟨fun _ => rfl, fun _ => rfl, fun _ => rfl, rfl, rfl, rfl, rfl, rfl, rfl, rfl, rfl, rfl⟩

/-- `trap K` (R325). -/
theorem State.leaves_trap (k : Kind) : s.Leaves (s.trap k) s.readV s.readX s.readLmem
    { s.st with fault := true, kind := some k } (s.cmd.setWidth 64) s.draws :=
  ⟨fun _ => rfl, fun _ => rfl, fun _ => rfl, rfl, rfl, rfl, rfl, rfl, rfl, rfl, rfl, rfl⟩

/-- One wide destination. -/
theorem State.leaves_doneV (vd : VReg) (n : Nat) : s.Leaves (s.doneV vd n)
    (fun j => if j = vd then n else s.readV j) s.readX s.readLmem s.st.afterDone s.fcmd s.draws :=
  ⟨fun j => s.readV_writeV vd n j, fun _ => rfl, fun _ => rfl, rfl, rfl, rfl, rfl, rfl, rfl, rfl, rfl, rfl⟩

/-- One scalar destination. -/
theorem State.leaves_doneX (xd : XReg) (n : Nat) : s.Leaves (s.doneX xd n) s.readV
    (fun j => if j = xd then BitVec.ofNat 64 n else s.readX j) s.readLmem s.st.afterDone s.fcmd s.draws :=
  ⟨fun _ => rfl, fun j => s.readX_writeX xd _ j, fun _ => rfl, rfl, rfl, rfl, rfl, rfl, rfl, rfl, rfl, rfl⟩

/-- Flavour `.O` (R130). -/
theorem State.leaves_overflowing (vd : VReg) (t : Narrowed) : s.Leaves (s.overflowing vd t)
    (fun j => if j = vd then t.r else s.readV j) s.readX s.readLmem { s.st.afterDone with ovf := t.ovf }
    s.fcmd s.draws :=
  ⟨fun j => s.readV_writeV vd t.r j, fun _ => rfl, fun _ => rfl, rfl, rfl, rfl, rfl, rfl, rfl, rfl, rfl, rfl⟩

/-- The value of the words of a slice (20_memory.md R52). -/
theorem State.val_readWords (n : Nat) : ∀ a, val (s.readWords a n) = s.sliceValue a n := by
  induction n with
  | zero => intro a; rfl
  | succ n ih =>
    intro a
    rw [State.readWords, val_cons, ih, State.sliceValue, State.sliceValue, Finset.sum_range_succ']
    rw [Finset.mul_sum, Nat.add_comm]
    refine congrArg₂ (· + ·) (Finset.sum_congr rfl fun j _ => ?_) ?_
    · rw [show a + 1 + j = a + (j + 1) by omega, show 64 * (j + 1) = 64 + 64 * j by omega, Nat.pow_add,
        Nat.mul_left_comm]
    · rw [Nat.mul_zero, Nat.pow_zero, Nat.mul_one, Nat.add_zero]

/-- R108. -/
theorem fromSlice_spec (B : Nat) (ws : List Word) : (fromSlice B ws).r = val ws % 2 ^ B ∧
    (fromSlice B ws).ovf = decide (2 ^ B ≤ val ws) ∧ (fromSlice B ws).sat = maxValue B :=
  narrow_nat B (val ws)

/-- R54, R108: a slice load in and out of range. -/
theorem State.loadSlice_eq (xaddr xn : XReg) (f : Narrowed → State) :
    s.loadSlice xaddr xn f =
      if (s.readX xaddr).toNat + (s.readX xn).toNat ≤ s.params.nlmem.val then
        f (fromSlice s.B (s.readWords (s.readX xaddr).toNat (s.readX xn).toNat))
      else s.trap .lmemRange := by
  unfold State.loadSlice State.slice
  rw [State.memRead_eq]
  by_cases h : (s.readX xaddr).toNat + (s.readX xn).toNat ≤ s.params.nlmem.val
  · rw [if_pos h, if_pos h]
  · rw [if_neg h, if_neg h]

end Sys2Proof.Machine

namespace Sys2Proof

open Machine

/-- The contract of R130 for five commands whose meanings are the five flavours of one value triple; the plain one
is `.P` proper. -/
theorem FiveFlavours.of_narrowed {s : State} {p w c o sa : Instr} {vd : VReg} {t : Narrowed}
    (hp : exec p s = .next (s.plain vd t)) (hw : exec w s = .next (s.wrapping vd t))
    (hc : exec c s = .next (s.checked vd t)) (ho : exec o s = .next (s.overflowing vd t))
    (hs : exec sa s = .next (s.saturating vd t)) {r sat : Nat} {ovf : Prop} [Decidable ovf]
    (hr : t.r = r) (hov : t.ovf = decide ovf) (hsat : ovf → t.sat = sat) :
    FiveFlavours s p w c o sa vd r ovf sat s.params.debug := by
  subst hr
  refine ⟨⟨_, hw, s.leaves_doneV vd _⟩, fun h => ⟨_, hc, ?_⟩, fun h => ⟨_, hc, ?_⟩, fun h => ⟨_, ho, ?_⟩,
    fun h => ⟨_, ho, ?_⟩, fun h => ⟨_, hs, ?_⟩, fun h => ⟨_, hs, ?_⟩, fun h => ⟨_, hp, ?_⟩, fun h hd => ⟨_, hp, ?_⟩⟩
  · rw [State.checked, hov, decide_eq_false h]; exact s.leaves_doneV vd _
  · rw [State.checked, hov, decide_eq_true h]; exact s.leaves_absent _
  · have := s.leaves_overflowing vd t; rwa [hov, decide_eq_false h] at this
  · have := s.leaves_overflowing vd t; rwa [hov, decide_eq_true h] at this
  · rw [State.saturating, hov, decide_eq_false h]; exact s.leaves_doneV vd _
  · rw [State.saturating, hov, decide_eq_true h, if_pos rfl, hsat h]; exact s.leaves_doneV vd _
  · rw [State.plain, hov, if_neg (by simpa using h)]; exact s.leaves_doneV vd _
  · rw [State.plain, hov, decide_eq_true h, hd]; exact s.leaves_trap _

/-- The contract of R130 and R248 where the plain command never traps (the shifts). -/
theorem FiveFlavours.of_narrowed_noTrap {s : State} {p w c o sa : Instr} {vd : VReg} {t : Narrowed}
    (hp : exec p s = .next (s.wrapping vd t)) (hw : exec w s = .next (s.wrapping vd t))
    (hc : exec c s = .next (s.checked vd t)) (ho : exec o s = .next (s.overflowing vd t))
    (hs : exec sa s = .next (s.saturating vd t)) {r sat : Nat} {ovf : Prop} [Decidable ovf]
    (hr : t.r = r) (hov : t.ovf = decide ovf) (hsat : ovf → t.sat = sat) :
    FiveFlavours s p w c o sa vd r ovf sat false := by
  subst hr
  refine ⟨⟨_, hw, s.leaves_doneV vd _⟩, fun h => ⟨_, hc, ?_⟩, fun h => ⟨_, hc, ?_⟩, fun h => ⟨_, ho, ?_⟩,
    fun h => ⟨_, ho, ?_⟩, fun h => ⟨_, hs, ?_⟩, fun h => ⟨_, hs, ?_⟩, fun h => ⟨_, hp, s.leaves_doneV vd _⟩,
    fun h hd => absurd hd (by simp)⟩
  · rw [State.checked, hov, decide_eq_false h]; exact s.leaves_doneV vd _
  · rw [State.checked, hov, decide_eq_true h]; exact s.leaves_absent _
  · have := s.leaves_overflowing vd t; rwa [hov, decide_eq_false h] at this
  · have := s.leaves_overflowing vd t; rwa [hov, decide_eq_true h] at this
  · rw [State.saturating, hov, decide_eq_false h]; exact s.leaves_doneV vd _
  · rw [State.saturating, hov, decide_eq_true h, if_pos rfl, hsat h]; exact s.leaves_doneV vd _

end Sys2Proof
end

