-- ==== Sys2Proof/Laws/PerInstr.lean ====
section
/-! SUPPORT. The encoding round trip, one lemma per command (30_encoding.md R71, R72, R77, R78, R79). -/

namespace Sys2Proof.Laws.RoundTrip

/-- A well-formed command's word decodes to it. -/
def Statement (i : Instr) : Prop := i.wellFormed = true → decode (encode i) = .ok i

/-- The mask of an operand field is zero (R77). -/
theorem nofield {n : BitVec 4} : n &&& 0#4 = 0#4 := BitVec.and_zero

/-- A format R row: the opcode finds it, and the unused fields of the word are zero. -/
theorem ofRow {opc : BitVec 8} {f1 f2 f3 f4 f5 : Fin 16} {row : OpcodeRow} {i : Instr}
    (hr : rowOf opc = some row) (hm : packR opc f1 f2 f3 f4 f5 &&& row.mask = row.matchWord)
    (he : encode i = packR opc f1 f2 f3 f4 f5)
    (hb : row.build ⟨f1, f2, f3, f4, f5, (packR opc f1 f2 f3 f4 f5).extractLsb' 4 16⟩ = i) : Statement i := by
  intro hw
  rw [he]
  exact decode_of_row (by rw [opcodeOf_packR]; exact hr) hm (by rw [fieldsOf_packR]; exact hb) hw

theorem nop : Statement .nop :=
  ofRow (opc := 0x00) rfl (packR_and _ _ _ _ _ _ _ _ rfl rfl rfl rfl rfl rfl rfl)
    rfl rfl

theorem lix (xd : Fin 16) (imm : BitVec 16) : Statement (.lix xd imm) := by
  intro hw
  refine decode_of_row (w := packI 0x01 xd imm) 
    (row := ⟨0x01, 0x01000000, 0xFF00000F, fun f => .lix f.f1 f.imm⟩) ?_ ?_ ?_ hw
  · rw [opcodeOf_packI]; rfl
  · rw [packI_eq_packR]
    exact packR_and _ _ _ _ _ _ _ _ rfl nofield nofield nofield nofield
      nofield rfl
  · exact congrArg₂ Instr.lix (fieldsOf_packI_f1 ..) (fieldsOf_packI_imm ..)

theorem mov (vd va : Fin 16) : Statement (.mov vd va) :=
  ofRow (opc := 0x02) rfl (packR_and _ _ _ _ _ _ _ _ rfl nofield nofield rfl rfl rfl rfl)
    rfl rfl

theorem ldc (vd : Fin 16) (imm : BitVec 16) : Statement (.ldc vd imm) := by
  intro hw
  refine decode_of_row (w := packI 0x03 vd imm) 
    (row := ⟨0x03, 0x03000000, 0xFF00000F, fun f => .ldc f.f1 f.imm⟩) ?_ ?_ ?_ hw
  · rw [opcodeOf_packI]; rfl
  · rw [packI_eq_packR]
    exact packR_and _ _ _ _ _ _ _ _ rfl nofield nofield nofield nofield
      nofield rfl
  · exact congrArg₂ Instr.ldc (fieldsOf_packI_f1 ..) (fieldsOf_packI_imm ..)

theorem stl (vs xaddr : Fin 16) : Statement (.stl vs xaddr) :=
  ofRow (opc := 0x04) rfl (packR_and _ _ _ _ _ _ _ _ rfl nofield nofield rfl rfl rfl rfl)
    rfl rfl

theorem ldl (vd xaddr xn : Fin 16) : Statement (.ldl vd xaddr xn) :=
  ofRow (opc := 0x08) rfl (packR_and _ _ _ _ _ _ _ _ rfl nofield nofield nofield rfl rfl rfl)
    rfl rfl

theorem ldsW (vd xaddr xn : Fin 16) : Statement (.ldsW vd xaddr xn) :=
  ofRow (opc := 0x09) rfl (packR_and _ _ _ _ _ _ _ _ rfl nofield nofield nofield rfl rfl rfl)
    rfl rfl

theorem ldsC (vd xaddr xn : Fin 16) : Statement (.ldsC vd xaddr xn) :=
  ofRow (opc := 0x0A) rfl (packR_and _ _ _ _ _ _ _ _ rfl nofield nofield nofield rfl rfl rfl)
    rfl rfl

theorem ldsO (vd xaddr xn : Fin 16) : Statement (.ldsO vd xaddr xn) :=
  ofRow (opc := 0x0B) rfl (packR_and _ _ _ _ _ _ _ _ rfl nofield nofield nofield rfl rfl rfl)
    rfl rfl

theorem ldsS (vd xaddr xn : Fin 16) : Statement (.ldsS vd xaddr xn) :=
  ofRow (opc := 0x0C) rfl (packR_and _ _ _ _ _ _ _ _ rfl nofield nofield nofield rfl rfl rfl)
    rfl rfl

theorem addP (vd va vb : Fin 16) : Statement (.addP vd va vb) :=
  ofRow (opc := 0x10) rfl (packR_and _ _ _ _ _ _ _ _ rfl nofield nofield nofield rfl rfl rfl)
    rfl rfl

theorem addW (vd va vb : Fin 16) : Statement (.addW vd va vb) :=
  ofRow (opc := 0x11) rfl (packR_and _ _ _ _ _ _ _ _ rfl nofield nofield nofield rfl rfl rfl)
    rfl rfl

theorem addC (vd va vb : Fin 16) : Statement (.addC vd va vb) :=
  ofRow (opc := 0x12) rfl (packR_and _ _ _ _ _ _ _ _ rfl nofield nofield nofield rfl rfl rfl)
    rfl rfl

theorem addO (vd va vb : Fin 16) : Statement (.addO vd va vb) :=
  ofRow (opc := 0x13) rfl (packR_and _ _ _ _ _ _ _ _ rfl nofield nofield nofield rfl rfl rfl)
    rfl rfl

theorem addS (vd va vb : Fin 16) : Statement (.addS vd va vb) :=
  ofRow (opc := 0x14) rfl (packR_and _ _ _ _ _ _ _ _ rfl nofield nofield nofield rfl rfl rfl)
    rfl rfl

theorem subP (vd va vb : Fin 16) : Statement (.subP vd va vb) :=
  ofRow (opc := 0x18) rfl (packR_and _ _ _ _ _ _ _ _ rfl nofield nofield nofield rfl rfl rfl)
    rfl rfl

theorem subW (vd va vb : Fin 16) : Statement (.subW vd va vb) :=
  ofRow (opc := 0x19) rfl (packR_and _ _ _ _ _ _ _ _ rfl nofield nofield nofield rfl rfl rfl)
    rfl rfl

theorem subC (vd va vb : Fin 16) : Statement (.subC vd va vb) :=
  ofRow (opc := 0x1A) rfl (packR_and _ _ _ _ _ _ _ _ rfl nofield nofield nofield rfl rfl rfl)
    rfl rfl

theorem subO (vd va vb : Fin 16) : Statement (.subO vd va vb) :=
  ofRow (opc := 0x1B) rfl (packR_and _ _ _ _ _ _ _ _ rfl nofield nofield nofield rfl rfl rfl)
    rfl rfl

theorem subS (vd va vb : Fin 16) : Statement (.subS vd va vb) :=
  ofRow (opc := 0x1C) rfl (packR_and _ _ _ _ _ _ _ _ rfl nofield nofield nofield rfl rfl rfl)
    rfl rfl

theorem mulP (vd va vb : Fin 16) : Statement (.mulP vd va vb) :=
  ofRow (opc := 0x20) rfl (packR_and _ _ _ _ _ _ _ _ rfl nofield nofield nofield rfl rfl rfl)
    rfl rfl

theorem mulW (vd va vb : Fin 16) : Statement (.mulW vd va vb) :=
  ofRow (opc := 0x21) rfl (packR_and _ _ _ _ _ _ _ _ rfl nofield nofield nofield rfl rfl rfl)
    rfl rfl

theorem mulC (vd va vb : Fin 16) : Statement (.mulC vd va vb) :=
  ofRow (opc := 0x22) rfl (packR_and _ _ _ _ _ _ _ _ rfl nofield nofield nofield rfl rfl rfl)
    rfl rfl

theorem mulO (vd va vb : Fin 16) : Statement (.mulO vd va vb) :=
  ofRow (opc := 0x23) rfl (packR_and _ _ _ _ _ _ _ _ rfl nofield nofield nofield rfl rfl rfl)
    rfl rfl

theorem mulS (vd va vb : Fin 16) : Statement (.mulS vd va vb) :=
  ofRow (opc := 0x24) rfl (packR_and _ _ _ _ _ _ _ _ rfl nofield nofield nofield rfl rfl rfl)
    rfl rfl

theorem mulxP (vd va xb : Fin 16) : Statement (.mulxP vd va xb) :=
  ofRow (opc := 0x28) rfl (packR_and _ _ _ _ _ _ _ _ rfl nofield nofield nofield rfl rfl rfl)
    rfl rfl

theorem mulxW (vd va xb : Fin 16) : Statement (.mulxW vd va xb) :=
  ofRow (opc := 0x29) rfl (packR_and _ _ _ _ _ _ _ _ rfl nofield nofield nofield rfl rfl rfl)
    rfl rfl

theorem mulxC (vd va xb : Fin 16) : Statement (.mulxC vd va xb) :=
  ofRow (opc := 0x2A) rfl (packR_and _ _ _ _ _ _ _ _ rfl nofield nofield nofield rfl rfl rfl)
    rfl rfl

theorem mulxO (vd va xb : Fin 16) : Statement (.mulxO vd va xb) :=
  ofRow (opc := 0x2B) rfl (packR_and _ _ _ _ _ _ _ _ rfl nofield nofield nofield rfl rfl rfl)
    rfl rfl

theorem mulxS (vd va xb : Fin 16) : Statement (.mulxS vd va xb) :=
  ofRow (opc := 0x2C) rfl (packR_and _ _ _ _ _ _ _ _ rfl nofield nofield nofield rfl rfl rfl)
    rfl rfl

theorem negP (vd va : Fin 16) : Statement (.negP vd va) :=
  ofRow (opc := 0x30) rfl (packR_and _ _ _ _ _ _ _ _ rfl nofield nofield rfl rfl rfl rfl)
    rfl rfl

theorem negW (vd va : Fin 16) : Statement (.negW vd va) :=
  ofRow (opc := 0x31) rfl (packR_and _ _ _ _ _ _ _ _ rfl nofield nofield rfl rfl rfl rfl)
    rfl rfl

theorem negC (vd va : Fin 16) : Statement (.negC vd va) :=
  ofRow (opc := 0x32) rfl (packR_and _ _ _ _ _ _ _ _ rfl nofield nofield rfl rfl rfl rfl)
    rfl rfl

theorem negO (vd va : Fin 16) : Statement (.negO vd va) :=
  ofRow (opc := 0x33) rfl (packR_and _ _ _ _ _ _ _ _ rfl nofield nofield rfl rfl rfl rfl)
    rfl rfl

theorem negS (vd va : Fin 16) : Statement (.negS vd va) :=
  ofRow (opc := 0x34) rfl (packR_and _ _ _ _ _ _ _ _ rfl nofield nofield rfl rfl rfl rfl)
    rfl rfl

theorem powP (vd va vb : Fin 16) : Statement (.powP vd va vb) :=
  ofRow (opc := 0x38) rfl (packR_and _ _ _ _ _ _ _ _ rfl nofield nofield nofield rfl rfl rfl)
    rfl rfl

theorem powW (vd va vb : Fin 16) : Statement (.powW vd va vb) :=
  ofRow (opc := 0x39) rfl (packR_and _ _ _ _ _ _ _ _ rfl nofield nofield nofield rfl rfl rfl)
    rfl rfl

theorem powC (vd va vb : Fin 16) : Statement (.powC vd va vb) :=
  ofRow (opc := 0x3A) rfl (packR_and _ _ _ _ _ _ _ _ rfl nofield nofield nofield rfl rfl rfl)
    rfl rfl

theorem powO (vd va vb : Fin 16) : Statement (.powO vd va vb) :=
  ofRow (opc := 0x3B) rfl (packR_and _ _ _ _ _ _ _ _ rfl nofield nofield nofield rfl rfl rfl)
    rfl rfl

theorem powS (vd va vb : Fin 16) : Statement (.powS vd va vb) :=
  ofRow (opc := 0x3C) rfl (packR_and _ _ _ _ _ _ _ _ rfl nofield nofield nofield rfl rfl rfl)
    rfl rfl

theorem shlP (vd va xk : Fin 16) : Statement (.shlP vd va xk) :=
  ofRow (opc := 0x40) rfl (packR_and _ _ _ _ _ _ _ _ rfl nofield nofield nofield rfl rfl rfl)
    rfl rfl

theorem shlW (vd va xk : Fin 16) : Statement (.shlW vd va xk) :=
  ofRow (opc := 0x41) rfl (packR_and _ _ _ _ _ _ _ _ rfl nofield nofield nofield rfl rfl rfl)
    rfl rfl

theorem shlC (vd va xk : Fin 16) : Statement (.shlC vd va xk) :=
  ofRow (opc := 0x42) rfl (packR_and _ _ _ _ _ _ _ _ rfl nofield nofield nofield rfl rfl rfl)
    rfl rfl

theorem shlO (vd va xk : Fin 16) : Statement (.shlO vd va xk) :=
  ofRow (opc := 0x43) rfl (packR_and _ _ _ _ _ _ _ _ rfl nofield nofield nofield rfl rfl rfl)
    rfl rfl

theorem shlS (vd va xk : Fin 16) : Statement (.shlS vd va xk) :=
  ofRow (opc := 0x44) rfl (packR_and _ _ _ _ _ _ _ _ rfl nofield nofield nofield rfl rfl rfl)
    rfl rfl

theorem shrP (vd va xk : Fin 16) : Statement (.shrP vd va xk) :=
  ofRow (opc := 0x48) rfl (packR_and _ _ _ _ _ _ _ _ rfl nofield nofield nofield rfl rfl rfl)
    rfl rfl

theorem shrW (vd va xk : Fin 16) : Statement (.shrW vd va xk) :=
  ofRow (opc := 0x49) rfl (packR_and _ _ _ _ _ _ _ _ rfl nofield nofield nofield rfl rfl rfl)
    rfl rfl

theorem shrC (vd va xk : Fin 16) : Statement (.shrC vd va xk) :=
  ofRow (opc := 0x4A) rfl (packR_and _ _ _ _ _ _ _ _ rfl nofield nofield nofield rfl rfl rfl)
    rfl rfl

theorem shrO (vd va xk : Fin 16) : Statement (.shrO vd va xk) :=
  ofRow (opc := 0x4B) rfl (packR_and _ _ _ _ _ _ _ _ rfl nofield nofield nofield rfl rfl rfl)
    rfl rfl

theorem shrS (vd va xk : Fin 16) : Statement (.shrS vd va xk) :=
  ofRow (opc := 0x4C) rfl (packR_and _ _ _ _ _ _ _ _ rfl nofield nofield nofield rfl rfl rfl)
    rfl rfl

theorem div (vd va vb : Fin 16) : Statement (.div vd va vb) :=
  ofRow (opc := 0x50) rfl (packR_and _ _ _ _ _ _ _ _ rfl nofield nofield nofield rfl rfl rfl)
    rfl rfl

theorem rem (vd va vb : Fin 16) : Statement (.rem vd va vb) :=
  ofRow (opc := 0x51) rfl (packR_and _ _ _ _ _ _ _ _ rfl nofield nofield nofield rfl rfl rfl)
    rfl rfl

theorem cdiv (vd va vb : Fin 16) : Statement (.cdiv vd va vb) :=
  ofRow (opc := 0x52) rfl (packR_and _ _ _ _ _ _ _ _ rfl nofield nofield nofield rfl rfl rfl)
    rfl rfl

theorem crem (vd va vb : Fin 16) : Statement (.crem vd va vb) :=
  ofRow (opc := 0x53) rfl (packR_and _ _ _ _ _ _ _ _ rfl nofield nofield nofield rfl rfl rfl)
    rfl rfl

theorem divceil (vd va vb : Fin 16) : Statement (.divceil vd va vb) :=
  ofRow (opc := 0x54) rfl (packR_and _ _ _ _ _ _ _ _ rfl nofield nofield nofield rfl rfl rfl)
    rfl rfl

theorem divrem (vq va vb vr : Fin 16) : Statement (.divrem vq va vb vr) :=
  ofRow (opc := 0x55) rfl (packR_and _ _ _ _ _ _ _ _ rfl nofield nofield nofield nofield rfl rfl)
    rfl rfl

theorem log (xd va vb : Fin 16) : Statement (.log xd va vb) :=
  ofRow (opc := 0x58) rfl (packR_and _ _ _ _ _ _ _ _ rfl nofield nofield nofield rfl rfl rfl)
    rfl rfl

theorem clog (xd va vb : Fin 16) : Statement (.clog xd va vb) :=
  ofRow (opc := 0x59) rfl (packR_and _ _ _ _ _ _ _ _ rfl nofield nofield nofield rfl rfl rfl)
    rfl rfl

theorem log2 (xd va : Fin 16) : Statement (.log2 xd va) :=
  ofRow (opc := 0x5A) rfl (packR_and _ _ _ _ _ _ _ _ rfl nofield nofield rfl rfl rfl rfl)
    rfl rfl

theorem clog2 (xd va : Fin 16) : Statement (.clog2 xd va) :=
  ofRow (opc := 0x5B) rfl (packR_and _ _ _ _ _ _ _ _ rfl nofield nofield rfl rfl rfl rfl)
    rfl rfl

theorem log10 (xd va : Fin 16) : Statement (.log10 xd va) :=
  ofRow (opc := 0x5C) rfl (packR_and _ _ _ _ _ _ _ _ rfl nofield nofield rfl rfl rfl rfl)
    rfl rfl

theorem clog10 (xd va : Fin 16) : Statement (.clog10 xd va) :=
  ofRow (opc := 0x5D) rfl (packR_and _ _ _ _ _ _ _ _ rfl nofield nofield rfl rfl rfl rfl)
    rfl rfl

theorem root (vd va xdeg : Fin 16) : Statement (.root vd va xdeg) :=
  ofRow (opc := 0x5E) rfl (packR_and _ _ _ _ _ _ _ _ rfl nofield nofield nofield rfl rfl rfl)
    rfl rfl

theorem redmod (vd va vm : Fin 16) : Statement (.redmod vd va vm) :=
  ofRow (opc := 0x60) rfl (packR_and _ _ _ _ _ _ _ _ rfl nofield nofield nofield rfl rfl rfl)
    rfl rfl

theorem addmod (vd va vb vm : Fin 16) : Statement (.addmod vd va vb vm) :=
  ofRow (opc := 0x61) rfl (packR_and _ _ _ _ _ _ _ _ rfl nofield nofield nofield nofield rfl rfl)
    rfl rfl

theorem mulmod (vd va vb vm : Fin 16) : Statement (.mulmod vd va vb vm) :=
  ofRow (opc := 0x62) rfl (packR_and _ _ _ _ _ _ _ _ rfl nofield nofield nofield nofield rfl rfl)
    rfl rfl

theorem powmod (vd va vb vm : Fin 16) : Statement (.powmod vd va vb vm) :=
  ofRow (opc := 0x63) rfl (packR_and _ _ _ _ _ _ _ _ rfl nofield nofield nofield nofield rfl rfl)
    rfl rfl

theorem invmod (vd va vm : Fin 16) : Statement (.invmod vd va vm) :=
  ofRow (opc := 0x64) rfl (packR_and _ _ _ _ _ _ _ _ rfl nofield nofield nofield rfl rfl rfl)
    rfl rfl

theorem mulredc (vd va vb vm xinv : Fin 16) : Statement (.mulredc vd va vb vm xinv) :=
  ofRow (opc := 0x65) rfl (packR_and _ _ _ _ _ _ _ _ rfl nofield nofield nofield nofield nofield rfl)
    rfl rfl

theorem sqrredc (vd va vm xinv : Fin 16) : Statement (.sqrredc vd va vm xinv) :=
  ofRow (opc := 0x66) rfl (packR_and _ _ _ _ _ _ _ _ rfl nofield nofield rfl nofield nofield rfl)
    rfl rfl

theorem gcd (vd va vb : Fin 16) : Statement (.gcd vd va vb) :=
  ofRow (opc := 0x68) rfl (packR_and _ _ _ _ _ _ _ _ rfl nofield nofield nofield rfl rfl rfl)
    rfl rfl

theorem gcdext (vg va vb vx vy : Fin 16) : Statement (.gcdext vg va vb vx vy) :=
  ofRow (opc := 0x69) rfl (packR_and _ _ _ _ _ _ _ _ rfl nofield nofield nofield nofield nofield rfl)
    rfl rfl

theorem lcm (vd va vb : Fin 16) : Statement (.lcm vd va vb) :=
  ofRow (opc := 0x6A) rfl (packR_and _ _ _ _ _ _ _ _ rfl nofield nofield nofield rfl rfl rfl)
    rfl rfl

theorem vnot (vd va : Fin 16) : Statement (.vnot vd va) :=
  ofRow (opc := 0x70) rfl (packR_and _ _ _ _ _ _ _ _ rfl nofield nofield rfl rfl rfl rfl)
    rfl rfl

theorem vand (vd va vb : Fin 16) : Statement (.vand vd va vb) :=
  ofRow (opc := 0x71) rfl (packR_and _ _ _ _ _ _ _ _ rfl nofield nofield nofield rfl rfl rfl)
    rfl rfl

theorem vor (vd va vb : Fin 16) : Statement (.vor vd va vb) :=
  ofRow (opc := 0x72) rfl (packR_and _ _ _ _ _ _ _ _ rfl nofield nofield nofield rfl rfl rfl)
    rfl rfl

theorem vxor (vd va vb : Fin 16) : Statement (.vxor vd va vb) :=
  ofRow (opc := 0x73) rfl (packR_and _ _ _ _ _ _ _ _ rfl nofield nofield nofield rfl rfl rfl)
    rfl rfl

theorem rol (vd va xk : Fin 16) : Statement (.rol vd va xk) :=
  ofRow (opc := 0x74) rfl (packR_and _ _ _ _ _ _ _ _ rfl nofield nofield nofield rfl rfl rfl)
    rfl rfl

theorem ror (vd va xk : Fin 16) : Statement (.ror vd va xk) :=
  ofRow (opc := 0x75) rfl (packR_and _ _ _ _ _ _ _ _ rfl nofield nofield nofield rfl rfl rfl)
    rfl rfl

theorem revb (vd va : Fin 16) : Statement (.revb vd va) :=
  ofRow (opc := 0x76) rfl (packR_and _ _ _ _ _ _ _ _ rfl nofield nofield rfl rfl rfl rfl)
    rfl rfl

theorem clz (xd va : Fin 16) : Statement (.clz xd va) :=
  ofRow (opc := 0x80) rfl (packR_and _ _ _ _ _ _ _ _ rfl nofield nofield rfl rfl rfl rfl)
    rfl rfl

theorem clo (xd va : Fin 16) : Statement (.clo xd va) :=
  ofRow (opc := 0x81) rfl (packR_and _ _ _ _ _ _ _ _ rfl nofield nofield rfl rfl rfl rfl)
    rfl rfl

theorem ctz (xd va : Fin 16) : Statement (.ctz xd va) :=
  ofRow (opc := 0x82) rfl (packR_and _ _ _ _ _ _ _ _ rfl nofield nofield rfl rfl rfl rfl)
    rfl rfl

theorem cto (xd va : Fin 16) : Statement (.cto xd va) :=
  ofRow (opc := 0x83) rfl (packR_and _ _ _ _ _ _ _ _ rfl nofield nofield rfl rfl rfl rfl)
    rfl rfl

theorem popc (xd va : Fin 16) : Statement (.popc xd va) :=
  ofRow (opc := 0x84) rfl (packR_and _ _ _ _ _ _ _ _ rfl nofield nofield rfl rfl rfl rfl)
    rfl rfl

theorem cntz (xd va : Fin 16) : Statement (.cntz xd va) :=
  ofRow (opc := 0x85) rfl (packR_and _ _ _ _ _ _ _ _ rfl nofield nofield rfl rfl rfl rfl)
    rfl rfl

theorem bitlen (xd va : Fin 16) : Statement (.bitlen xd va) :=
  ofRow (opc := 0x86) rfl (packR_and _ _ _ _ _ _ _ _ rfl nofield nofield rfl rfl rfl rfl)
    rfl rfl

theorem bytelen (xd va : Fin 16) : Statement (.bytelen xd va) :=
  ofRow (opc := 0x87) rfl (packR_and _ _ _ _ _ _ _ _ rfl nofield nofield rfl rfl rfl rfl)
    rfl rfl

theorem iszero (xd va : Fin 16) : Statement (.iszero xd va) :=
  ofRow (opc := 0x88) rfl (packR_and _ _ _ _ _ _ _ _ rfl nofield nofield rfl rfl rfl rfl)
    rfl rfl

theorem ispow2 (xd va : Fin 16) : Statement (.ispow2 xd va) :=
  ofRow (opc := 0x89) rfl (packR_and _ _ _ _ _ _ _ _ rfl nofield nofield rfl rfl rfl rfl)
    rfl rfl

theorem nextpow2 (vd va : Fin 16) : Statement (.nextpow2 vd va) :=
  ofRow (opc := 0x8A) rfl (packR_and _ _ _ _ _ _ _ _ rfl nofield nofield rfl rfl rfl rfl)
    rfl rfl

theorem nextmult (vd va vb : Fin 16) : Statement (.nextmult vd va vb) :=
  ofRow (opc := 0x8B) rfl (packR_and _ _ _ _ _ _ _ _ rfl nofield nofield nofield rfl rfl rfl)
    rfl rfl

theorem bit (xd va xi : Fin 16) : Statement (.bit xd va xi) :=
  ofRow (opc := 0x8C) rfl (packR_and _ _ _ _ _ _ _ _ rfl nofield nofield nofield rfl rfl rfl)
    rfl rfl

theorem setbit (vd va xi : Fin 16) : Statement (.setbit vd va xi) :=
  ofRow (opc := 0x8D) rfl (packR_and _ _ _ _ _ _ _ _ rfl nofield nofield nofield rfl rfl rfl)
    rfl rfl

theorem clrbit (vd va xi : Fin 16) : Statement (.clrbit vd va xi) :=
  ofRow (opc := 0x8E) rfl (packR_and _ _ _ _ _ _ _ _ rfl nofield nofield nofield rfl rfl rfl)
    rfl rfl

theorem byte (xd va xi : Fin 16) : Statement (.byte xd va xi) :=
  ofRow (opc := 0x8F) rfl (packR_and _ _ _ _ _ _ _ _ rfl nofield nofield nofield rfl rfl rfl)
    rfl rfl

theorem cbyte (xd va xi : Fin 16) : Statement (.cbyte xd va xi) :=
  ofRow (opc := 0x90) rfl (packR_and _ _ _ _ _ _ _ _ rfl nofield nofield nofield rfl rfl rfl)
    rfl rfl

theorem msbits (xd va xk : Fin 16) : Statement (.msbits xd va xk) :=
  ofRow (opc := 0x91) rfl (packR_and _ _ _ _ _ _ _ _ rfl nofield nofield nofield rfl rfl rfl)
    rfl rfl

theorem veq (xd va vb : Fin 16) : Statement (.veq xd va vb) :=
  ofRow (opc := 0x98) rfl (packR_and _ _ _ _ _ _ _ _ rfl nofield nofield nofield rfl rfl rfl)
    rfl rfl

theorem vlt (xd va vb : Fin 16) : Statement (.vlt xd va vb) :=
  ofRow (opc := 0x99) rfl (packR_and _ _ _ _ _ _ _ _ rfl nofield nofield nofield rfl rfl rfl)
    rfl rfl

end Sys2Proof.Laws.RoundTrip
end

