-- ==== Sys2Proof/Laws/Step.lean ====
section
/-! SUPPORT. What a command can do and what a step can do, said once: every command ends done, absent or
trapping (60_exceptions.md R320, R323 to R325), and a step is one host action. -/

namespace Sys2Proof.Machine

/-- What a command that ends `done` may have changed: the destinations, `OVF` when `o`, `SGN` and the draw counter
when `g`, limb memory when `l`; wide values stay canonical, limb memory keeps its form and its bounds. -/
structure Done (s t : State) (wd : List VReg) (xd : List XReg) (o g l : Bool) : Prop where
  only : t = { s with v := t.v, x := t.x, lmem := t.lmem, draws := t.draws, st :=
    { s.st with ovf := t.st.ovf, sgn := t.st.sgn, abs := false, kind := none } }
  wide : ∀ j, j ∉ wd → t.readV j = s.readV j
  scalar : ∀ j, j ∉ xd → t.readX j = s.readX j
  ovf : o = false → t.st.ovf = s.st.ovf
  sgn : g = false → t.st.sgn = s.st.sgn ∧ t.draws = s.draws
  lmem : l = false → t.lmem = s.lmem
  canonical : s.Canonical → t.Canonical
  form : s.lmem.wf → t.lmem.wf
  bound : (∀ p ∈ s.lmem, p.1 < s.params.nlmem.val) → ∀ p ∈ t.lmem, p.1 < s.params.nlmem.val

/-- `GCDEXT`, the one command that draws and writes `SGN` (43_modular.md R228). -/
def isGcdext : Instr → Bool
  | .gcdext .. => true
  | _ => false

/-- `STL`, the one command that writes limb memory (40_limbs_load_store.md R119). -/
def isStl : Instr → Bool
  | .stl .. => true
  | _ => false

/-- The outcomes of a command in `s`. -/
def Outcome (i : Instr) (s t : State) : Prop :=
  Done s t i.wideDests i.scalarDests i.writesOvf (isGcdext i) (isStl i) ∨
  (∃ k ∈ i.absentKinds, t = s.absent k) ∨ ∃ k ∈ i.trapKinds, t = s.trap k

section outcomes
variable {s : State} {wd : List VReg} {xs : List XReg} {o g l : Bool} {i : Instr}

theorem Done.ofV {vd : VReg} {n : Nat} (h : vd ∈ wd) (hn : s.Canonical → n < 2 ^ s.B) :
    Done s (s.doneV vd n) wd xs o g l where
  only := rfl
  wide j hj := (s.readV_writeV vd n j).trans (if_neg fun (e : j = vd) => hj (e ▸ h))
  scalar _ _ := rfl
  ovf _ := rfl
  sgn _ := ⟨rfl, rfl⟩
  lmem _ := rfl
  canonical hc j := by
    change (s.writeV vd n).readV j < 2 ^ s.B
    rw [s.readV_writeV vd n j]; split
    · exact hn hc
    · exact hc j
  form h := h
  bound h := h

theorem Done.ofX {xd : XReg} {n : Nat} (h : xd ∈ xs) : Done s (s.doneX xd n) wd xs o g l where
  only := rfl
  wide _ _ := rfl
  scalar j hj := (s.readX_writeX xd _ j).trans (if_neg fun (e : j = xd) => hj (e ▸ h))
  ovf _ := rfl
  sgn _ := ⟨rfl, rfl⟩
  lmem _ := rfl
  canonical h := h
  form h := h
  bound h := h

theorem Outcome.absent {k : Kind} (h : k ∈ i.absentKinds) : Outcome i s (s.absent k) := .inr (.inl ⟨k, h, rfl⟩)

theorem Outcome.trap {k : Kind} (h : k ∈ i.trapKinds) : Outcome i s (s.trap k) := .inr (.inr ⟨k, h, rfl⟩)

theorem Outcome.ofV {vd : VReg} {n : Nat} (h : vd ∈ i.wideDests) (hn : s.Canonical → n < 2 ^ s.B) :
    Outcome i s (s.doneV vd n) := .inl (Done.ofV h hn)

theorem Outcome.ofX {xd : XReg} {n : Nat} (h : xd ∈ i.scalarDests) : Outcome i s (s.doneX xd n) := .inl (Done.ofX h)

theorem Outcome.wrapping {vd : VReg} {t : Narrowed} (h : vd ∈ i.wideDests) (hr : s.Canonical → t.r < 2 ^ s.B) :
    Outcome i s (s.wrapping vd t) := .ofV h hr

theorem Outcome.checked {vd : VReg} {t : Narrowed} (h : vd ∈ i.wideDests) (hr : s.Canonical → t.r < 2 ^ s.B)
    (hk : Kind.overflow ∈ i.absentKinds) : Outcome i s (s.checked vd t) := by
  unfold State.checked; split
  · exact .absent hk
  · exact .ofV h hr

theorem Outcome.overflowing {vd : VReg} {t : Narrowed} (h : vd ∈ i.wideDests) (hr : s.Canonical → t.r < 2 ^ s.B)
    (ho : i.writesOvf = true) : Outcome i s (s.overflowing vd t) := by
  have d : Done s (s.doneV vd t.r) i.wideDests i.scalarDests i.writesOvf (isGcdext i) (isStl i) := .ofV h hr
  exact .inl ⟨rfl, d.wide, d.scalar, fun e => absurd (ho.symm.trans e) (by simp), d.sgn, d.lmem, d.canonical,
    d.form, d.bound⟩

theorem Outcome.saturating {vd : VReg} {t : Narrowed} (h : vd ∈ i.wideDests) (hr : s.Canonical → t.r < 2 ^ s.B)
    (hs : s.Canonical → t.sat < 2 ^ s.B) : Outcome i s (s.saturating vd t) := by
  refine .ofV h fun hc => ?_
  split
  · exact hs hc
  · exact hr hc

theorem Outcome.plain {vd : VReg} {t : Narrowed} (h : vd ∈ i.wideDests) (hr : s.Canonical → t.r < 2 ^ s.B)
    (hk : Kind.overflow ∈ i.trapKinds) : Outcome i s (s.plain vd t) := by
  unfold State.plain; split
  · exact .trap hk
  · exact .ofV h hr

theorem Outcome.loadSlice {xaddr xn : XReg} {f : Narrowed → State} (hk : Kind.lmemRange ∈ i.trapKinds)
    (hf : ∀ ws, Outcome i s (f (fromSlice s.B ws))) : Outcome i s (s.loadSlice xaddr xn f) := by
  rw [State.loadSlice_eq]; split
  · exact hf _
  · exact .trap hk

theorem Outcome.ite {p : Prop} [Decidable p] {t u : State} (h1 : p → Outcome i s t) (h2 : ¬ p → Outcome i s u) :
    Outcome i s (if p then t else u) := by
  split
  · exact h1 ‹_›
  · exact h2 ‹_›

end outcomes

theorem powLoop_lt {B a x : Nat} (h : ∀ i r o, r < 2 ^ B → (powLoop B a x i r o).1 < 2 ^ B) :
    (powVal B a x).r < 2 ^ B := h _ _ _ (oneValue_lt B)

theorem powVal_lt (B a x : Nat) : (powVal B a x).r < 2 ^ B := by
  refine powLoop_lt fun i => ?_
  induction i with
  | zero => exact fun r o h => h
  | succ i ih =>
    intro r o h
    simp only [powLoop]
    split
    · exact ih _ _ (narrow_lt B _).1
    · exact ih _ _ (narrow_lt B _).1

theorem shrVal_lt {inexact : Bool} {B x k : Nat} (hx : x < 2 ^ B) : (shrVal inexact B x k).r < 2 ^ B := by
  rw [(shrVal_spec hx).1]; exact Nat.lt_of_le_of_lt (Nat.div_le_self _ _) hx

theorem constantOf_lt (B : Nat) (sel : BitVec 16) : constantOf B sel < 2 ^ B := by
  unfold constantOf
  split
  · exact Nat.two_pow_pos B
  · split
    · exact oneValue_lt B
    · exact maxValue_lt B

theorem gcd_lt {B a b : Nat} (ha : a < 2 ^ B) (hb : b < 2 ^ B) : Nat.gcd a b < 2 ^ B := by
  rcases Nat.eq_zero_or_pos a with rfl | h
  · rwa [Nat.gcd_zero_left]
  · exact Nat.lt_of_le_of_lt (Nat.gcd_le_left b h) ha

/-- The entry checks of `MULREDC` passed (R219). -/
theorem redcModulusBad_false {m inv : Nat} (h : ¬ redcModulusBad m inv = true) :
    m % 2 = 1 ∧ inv * m % 2 ^ 64 = 2 ^ 64 - 1 := by
  simp only [redcModulusBad, Bool.or_eq_true, decide_eq_true_eq, not_or] at h
  obtain ⟨h1, h2⟩ := h
  refine ⟨by omega, ?_⟩
  rw [← mul_limb_zero]
  exact not_not.1 h2

theorem redcMul_lt {B a b m inv : Nat} (h : ¬ redcModulusBad m inv = true) (h2 : ¬ (m ≤ a ∨ m ≤ b))
    (hm : m < 2 ^ B) : redcMul B a b m inv < 2 ^ B :=
  Nat.lt_trans (redcMul_spec hm (by omega) (by omega) (redcModulusBad_false h).2).1 hm

theorem outcome_nop (s : State) : Outcome .nop s s.done :=
  .inl ⟨rfl, fun _ _ => rfl, fun _ _ => rfl, fun _ => rfl, fun _ => ⟨rfl, rfl⟩, fun _ => rfl, fun h => h,
    fun h => h, fun h => h⟩

theorem outcome_lix (s : State) (xd : XReg) (imm : BitVec 16) :
    Outcome (.lix xd imm) s (s.writeX xd (immediate imm)).done :=
  .inl ⟨rfl, fun _ _ => rfl, fun j hj => (s.readX_writeX xd _ j).trans (if_neg fun (e : j = xd) => hj (e ▸ .head _)),
    fun _ => rfl, fun _ => ⟨rfl, rfl⟩, fun _ => rfl, fun h => h, fun h => h, fun h => h⟩

theorem outcome_stl (s : State) (vs : VReg) (xaddr : XReg) : ∃ t, execStl vs xaddr s = .next t ∧
    Outcome (.stl vs xaddr) s t := by
  unfold execStl
  rw [State.memWrite_eq]
  by_cases h : s.scalar xaddr + (s.wideLimbs vs).length ≤ s.params.nlmem.val
  · rw [if_pos h]
    refine ⟨_, rfl, .inl ?_⟩
    have e := (State.writeWords_spec (s.wideLimbs vs) s (s.scalar xaddr)).2
    have hv : ∀ j, (s.writeWords (s.scalar xaddr) (s.wideLimbs vs)).done.readV j = s.readV j := by
      rw [e]; exact fun _ => rfl
    have hx : ∀ j, (s.writeWords (s.scalar xaddr) (s.wideLimbs vs)).done.readX j = s.readX j := by
      rw [e]; exact fun _ => rfl
    have hB : (s.writeWords (s.scalar xaddr) (s.wideLimbs vs)).done.B = s.B := by rw [e]; rfl
    refine ⟨?_, fun j _ => hv j, fun j _ => hx j, fun _ => ?_, fun _ => ⟨?_, ?_⟩,
      fun hl => absurd hl (by simp [isStl]), fun hc j => ?_, fun hw => State.wf_writeWords _ _ _ hw,
      fun hb p hp => ?_⟩
    · rw [e]; rfl
    · rw [e]; rfl
    · rw [e]; rfl
    · rw [e]; rfl
    · rw [hv, hB]; exact hc j
    · rcases State.mem_writeWords _ _ _ p hp with h' | h'
      · omega
      · exact hb p h'
  · rw [if_neg h]; exact ⟨_, rfl, .trap (.head _)⟩

theorem outcome_divrem (s : State) (vq va vb vr : VReg) : ∃ t, execDivrem vq va vb vr s = .next t ∧
    Outcome (.divrem vq va vb vr) s t := by
  unfold execDivrem
  refine ⟨_, rfl, .ite (fun _ => .trap (.head _)) fun _ => .inl ?_⟩
  refine ⟨rfl, fun j hj => ?_, fun _ _ => rfl, fun _ => rfl, fun _ => ⟨rfl, rfl⟩, fun _ => rfl, fun hc j => ?_,
    fun h => h, fun h => h⟩
  · simp only [Instr.wideDests, List.mem_cons, List.not_mem_nil, or_false, not_or] at hj
    simp only [State.doneV, State.readV_done, State.readV_writeV, hj, if_false]
  · simp only [State.doneV, State.readV_done, State.readV_writeV]
    change _ < 2 ^ s.B
    split
    · exact Nat.lt_of_le_of_lt (Nat.mod_le _ _) (hc va)
    · split
      · exact Nat.lt_of_le_of_lt (Nat.div_le_self _ _) (hc va)
      · exact hc j

theorem outcome_gcdext (s : State) (vg va vb vx vy : VReg) : ∃ t, execGcdext vg va vb vx vy s = .next t ∧
    Outcome (.gcdext vg va vb vx vy) s t := by
  refine ⟨_, rfl, .inl ⟨rfl, fun j hj => ?_, fun _ _ => rfl, fun _ => rfl, fun hg => absurd hg (by simp [isGcdext]),
    fun _ => rfl, fun hc j => ?_, fun h => h, fun h => h⟩⟩
  · simp only [Instr.wideDests, List.mem_cons, List.not_mem_nil, or_false, not_or] at hj
    simp only [State.readV_done, State.readV_setSgn, State.readV_writeV, hj, if_false]; rfl
  · obtain ⟨h1, h2, _⟩ := drawnCofactors_spec s.draws (hc va) (hc vb)
    have hg := gcd_lt (hc va) (hc vb)
    simp only [State.readV_done, State.readV_setSgn, State.readV_writeV]
    change _ < 2 ^ s.B
    split
    · exact h2
    · split
      · exact h1
      · split
        · exact hg
        · exact hc j

/-- EVERYTHING A COMMAND CAN DO: it answers a next state, which is one of its outcomes. -/
theorem exec_outcome (i : Instr) (s : State) : ∃ t, exec i s = .next t ∧ Outcome i s t := by
  cases i with
  | nop => exact ⟨_, rfl, outcome_nop s⟩
  | lix xd imm => exact ⟨_, rfl, outcome_lix s xd imm⟩
  | stl vs xaddr => exact outcome_stl s vs xaddr
  | divrem vq va vb vr => exact outcome_divrem s vq va vb vr
  | gcdext vg va vb vx vy => exact outcome_gcdext s vg va vb vx vy
  | mov vd va =>
    exact ⟨_, rfl, .ofV (.head _) (fun hc => hc _)⟩
  | ldc vd sel =>
    exact ⟨_, rfl, .ofV (.head _) (fun _ => constantOf_lt _ _)⟩
  | ldl vd xaddr xn =>
    exact ⟨_, rfl, .ite (fun _ => .trap (.head _)) fun _ => .loadSlice (.tail _ (.head _)) fun _ =>
      .ite (fun _ => .trap (.tail _ (.tail _ (.head _)))) fun _ => .ofV (.head _) (fun _ => (narrow_lt _ _).1)⟩
  | ldsW vd xaddr xn =>
    exact ⟨_, rfl, .loadSlice (.head _) fun _ => .wrapping (.head _) (fun _ => (narrow_lt _ _).1)⟩
  | ldsC vd xaddr xn =>
    exact ⟨_, rfl, .loadSlice (.head _) fun _ => .checked (.head _) (fun _ => (narrow_lt _ _).1) (.head _)⟩
  | ldsO vd xaddr xn =>
    exact ⟨_, rfl, .loadSlice (.head _) fun _ => .overflowing (.head _) (fun _ => (narrow_lt _ _).1) rfl⟩
  | ldsS vd xaddr xn =>
    exact ⟨_, rfl, .loadSlice (.head _) fun _ => .saturating (.head _) (fun _ => (narrow_lt _ _).1)
      (fun _ => (narrow_lt _ _).2)⟩
  | addP vd va vb =>
    exact ⟨_, rfl, .plain (.head _) (fun _ => (narrow_lt _ _).1) (.head _)⟩
  | addW vd va vb =>
    exact ⟨_, rfl, .wrapping (.head _) (fun _ => (narrow_lt _ _).1)⟩
  | addC vd va vb =>
    exact ⟨_, rfl, .checked (.head _) (fun _ => (narrow_lt _ _).1) (.head _)⟩
  | addO vd va vb =>
    exact ⟨_, rfl, .overflowing (.head _) (fun _ => (narrow_lt _ _).1) rfl⟩
  | addS vd va vb =>
    exact ⟨_, rfl, .saturating (.head _) (fun _ => (narrow_lt _ _).1) (fun _ => (narrow_lt _ _).2)⟩
  | subP vd va vb =>
    exact ⟨_, rfl, .plain (.head _) (fun _ => (narrow_lt _ _).1) (.head _)⟩
  | subW vd va vb =>
    exact ⟨_, rfl, .wrapping (.head _) (fun _ => (narrow_lt _ _).1)⟩
  | subC vd va vb =>
    exact ⟨_, rfl, .checked (.head _) (fun _ => (narrow_lt _ _).1) (.head _)⟩
  | subO vd va vb =>
    exact ⟨_, rfl, .overflowing (.head _) (fun _ => (narrow_lt _ _).1) rfl⟩
  | subS vd va vb =>
    exact ⟨_, rfl, .saturating (.head _) (fun _ => (narrow_lt _ _).1) (fun _ => (narrow_lt _ _).2)⟩
  | mulP vd va vb =>
    exact ⟨_, rfl, .plain (.head _) (fun _ => (narrow_lt _ _).1) (.head _)⟩
  | mulW vd va vb =>
    exact ⟨_, rfl, .wrapping (.head _) (fun _ => (narrow_lt _ _).1)⟩
  | mulC vd va vb =>
    exact ⟨_, rfl, .checked (.head _) (fun _ => (narrow_lt _ _).1) (.head _)⟩
  | mulO vd va vb =>
    exact ⟨_, rfl, .overflowing (.head _) (fun _ => (narrow_lt _ _).1) rfl⟩
  | mulS vd va vb =>
    exact ⟨_, rfl, .saturating (.head _) (fun _ => (narrow_lt _ _).1) (fun _ => (narrow_lt _ _).2)⟩
  | mulxP vd va xb =>
    exact ⟨_, rfl, .plain (.head _) (fun _ => (narrow_lt _ _).1) (.head _)⟩
  | mulxW vd va xb =>
    exact ⟨_, rfl, .wrapping (.head _) (fun _ => (narrow_lt _ _).1)⟩
  | mulxC vd va xb =>
    exact ⟨_, rfl, .checked (.head _) (fun _ => (narrow_lt _ _).1) (.head _)⟩
  | mulxO vd va xb =>
    exact ⟨_, rfl, .overflowing (.head _) (fun _ => (narrow_lt _ _).1) rfl⟩
  | mulxS vd va xb =>
    exact ⟨_, rfl, .saturating (.head _) (fun _ => (narrow_lt _ _).1) (fun _ => (narrow_lt _ _).2)⟩
  | negP vd va =>
    exact ⟨_, rfl, .plain (.head _) (fun _ => (narrow_lt _ _).1) (.head _)⟩
  | negW vd va =>
    exact ⟨_, rfl, .wrapping (.head _) (fun _ => (narrow_lt _ _).1)⟩
  | negC vd va =>
    exact ⟨_, rfl, .checked (.head _) (fun _ => (narrow_lt _ _).1) (.head _)⟩
  | negO vd va =>
    exact ⟨_, rfl, .overflowing (.head _) (fun _ => (narrow_lt _ _).1) rfl⟩
  | negS vd va =>
    exact ⟨_, rfl, .saturating (.head _) (fun _ => (narrow_lt _ _).1) (fun _ => (narrow_lt _ _).2)⟩
  | powP vd va vb =>
    exact ⟨_, rfl, .plain (.head _) (fun _ => powVal_lt _ _ _) (.head _)⟩
  | powW vd va vb =>
    exact ⟨_, rfl, .wrapping (.head _) (fun _ => powVal_lt _ _ _)⟩
  | powC vd va vb =>
    exact ⟨_, rfl, .checked (.head _) (fun _ => powVal_lt _ _ _) (.head _)⟩
  | powO vd va vb =>
    exact ⟨_, rfl, .overflowing (.head _) (fun _ => powVal_lt _ _ _) rfl⟩
  | powS vd va vb =>
    exact ⟨_, rfl, .saturating (.head _) (fun _ => powVal_lt _ _ _) (fun _ => maxValue_lt _)⟩
  | shlP vd va xk =>
    exact ⟨_, rfl, .wrapping (.head _) (fun _ => shlVal_lt)⟩
  | shlW vd va xk =>
    exact ⟨_, rfl, .wrapping (.head _) (fun _ => shlVal_lt)⟩
  | shlC vd va xk =>
    exact ⟨_, rfl, .checked (.head _) (fun _ => shlVal_lt) (.head _)⟩
  | shlO vd va xk =>
    exact ⟨_, rfl, .overflowing (.head _) (fun _ => shlVal_lt) rfl⟩
  | shlS vd va xk =>
    exact ⟨_, rfl, .saturating (.head _) (fun _ => shlVal_lt) (fun _ => maxValue_lt _)⟩
  | shrP vd va xk =>
    exact ⟨_, rfl, .wrapping (.head _) (fun hc => shrVal_lt (hc _))⟩
  | shrW vd va xk =>
    exact ⟨_, rfl, .wrapping (.head _) (fun hc => shrVal_lt (hc _))⟩
  | shrC vd va xk =>
    exact ⟨_, rfl, .checked (.head _) (fun hc => shrVal_lt (hc _)) (.head _)⟩
  | shrO vd va xk =>
    exact ⟨_, rfl, .overflowing (.head _) (fun hc => shrVal_lt (hc _)) rfl⟩
  | shrS vd va xk =>
    exact ⟨_, rfl, .saturating (.head _) (fun hc => shrVal_lt (hc _))
      (fun hc => shrVal_lt (inexact := s.params.shrOvfInexact) (hc _))⟩
  | div vd va vb =>
    exact ⟨_, rfl, .ite (fun _ => .trap (.head _)) fun _ => .ofV (.head _)
      (fun hc => Nat.lt_of_le_of_lt (Nat.div_le_self _ _) (hc _))⟩
  | rem vd va vb =>
    exact ⟨_, rfl, .ite (fun _ => .trap (.head _)) fun _ => .ofV (.head _)
      (fun hc => Nat.lt_of_le_of_lt (Nat.mod_le _ _) (hc _))⟩
  | cdiv vd va vb =>
    exact ⟨_, rfl, .ite (fun _ => .absent (.head _)) fun _ => .ofV (.head _)
      (fun hc => Nat.lt_of_le_of_lt (Nat.div_le_self _ _) (hc _))⟩
  | crem vd va vb =>
    exact ⟨_, rfl, .ite (fun _ => .absent (.head _)) fun _ => .ofV (.head _)
      (fun hc => Nat.lt_of_le_of_lt (Nat.mod_le _ _) (hc _))⟩
  | divceil vd va vb =>
    exact ⟨_, rfl, .ite (fun _ => .trap (.head _)) fun h => .ofV (.head _)
      (fun hc => Nat.lt_of_le_of_lt (divCeil_le h) (hc _))⟩
  | log xd va vb =>
    exact ⟨_, rfl, .ite (fun _ => .trap (.head _)) fun _ => .ofX (.head _)⟩
  | clog xd va vb =>
    exact ⟨_, rfl, .ite (fun _ => .absent (.head _)) fun _ => .ofX (.head _)⟩
  | log2 xd va =>
    exact ⟨_, rfl, .ite (fun _ => .trap (.head _)) fun _ => .ofX (.head _)⟩
  | clog2 xd va =>
    exact ⟨_, rfl, .ite (fun _ => .absent (.head _)) fun _ => .ofX (.head _)⟩
  | log10 xd va =>
    exact ⟨_, rfl, .ite (fun _ => .trap (.head _)) fun _ => .ofX (.head _)⟩
  | clog10 xd va =>
    exact ⟨_, rfl, .ite (fun _ => .absent (.head _)) fun _ => .ofX (.head _)⟩
  | root vd va xdeg =>
    exact ⟨_, rfl, .ite (fun _ => .trap (.head _)) fun h => .ofV (.head _)
      (fun hc => Nat.lt_of_le_of_lt (iroot_le h) (hc _))⟩
  | redmod vd va vm =>
    exact ⟨_, rfl, .ite (fun _ => .trap (.head _)) fun h => .ofV (.head _)
      (fun hc => Nat.lt_trans (Nat.mod_lt _ (Nat.pos_of_ne_zero h)) (hc vm))⟩
  | addmod vd va vb vm =>
    exact ⟨_, rfl, .ite (fun _ => .trap (.head _)) fun h => .ofV (.head _)
      (fun hc => Nat.lt_trans (Nat.mod_lt _ (Nat.pos_of_ne_zero h)) (hc vm))⟩
  | mulmod vd va vb vm =>
    exact ⟨_, rfl, .ite (fun _ => .trap (.head _)) fun h => .ofV (.head _)
      (fun hc => Nat.lt_trans (Nat.mod_lt _ (Nat.pos_of_ne_zero h)) (hc vm))⟩
  | powmod vd va vb vm =>
    exact ⟨_, rfl, .ite (fun _ => .trap (.head _)) fun h => .ofV (.head _) (fun hc =>
      powMod_spec _ _ _ ▸ Nat.lt_trans (Nat.mod_lt _ (Nat.pos_of_ne_zero h)) (hc vm))⟩
  | invmod vd va vm =>
    exact ⟨_, rfl, .ite (fun _ => .absent (.head _)) fun h => .ite (fun _ => .ofV (.head _)
      (fun _ => Nat.two_pow_pos _)) fun _ =>
      .ite (fun _ => .absent (.head _)) fun _ => .ofV (.head _)
        (fun hc => Nat.lt_trans (cofactorMod_spec h _).1 (hc vm))⟩
  | mulredc vd va vb vm xinv =>
    exact ⟨_, rfl, .ite (fun _ => .trap (.head _)) fun h => .ite (fun _ => .trap (.head _)) fun h2 =>
      .ofV (.head _) (fun hc => redcMul_lt h h2 (hc vm))⟩
  | sqrredc vd va vm xinv =>
    exact ⟨_, rfl, .ite (fun _ => .trap (.head _)) fun h => .ite (fun _ => .trap (.head _)) fun h2 =>
      .ofV (.head _) (fun hc => redcMul_lt h (fun e => h2 (e.elim id id)) (hc vm))⟩
  | gcd vd va vb =>
    exact ⟨_, rfl, .ofV (.head _) (fun hc => gcd_lt (hc _) (hc _))⟩
  | lcm vd va vb =>
    exact ⟨_, rfl, .ite (fun _ => .absent (.head _)) fun h => .ofV (.head _) (fun _ => Nat.lt_of_not_le h)⟩
  | vnot vd va =>
    exact ⟨_, rfl, .ofV (.head _) (fun hc => by
      rw [State.wideLimbs, val_canon_not (hc _)]; have := maxValue_lt s.B; omega)⟩
  | vand vd va vb =>
    exact ⟨_, rfl, .ofV (.head _) (fun hc => by
      rw [State.wideLimbs, State.wideLimbs, val_and_limbs (hc _) (hc _)]; exact Nat.and_lt_two_pow _ (hc _))⟩
  | vor vd va vb =>
    exact ⟨_, rfl, .ofV (.head _) (fun hc => by
      rw [State.wideLimbs, State.wideLimbs, val_or_limbs (hc _) (hc _)]; exact Nat.or_lt_two_pow (hc _) (hc _))⟩
  | vxor vd va vb =>
    exact ⟨_, rfl, .ofV (.head _) (fun hc => by
      rw [State.wideLimbs, State.wideLimbs, val_xor_limbs (hc _) (hc _)]; exact Nat.xor_lt_two_pow (hc _) (hc _))⟩
  | rol vd va xk =>
    exact ⟨_, rfl, .ofV (.head _) (fun hc => rotl_lt (hc _) _)⟩
  | ror vd va xk =>
    exact ⟨_, rfl, .ofV (.head _) (fun hc => rotr_lt (hc _) _)⟩
  | revb vd va =>
    exact ⟨_, rfl, .ofV (.head _) (fun _ => reverseBits_lt _ _)⟩
  | clz xd va =>
    exact ⟨_, rfl, .ofX (.head _)⟩
  | clo xd va =>
    exact ⟨_, rfl, .ofX (.head _)⟩
  | ctz xd va =>
    exact ⟨_, rfl, .ofX (.head _)⟩
  | cto xd va =>
    exact ⟨_, rfl, .ofX (.head _)⟩
  | popc xd va =>
    exact ⟨_, rfl, .ofX (.head _)⟩
  | cntz xd va =>
    exact ⟨_, rfl, .ofX (.head _)⟩
  | bitlen xd va =>
    exact ⟨_, rfl, .ofX (.head _)⟩
  | bytelen xd va =>
    exact ⟨_, rfl, .ofX (.head _)⟩
  | iszero xd va =>
    exact ⟨_, rfl, .ofX (.head _)⟩
  | ispow2 xd va =>
    exact ⟨_, rfl, .ofX (.head _)⟩
  | nextpow2 vd va =>
    exact ⟨_, rfl, .ite (fun _ => .ofV (.head _) (fun _ => Nat.two_pow_pos _)) fun _ =>
      .ite (fun _ => .absent (.head _)) fun h => .ofV (.head _) (fun _ => Nat.lt_of_not_le h)⟩
  | nextmult vd va vb =>
    exact ⟨_, rfl, .ite (fun _ => .trap (.head _)) fun _ => .ite (fun _ => .absent (.head _)) fun h =>
      .ofV (.head _) (fun _ => Nat.lt_of_not_le h)⟩
  | bit xd va xi =>
    exact ⟨_, rfl, .ofX (.head _)⟩
  | setbit vd va xi =>
    exact ⟨_, rfl, .ite (fun _ => .trap (.head _)) fun h => .ofV (.head _) (fun hc =>
      Nat.or_lt_two_pow (hc _) (Nat.pow_lt_pow_right (by omega) (Nat.lt_of_not_le h)))⟩
  | clrbit vd va xi =>
    exact ⟨_, rfl, .ite (fun _ => .trap (.head _)) fun _ => .ofV (.head _)
      (fun hc => Nat.lt_of_le_of_lt (Nat.sub_le _ _) (hc _))⟩
  | byte xd va xi =>
    exact ⟨_, rfl, .ofX (.head _)⟩
  | cbyte xd va xi =>
    exact ⟨_, rfl, .ite (fun _ => .absent (.head _)) fun _ => .ofX (.head _)⟩
  | msbits xd va xk =>
    exact ⟨_, rfl, .ite (fun _ => .trap (.head _)) fun _ => .ofX (.head _)⟩
  | veq xd va vb =>
    exact ⟨_, rfl, .ofX (.head _)⟩
  | vlt xd va vb =>
    exact ⟨_, rfl, .ofX (.head _)⟩

/-- What one host action leaves of `u` (10_state.md R33, R38; 20_memory.md R56; 60_exceptions.md R326, R328;
70_reset_and_hazards.md R350). -/
inductive HostStep (u : State) : HostAction → State → Prop where
  | read (i : Nat) : HostStep u (.read i) { u with hostData := u.hostRead i }
  | write (i : Nat) (w : Word) (hi : i ≠ cmdIndex) : HostStep u (.write i w) (u.hostWrite i w)
  | discarded (w : Word) (h : u.rst = true ∨ u.st.fault = true) : HostStep u (.write cmdIndex w) u
  | illegal (w : Word) (e : Illegal) (hr : u.rst = false) (hf : u.st.fault = false)
      (hd : decode (w.setWidth 32) = .error e) :
      HostStep u (.write cmdIndex w) ({ u with cmd := w.setWidth 32 }.trap .illegalCommand)
  | command (w : Word) (i : Instr) (t : State) (hr : u.rst = false) (hf : u.st.fault = false)
      (hd : decode (w.setWidth 32) = .ok i) (he : exec i { u with cmd := w.setWidth 32 } = .next t)
      (ho : Outcome i { u with cmd := w.setWidth 32 } t) : HostStep u (.write cmdIndex w) t
  | assertRst : HostStep u .assertRst { u with rst := true }
  | reset (h : u.rst = true) : HostStep u .releaseRst u.afterReset
  | idleRelease (h : u.rst = false) : HostStep u .releaseRst u

/-- An access to a busy block stops the machine; every other host action answers a next state. -/
theorem hostAct_cases (u : State) (a : HostAction) :
    (u.st.busy = true ∧ u.hostAct a = .fault .handshakeBroken) ∨ ∃ t, u.hostAct a = .next t ∧ HostStep u a t := by
  cases a with
  | read i =>
    by_cases h : (u.st.busy && u.readNeedsIdle i) = true
    · exact .inl ⟨(Bool.and_eq_true_iff.1 h).1, if_pos h⟩
    · exact .inr ⟨_, if_neg h, .read i⟩
  | write i w =>
    by_cases h : (u.st.busy && u.writeNeedsIdle i) = true
    · exact .inl ⟨(Bool.and_eq_true_iff.1 h).1, if_pos h⟩
    · refine .inr ?_
      rw [State.hostAct, if_neg h]
      by_cases hi : i = cmdIndex
      · subst hi
        rw [if_pos rfl, State.giveCommand]
        by_cases hr : u.rst = true
        · rw [if_pos hr]; exact ⟨_, rfl, .discarded w (.inl hr)⟩
        · rw [if_neg hr]
          by_cases hf : u.st.fault = true
          · rw [if_pos hf]; exact ⟨_, rfl, .discarded w (.inr hf)⟩
          · rw [if_neg hf, State.accept]
            cases hd : decode (w.setWidth 32) with
            | error e => exact ⟨_, rfl, .illegal w e (by simpa using hr) (by simpa using hf) hd⟩
            | ok j =>
              obtain ⟨t, he, ho⟩ := exec_outcome j { u with cmd := w.setWidth 32 }
              exact ⟨t, he, .command w j t (by simpa using hr) (by simpa using hf) hd he ho⟩
      · rw [if_neg hi]; exact ⟨_, rfl, .write i w hi⟩
  | assertRst => exact .inr ⟨_, rfl, .assertRst⟩
  | releaseRst =>
    refine .inr ?_
    rw [State.hostAct]
    by_cases hr : u.rst = true
    · rw [if_pos hr]; exact ⟨_, rfl, .reset hr⟩
    · rw [if_neg hr]; exact ⟨_, rfl, .idleRelease (by simpa using hr)⟩

/-- EVERYTHING A STEP CAN DO when it answers a next state. -/
theorem step_next {s t : State} (h : step s = .next t) :
    (s.host = [] ∧ t = s) ∨ ∃ a rest, s.host = a :: rest ∧ HostStep { s with host := rest } a t := by
  unfold step at h
  split at h
  · cases h; exact .inl ⟨‹_›, rfl⟩
  · rename_i a rest hh
    refine .inr ⟨a, rest, hh, ?_⟩
    rcases hostAct_cases { s with host := rest } a with ⟨_, h'⟩ | ⟨t', h', hs⟩
    · rw [h'] at h; cases h
    · rw [h'] at h; cases h; exact hs

/-- What a host write other than a command changes: one `X` register or one existing `LMEM` word. -/
theorem hostWrite_cases (u : State) (i : Nat) (w : Word) :
    (∃ j : XReg, i = xBase + j.val ∧ u.hostWrite i w = u.writeX j w) ∨
    (∃ a, a < u.params.nlmem.val ∧ i = lmemBase + a ∧ u.hostWrite i w = u.writeLmem a w) ∨ u.hostWrite i w = u := by
  unfold State.hostWrite
  split
  · rename_i h
    simp only [isXIndex, Bool.and_eq_true, decide_eq_true_eq] at h
    have hj : (xOfIndex i).val = i - xBase := Nat.mod_eq_of_lt (by omega)
    exact .inl ⟨xOfIndex i, by omega, rfl⟩
  · split
    · rename_i h
      simp only [State.isLmemIndex, Bool.and_eq_true, decide_eq_true_eq] at h
      exact .inr (.inl ⟨i - lmemBase, by omega, by omega, rfl⟩)
    · exact .inr (.inr rfl)

end Sys2Proof.Machine
end

