-- ==== Sys2Proof/Machine/Assembly.lean ====
section
/-! DEFINITION. The written form of a command and the pseudo-instructions (30_encoding.md rules R83, R84). -/

namespace Sys2Proof.Machine

/-- A wide register, `v0 .. v15` (R83). -/
def wideName (i : VReg) : String := "v" ++ toString i.val

/-- A scalar register, `x0 .. x15` (R83). -/
def scalarName (i : XReg) : String := "x" ++ toString i.val

/-- `MNEMONIC op1, op2, ...` (R83). -/
def written (mnemonic : String) (ops : List String) : String :=
  match ops with
  | [] => mnemonic
  | _ => mnemonic ++ " " ++ String.intercalate ", " ops

/-- A command as R83 writes it: operands in field order, unused fields skipped, the immediate in decimal. -/
def assembly : Instr → String
  | .nop => written "NOP" []
  | .lix xd imm => written "LIX" [scalarName xd, toString imm.toNat]
  | .mov vd va => written "MOV" [wideName vd, wideName va]
  | .ldc vd sel => written "LDC" [wideName vd, toString sel.toNat]
  | .stl vs xaddr => written "STL" [wideName vs, scalarName xaddr]
  | .ldl vd xaddr xn => written "LDL" [wideName vd, scalarName xaddr, scalarName xn]
  | .ldsW vd xaddr xn => written "LDS.W" [wideName vd, scalarName xaddr, scalarName xn]
  | .ldsC vd xaddr xn => written "LDS.C" [wideName vd, scalarName xaddr, scalarName xn]
  | .ldsO vd xaddr xn => written "LDS.O" [wideName vd, scalarName xaddr, scalarName xn]
  | .ldsS vd xaddr xn => written "LDS.S" [wideName vd, scalarName xaddr, scalarName xn]
  | .addP vd va vb => written "ADD.P" [wideName vd, wideName va, wideName vb]
  | .addW vd va vb => written "ADD.W" [wideName vd, wideName va, wideName vb]
  | .addC vd va vb => written "ADD.C" [wideName vd, wideName va, wideName vb]
  | .addO vd va vb => written "ADD.O" [wideName vd, wideName va, wideName vb]
  | .addS vd va vb => written "ADD.S" [wideName vd, wideName va, wideName vb]
  | .subP vd va vb => written "SUB.P" [wideName vd, wideName va, wideName vb]
  | .subW vd va vb => written "SUB.W" [wideName vd, wideName va, wideName vb]
  | .subC vd va vb => written "SUB.C" [wideName vd, wideName va, wideName vb]
  | .subO vd va vb => written "SUB.O" [wideName vd, wideName va, wideName vb]
  | .subS vd va vb => written "SUB.S" [wideName vd, wideName va, wideName vb]
  | .mulP vd va vb => written "MUL.P" [wideName vd, wideName va, wideName vb]
  | .mulW vd va vb => written "MUL.W" [wideName vd, wideName va, wideName vb]
  | .mulC vd va vb => written "MUL.C" [wideName vd, wideName va, wideName vb]
  | .mulO vd va vb => written "MUL.O" [wideName vd, wideName va, wideName vb]
  | .mulS vd va vb => written "MUL.S" [wideName vd, wideName va, wideName vb]
  | .mulxP vd va xb => written "MULX.P" [wideName vd, wideName va, scalarName xb]
  | .mulxW vd va xb => written "MULX.W" [wideName vd, wideName va, scalarName xb]
  | .mulxC vd va xb => written "MULX.C" [wideName vd, wideName va, scalarName xb]
  | .mulxO vd va xb => written "MULX.O" [wideName vd, wideName va, scalarName xb]
  | .mulxS vd va xb => written "MULX.S" [wideName vd, wideName va, scalarName xb]
  | .negP vd va => written "NEG.P" [wideName vd, wideName va]
  | .negW vd va => written "NEG.W" [wideName vd, wideName va]
  | .negC vd va => written "NEG.C" [wideName vd, wideName va]
  | .negO vd va => written "NEG.O" [wideName vd, wideName va]
  | .negS vd va => written "NEG.S" [wideName vd, wideName va]
  | .powP vd va vb => written "POW.P" [wideName vd, wideName va, wideName vb]
  | .powW vd va vb => written "POW.W" [wideName vd, wideName va, wideName vb]
  | .powC vd va vb => written "POW.C" [wideName vd, wideName va, wideName vb]
  | .powO vd va vb => written "POW.O" [wideName vd, wideName va, wideName vb]
  | .powS vd va vb => written "POW.S" [wideName vd, wideName va, wideName vb]
  | .shlP vd va xk => written "SHL.P" [wideName vd, wideName va, scalarName xk]
  | .shlW vd va xk => written "SHL.W" [wideName vd, wideName va, scalarName xk]
  | .shlC vd va xk => written "SHL.C" [wideName vd, wideName va, scalarName xk]
  | .shlO vd va xk => written "SHL.O" [wideName vd, wideName va, scalarName xk]
  | .shlS vd va xk => written "SHL.S" [wideName vd, wideName va, scalarName xk]
  | .shrP vd va xk => written "SHR.P" [wideName vd, wideName va, scalarName xk]
  | .shrW vd va xk => written "SHR.W" [wideName vd, wideName va, scalarName xk]
  | .shrC vd va xk => written "SHR.C" [wideName vd, wideName va, scalarName xk]
  | .shrO vd va xk => written "SHR.O" [wideName vd, wideName va, scalarName xk]
  | .shrS vd va xk => written "SHR.S" [wideName vd, wideName va, scalarName xk]
  | .div vd va vb => written "DIV" [wideName vd, wideName va, wideName vb]
  | .rem vd va vb => written "REM" [wideName vd, wideName va, wideName vb]
  | .cdiv vd va vb => written "CDIV" [wideName vd, wideName va, wideName vb]
  | .crem vd va vb => written "CREM" [wideName vd, wideName va, wideName vb]
  | .divceil vd va vb => written "DIVCEIL" [wideName vd, wideName va, wideName vb]
  | .divrem vq va vb vr => written "DIVREM" [wideName vq, wideName va, wideName vb, wideName vr]
  | .log xd va vb => written "LOG" [scalarName xd, wideName va, wideName vb]
  | .clog xd va vb => written "CLOG" [scalarName xd, wideName va, wideName vb]
  | .log2 xd va => written "LOG2" [scalarName xd, wideName va]
  | .clog2 xd va => written "CLOG2" [scalarName xd, wideName va]
  | .log10 xd va => written "LOG10" [scalarName xd, wideName va]
  | .clog10 xd va => written "CLOG10" [scalarName xd, wideName va]
  | .root vd va xdeg => written "ROOT" [wideName vd, wideName va, scalarName xdeg]
  | .redmod vd va vm => written "REDMOD" [wideName vd, wideName va, wideName vm]
  | .addmod vd va vb vm => written "ADDMOD" [wideName vd, wideName va, wideName vb, wideName vm]
  | .mulmod vd va vb vm => written "MULMOD" [wideName vd, wideName va, wideName vb, wideName vm]
  | .powmod vd va vb vm => written "POWMOD" [wideName vd, wideName va, wideName vb, wideName vm]
  | .invmod vd va vm => written "INVMOD" [wideName vd, wideName va, wideName vm]
  | .mulredc vd va vb vm xinv => written "MULREDC" [wideName vd, wideName va, wideName vb, wideName vm, scalarName xinv]
  | .sqrredc vd va vm xinv => written "SQRREDC" [wideName vd, wideName va, wideName vm, scalarName xinv]
  | .gcd vd va vb => written "GCD" [wideName vd, wideName va, wideName vb]
  | .gcdext vg va vb vx vy => written "GCDEXT" [wideName vg, wideName va, wideName vb, wideName vx, wideName vy]
  | .lcm vd va vb => written "LCM" [wideName vd, wideName va, wideName vb]
  | .vnot vd va => written "NOT" [wideName vd, wideName va]
  | .vand vd va vb => written "AND" [wideName vd, wideName va, wideName vb]
  | .vor vd va vb => written "OR" [wideName vd, wideName va, wideName vb]
  | .vxor vd va vb => written "XOR" [wideName vd, wideName va, wideName vb]
  | .rol vd va xk => written "ROL" [wideName vd, wideName va, scalarName xk]
  | .ror vd va xk => written "ROR" [wideName vd, wideName va, scalarName xk]
  | .revb vd va => written "REVB" [wideName vd, wideName va]
  | .clz xd va => written "CLZ" [scalarName xd, wideName va]
  | .clo xd va => written "CLO" [scalarName xd, wideName va]
  | .ctz xd va => written "CTZ" [scalarName xd, wideName va]
  | .cto xd va => written "CTO" [scalarName xd, wideName va]
  | .popc xd va => written "POPC" [scalarName xd, wideName va]
  | .cntz xd va => written "CNTZ" [scalarName xd, wideName va]
  | .bitlen xd va => written "BITLEN" [scalarName xd, wideName va]
  | .bytelen xd va => written "BYTELEN" [scalarName xd, wideName va]
  | .iszero xd va => written "ISZERO" [scalarName xd, wideName va]
  | .ispow2 xd va => written "ISPOW2" [scalarName xd, wideName va]
  | .nextpow2 vd va => written "NEXTPOW2" [wideName vd, wideName va]
  | .nextmult vd va vb => written "NEXTMULT" [wideName vd, wideName va, wideName vb]
  | .bit xd va xi => written "BIT" [scalarName xd, wideName va, scalarName xi]
  | .setbit vd va xi => written "SETBIT" [wideName vd, wideName va, scalarName xi]
  | .clrbit vd va xi => written "CLRBIT" [wideName vd, wideName va, scalarName xi]
  | .byte xd va xi => written "BYTE" [scalarName xd, wideName va, scalarName xi]
  | .cbyte xd va xi => written "CBYTE" [scalarName xd, wideName va, scalarName xi]
  | .msbits xd va xk => written "MSBITS" [scalarName xd, wideName va, scalarName xk]
  | .veq xd va vb => written "EQ" [scalarName xd, wideName va, wideName vb]
  | .vlt xd va vb => written "LT" [scalarName xd, wideName va, wideName vb]

/-- `ZERO vd` is `LDC vd, 0` (R84). -/
def pseudoZero (vd : VReg) : Instr := .ldc vd 0

/-- `ONE vd` is `LDC vd, 1` (R84). -/
def pseudoOne (vd : VReg) : Instr := .ldc vd 1

/-- `MAXV vd` is `LDC vd, 2` (R84). -/
def pseudoMaxv (vd : VReg) : Instr := .ldc vd 2

end Sys2Proof.Machine
end

