-- ==== Sys2Proof/Tests/Slice0.lean ====
section
/-! SUPPORT. Tests: the operand checks, one word of every command, one-step vectors, the limb-level procedures,
the host's accesses, and for every obligation with hypotheses a concrete state and operands that meet them. The
expected results are those of the spec: 95_test_vectors.md (its row ids are cited), 30_encoding.md R79, R83, and
the numbers stated beside each test. -/

namespace Sys2Proof.Tests

open Sys2Proof.Machine

/-- The reset state of the instance of width `B` of 95_test_vectors.md section 0, with the listed values written
to wide registers, scalar registers and limb memory. -/
def machine (B : Fin 4294967296) (v x l : List (Nat × Nat)) : State :=
  let s := State.resetOf ⟨B, 64, false, true⟩
  let s := v.foldl (fun s q => s.writeV (Fin.ofNat 16 q.1) q.2) s
  let s := x.foldl (fun s q => s.writeX (Fin.ofNat 16 q.1) (BitVec.ofNat 64 q.2)) s
  l.foldl (fun s q => s.writeLmem q.1 (BitVec.ofNat 64 q.2)) s

/-- The same in a `DEBUG = true` instance. -/
def debugMachine (s : State) : State := { s with params := { s.params with debug := true } }

/-- The same in a `SHR_OVF_INEXACT = false` instance. -/
def exactMachine (s : State) : State := { s with params := { s.params with shrOvfInexact := false } }

/-- The same with `ST.OVF = 1`. -/
def ovfSet (s : State) : State := { s with st := { s.st with ovf := true } }

/-- The same with one pending host action. -/
def hosted (s : State) (a : HostAction) : State := { s with host := [a] }

/-- Giving the word `w` in `s` leaves exactly `t s`, the latched word aside. -/
def vector (s : State) (w : Nat) (t : State → State) : Bool :=
  match step (s.withFetchWord 32 w) with
  | .next u => decide (u = { t s with cmd := BitVec.ofNat 32 w })
  | _ => false

/-- `absent(k)`: `ST.ABS = 1` and `ST.KIND`. -/
def expectAbsent (k : Kind) (s : State) : State := { s with st := ⟨s.st.ovf, s.st.sgn, true, false, some k, false⟩ }

/-- `trap k`: `ST.FAULT = 1`, `ST.KIND` and `FCMD` = the word. -/
def expectTrap (k : Kind) (w : Nat) (s : State) : State :=
  { s with st := ⟨s.st.ovf, s.st.sgn, false, true, some k, false⟩, fcmd := BitVec.ofNat 64 w }

/-- Every word of the list decodes to the command beside it. -/
def decodesAll (l : List (CommandWord × Instr)) : Bool :=
  l.all fun p => match decode p.1 with
    | .ok i => decide (i = p.2)
    | .error _ => false

/-! ### Operand checks (30_encoding.md R79): ill-formed terms are refused, and so are their words -/

theorem test_wellFormed_ldc_selector : (Instr.ldc 1 3).wellFormed = false ∧ (Instr.ldc 1 2).wellFormed = true ∧
    (Instr.ldc 1 0xFFFF).wellFormed = false ∧ decode (encode (.ldc 1 3)) = .error .operandCondition := by decide

theorem test_wellFormed_divrem_destinations : (Instr.divrem 4 1 2 4).wellFormed = false ∧
    (Instr.divrem 1 1 2 2).wellFormed = true ∧
    decode (encode (.divrem 4 1 2 4)) = .error .operandCondition := by decide

theorem test_wellFormed_gcdext_destinations : (Instr.gcdext 6 1 2 6 4).wellFormed = false ∧
    (Instr.gcdext 6 1 2 3 6).wellFormed = false ∧ (Instr.gcdext 6 1 2 3 3).wellFormed = false ∧
    (Instr.gcdext 6 1 2 3 4).wellFormed = true ∧
    decode (encode (.gcdext 6 1 2 6 4)) = .error .operandCondition ∧
    decode (encode (.gcdext 6 1 2 3 6)) = .error .operandCondition ∧
    decode (encode (.gcdext 6 1 2 3 3)) = .error .operandCondition := by decide


/-! ### Decoding: the words of 95_test_vectors.md section 2.1, one of every command -/

theorem test_decode_system : decodesAll [
    (0x00000000, .nop), (0x011BEEF0, .lix 1 0xBEEF), (0x02120000, .mov 1 2), (0x03100020, .ldc 1 2),
    (0x04120000, .stl 1 2)] = true := by decide

theorem test_decode_load : decodesAll [
    (0x08123000, .ldl 1 2 3), (0x09123000, .ldsW 1 2 3), (0x0A123000, .ldsC 1 2 3), (0x0B123000, .ldsO 1 2 3),
    (0x0C123000, .ldsS 1 2 3)] = true := by decide

theorem test_decode_add_sub : decodesAll [
    (0x10123000, .addP 1 2 3), (0x11123000, .addW 1 2 3), (0x12123000, .addC 1 2 3), (0x13123000, .addO 1 2 3),
    (0x14123000, .addS 1 2 3), (0x18123000, .subP 1 2 3), (0x19123000, .subW 1 2 3), (0x1A123000, .subC 1 2 3),
    (0x1B123000, .subO 1 2 3), (0x1C123000, .subS 1 2 3)] = true := by decide

theorem test_decode_mul : decodesAll [
    (0x20123000, .mulP 1 2 3), (0x21123000, .mulW 1 2 3), (0x22123000, .mulC 1 2 3), (0x23123000, .mulO 1 2 3),
    (0x24123000, .mulS 1 2 3), (0x28123000, .mulxP 1 2 3), (0x29123000, .mulxW 1 2 3), (0x2A123000, .mulxC 1 2 3),
    (0x2B123000, .mulxO 1 2 3), (0x2C123000, .mulxS 1 2 3)] = true := by decide

theorem test_decode_neg_pow : decodesAll [
    (0x30120000, .negP 1 2), (0x31120000, .negW 1 2), (0x32120000, .negC 1 2), (0x33120000, .negO 1 2),
    (0x34120000, .negS 1 2), (0x38123000, .powP 1 2 3), (0x39123000, .powW 1 2 3), (0x3A123000, .powC 1 2 3),
    (0x3B123000, .powO 1 2 3), (0x3C123000, .powS 1 2 3)] = true := by decide

theorem test_decode_shift : decodesAll [
    (0x40123000, .shlP 1 2 3), (0x41123000, .shlW 1 2 3), (0x42123000, .shlC 1 2 3), (0x43123000, .shlO 1 2 3),
    (0x44123000, .shlS 1 2 3), (0x48123000, .shrP 1 2 3), (0x49123000, .shrW 1 2 3), (0x4A123000, .shrC 1 2 3),
    (0x4B123000, .shrO 1 2 3), (0x4C123000, .shrS 1 2 3)] = true := by decide

theorem test_decode_divide_log_root : decodesAll [
    (0x50123000, .div 1 2 3), (0x51123000, .rem 1 2 3), (0x52123000, .cdiv 1 2 3), (0x53123000, .crem 1 2 3),
    (0x54123000, .divceil 1 2 3), (0x55123400, .divrem 1 2 3 4), (0x58123000, .log 1 2 3),
    (0x59123000, .clog 1 2 3), (0x5A120000, .log2 1 2), (0x5B120000, .clog2 1 2), (0x5C120000, .log10 1 2),
    (0x5D120000, .clog10 1 2), (0x5E123000, .root 1 2 3)] = true := by decide

theorem test_decode_modular : decodesAll [
    (0x60123000, .redmod 1 2 3), (0x61123400, .addmod 1 2 3 4), (0x62123400, .mulmod 1 2 3 4),
    (0x63123400, .powmod 1 2 3 4), (0x64123000, .invmod 1 2 3), (0x65123450, .mulredc 1 2 3 4 5),
    (0x66120450, .sqrredc 1 2 4 5), (0x68123000, .gcd 1 2 3), (0x69123450, .gcdext 1 2 3 4 5),
    (0x6A123000, .lcm 1 2 3)] = true := by decide

theorem test_decode_logic : decodesAll [
    (0x70120000, .vnot 1 2), (0x71123000, .vand 1 2 3), (0x72123000, .vor 1 2 3), (0x73123000, .vxor 1 2 3),
    (0x74123000, .rol 1 2 3), (0x75123000, .ror 1 2 3), (0x76120000, .revb 1 2)] = true := by decide

theorem test_decode_scan : decodesAll [
    (0x80120000, .clz 1 2), (0x81120000, .clo 1 2), (0x82120000, .ctz 1 2), (0x83120000, .cto 1 2),
    (0x84120000, .popc 1 2), (0x85120000, .cntz 1 2), (0x86120000, .bitlen 1 2), (0x87120000, .bytelen 1 2),
    (0x88120000, .iszero 1 2), (0x89120000, .ispow2 1 2)] = true := by decide

theorem test_decode_access : decodesAll [
    (0x8A120000, .nextpow2 1 2), (0x8B123000, .nextmult 1 2 3), (0x8C123000, .bit 1 2 3),
    (0x8D123000, .setbit 1 2 3), (0x8E123000, .clrbit 1 2 3), (0x8F123000, .byte 1 2 3), (0x90123000, .cbyte 1 2 3),
    (0x91123000, .msbits 1 2 3), (0x98123000, .veq 1 2 3), (0x99123000, .vlt 1 2 3)] = true := by decide

/-- T30-1 to T30-16 of 95_test_vectors.md: each illegal word traps `IllegalCommand` and changes nothing else. -/
theorem test_illegal_words : [
    0x05000000, 0x15312000, 0x0D123000, 0x13312001, 0x13312100, 0x02121000, 0x00000010, 0x03100030,
    0x03110020, 0x55412400, 0x69312340, 0x69612330, 0x66011370, 0x9A123000, 0xFFFFFFFF].all
    (fun w => vector (machine 64 [] [] []) w (expectTrap .illegalCommand w)) = true := by decide

/-! ### One step each: vectors of 95_test_vectors.md, named in the comment before each -/

/-- T40-2, T40-3: LIX x2, 300; LIX x15, 0xFFFF. -/
theorem test_lix :
    vector (machine 100 [] [(2, 0xFFFFFFFFFFFFFFFF)] []) 0x012012C0 (fun s => s.writeX 2 0x12C) = true ∧
    vector (machine 100 [] [] []) 0x01FFFFF0 (fun s => s.writeX 15 0xFFFF) = true := by decide

/-- T40-4: MOV v2, v1. -/
theorem test_mov :
    vector (machine 256 [(1, 0xF00F)] [] []) 0x02210000 (fun s => s.writeV 2 0xF00F) = true := by decide

/-- T40-7, T40-6: LDC v1, 2; LDC v1, 1. -/
theorem test_ldc :
    vector (machine 100 [] [] []) 0x03100020 (fun s => s.writeV 1 0xFFFFFFFFFFFFFFFFFFFFFFFFF) = true ∧
    vector (machine 100 [] [] []) 0x03100010 (fun s => s.writeV 1 1) = true := by decide

/-- T40-31, T40-33: STL v3, x4. -/
theorem test_stl :
    vector (machine 100 [(3, 0xFFFFFFFFFFFFFFFFFFFFFFFFF)] [(4, 8)] [])
      0x04340000 (fun s => (s.writeLmem 8 0xFFFFFFFFFFFFFFFF).writeLmem 9 0xFFFFFFFFF) = true ∧
    vector (machine 100 [(3, 0x123456789ABCDEF0123456789)] [(4, 0x3F)] [])
      0x04340000 (expectTrap .lmemRange 0x04340000) = true := by decide

/-- T40-10, T40-11: LDL v0, x1, x2. -/
theorem test_ldl :
    vector (machine 100 [] [(1, 0), (2, 2)] [(0, 5), (1, 0xFFFFFFFFF)])
      0x08012000 (fun s => s.writeV 0 0xFFFFFFFFF0000000000000005) = true ∧
    vector (machine 100 [] [(1, 0), (2, 2)] [(0, 5), (1, 0x1000000000)])
      0x08012000 (expectTrap .overflow 0x08012000) = true := by decide

/-- T40-19, T40-28, T40-21, S9, T40-22, T40-23, T40-24, T40-25. -/
theorem test_lds :
    vector (machine 100 [] [(1, 0), (2, 3)] [(0, 5), (1, 0xFFFFFFFFFFFFFFFF), (2, 7)])
      0x09012000 (fun s => s.writeV 0 0xFFFFFFFFF0000000000000005) = true ∧
    vector (machine 100 [] [(1, 0x3C), (2, 5)] []) 0x09012000 (expectTrap .lmemRange 0x09012000) = true ∧
    vector (machine 100 [] [(1, 0), (2, 3)] [(0, 5), (1, 0xFFFFFFFFF), (2, 0)])
      0x0A012000 (fun s => s.writeV 0 0xFFFFFFFFF0000000000000005) = true ∧
    vector (machine 8 [] [(1, 0), (2, 1)] [(0, 0x12C)]) 0x0A012000 (expectAbsent .overflow) = true ∧
    vector (machine 100 [] [(1, 0), (2, 3)] [(0, 5), (1, 0xFFFFFFFFFFFFFFFF), (2, 7)])
      0x0B012000 (fun s => (s.writeV 0 0xFFFFFFFFF0000000000000005).setOvf true) = true ∧
    vector (ovfSet (machine 100 [] [(1, 0), (2, 2)] [(0, 5), (1, 3)]))
      0x0B012000 (fun s => (s.writeV 0 0x30000000000000005).setOvf false) = true ∧
    vector (machine 100 [] [(1, 0), (2, 3)] [(0, 5), (1, 0xFFFFFFFFFFFFFFFF), (2, 7)])
      0x0C012000 (fun s => s.writeV 0 0xFFFFFFFFFFFFFFFFFFFFFFFFF) = true ∧
    vector (machine 100 [] [(1, 0), (2, 2)] [(0, 5), (1, 3)])
      0x0C012000 (fun s => s.writeV 0 0x30000000000000005) = true := by decide

/-- T41-6, T41-12, I3, T41-17, I10, I9, T41-14, T41-16, T41-10. -/
theorem test_add :
    vector (machine 100 [(1, 0xFFFFFFFFFFFFFFFFFFFFFFFFF), (2, 1), (3, 0x77)] [] [])
      0x10312000 (fun s => s.writeV 3 0) = true ∧
    vector (debugMachine (machine 100 [(1, 0xFFFFFFFFFFFFFFFFFFFFFFFFF), (2, 1), (3, 0x77)] [] []))
      0x10312000 (expectTrap .overflow 0x10312000) = true ∧
    vector (machine 100 [(1, 0x123456789ABCDEF0123456789), (2, 0xEDCBA9876543210FEDCBA9877), (3, 5)] [] [])
      0x11312000 (fun s => s.writeV 3 0) = true ∧
    vector (machine 100 [(1, 0xFFFFFFFFFFFFFFFFFFFFFFFFF)] [] [])
      0x11111000 (fun s => s.writeV 1 0xFFFFFFFFFFFFFFFFFFFFFFFFE) = true ∧
    vector (machine 100 [(1, 0x8000000000000000000000000), (2, 0x8000000000000000000000000), (3, 9)] [] [])
      0x12312000 (expectAbsent .overflow) = true ∧
    vector (machine 100 [(1, 0x8000000000000000000000000), (2, 0x8000000000000000000000000), (3, 9)] [] [])
      0x13312000 (fun s => (s.writeV 3 0).setOvf true) = true ∧
    vector (machine 256 [(1, 0xFFFFFFFFFFFFFFFFFFFFFFFFFFFFFFFFFFFFFFFFFFFFFFFF), (2, 1)] [] [])
      0x13312000 (fun s => s.writeV 3 0x1000000000000000000000000000000000000000000000000) = true ∧
    vector (machine 100 [(1, 0x8000000000000000000000000), (2, 0x8000000000000000000000000), (3, 1)] [] [])
      0x14312000 (fun s => s.writeV 3 0xFFFFFFFFFFFFFFFFFFFFFFFFF) = true ∧
    vector (machine 100 [(1, 0xFFFFFFFFFFFFFFFFFFFFFFFFF), (2, 1), (3, 0x77)] [] [])
      0x14312000 (fun s => s.writeV 3 0xFFFFFFFFFFFFFFFFFFFFFFFFF) = true := by decide

/-- T41-22, T41-27, I1, T41-23, T41-29, T41-24, T41-25, T41-30, T41-26. -/
theorem test_sub :
    vector (machine 100 [(1, 3), (2, 5), (3, 0x77)] [] [])
      0x18312000 (fun s => s.writeV 3 0xFFFFFFFFFFFFFFFFFFFFFFFFE) = true ∧
    vector (debugMachine (machine 100 [(1, 3), (2, 5), (3, 0x77)] [] []))
      0x18312000 (expectTrap .overflow 0x18312000) = true ∧
    vector (machine 100 [(0, 0), (1, 0x123456789ABCDEF0123456789)] [] [])
      0x19201000 (fun s => s.writeV 2 0xEDCBA9876543210FEDCBA9877) = true ∧
    vector (machine 100 [(1, 3), (2, 5), (3, 0x77)] [] [])
      0x19312000 (fun s => s.writeV 3 0xFFFFFFFFFFFFFFFFFFFFFFFFE) = true ∧
    vector (machine 128 [(1, 0x10000000000000000), (2, 1)] [] [])
      0x1A312000 (fun s => s.writeV 3 0xFFFFFFFFFFFFFFFF) = true ∧
    vector (machine 100 [(1, 3), (2, 5), (3, 0x77)] [] []) 0x1A312000 (expectAbsent .overflow) = true ∧
    vector (machine 100 [(1, 3), (2, 5), (3, 0x77)] [] [])
      0x1B312000 (fun s => (s.writeV 3 0xFFFFFFFFFFFFFFFFFFFFFFFFE).setOvf true) = true ∧
    vector (machine 100 [(1, 0x123456789ABCDEF0123456789)] [] []) 0x1B311000 id = true ∧
    vector (machine 100 [(1, 3), (2, 5), (3, 0x77)] [] []) 0x1C312000 (fun s => s.writeV 3 0) = true := by decide

/-- T41-32, T41-37, I5, T41-33, T41-43, T41-34, T41-38, T41-35, T41-36, T41-44. -/
theorem test_mul :
    vector (machine 100 [(1, 0x1000000000000001), (2, 0x4000000000000), (3, 0x77)] [] [])
      0x20312000 (fun s => s.writeV 3 0x4000000000000) = true ∧
    vector (debugMachine (machine 100 [(1, 0x1000000000000001), (2, 0x4000000000000), (3, 0x77)] [] []))
      0x20312000 (expectTrap .overflow 0x20312000) = true ∧
    vector (machine 100 [(1, 0x123456789ABCDEF0123456789), (2, 0x2000000000)] [] [])
      0x21312000 (fun s => s.writeV 3 0x579BDE02468ACF12000000000) = true ∧
    vector (machine 100 [(1, 0x1000000000000001), (2, 0x4000000000000), (3, 0x77)] [] [])
      0x21312000 (fun s => s.writeV 3 0x4000000000000) = true ∧
    vector (machine 100 [(1, 0x123456789ABCDEF0123456789), (2, 0), (3, 5)] [] [])
      0x22312000 (fun s => s.writeV 3 0) = true ∧
    vector (machine 100 [(1, 0x1000000000000001), (2, 0x4000000000000), (3, 0x77)] [] [])
      0x22312000 (expectAbsent .overflow) = true ∧
    vector (ovfSet (machine 100 [(1, 0x10000000000), (2, 0x4000000000003)] [] []))
      0x23312000 (fun s => (s.writeV 3 0x40000000000030000000000).setOvf false) = true ∧
    vector (machine 100 [(1, 0x1000000000000001), (2, 0x4000000000000), (3, 0x77)] [] [])
      0x23312000 (fun s => (s.writeV 3 0x4000000000000).setOvf true) = true ∧
    vector (machine 100 [(1, 0x1000000000000001), (2, 0x4000000000000), (3, 0x77)] [] [])
      0x24312000 (fun s => s.writeV 3 0xFFFFFFFFFFFFFFFFFFFFFFFFF) = true ∧
    vector (machine 100 [(1, 0x123456789ABCDEF0123456789), (2, 1)] [] [])
      0x24312000 (fun s => s.writeV 3 0x123456789ABCDEF0123456789) = true := by decide

/-- T41-46, T41-51, T41-47, T41-52, T41-48, T41-49, T41-54, T41-50. -/
theorem test_mulx :
    vector (machine 100 [(1, 0x8000000000000000000000000), (3, 0x77)] [(2, 3)] [])
      0x28312000 (fun s => s.writeV 3 0x8000000000000000000000000) = true ∧
    vector (debugMachine (machine 100 [(1, 0x8000000000000000000000000), (3, 0x77)] [(2, 3)] []))
      0x28312000 (expectTrap .overflow 0x28312000) = true ∧
    vector (machine 100 [(1, 0x8000000000000000000000000), (3, 0x77)] [(2, 3)] [])
      0x29312000 (fun s => s.writeV 3 0x8000000000000000000000000) = true ∧
    vector (machine 100 [(1, 0x40000000000000000000000)] [(2, 0x3E8)] [])
      0x2A312000 (fun s => s.writeV 3 0xFA00000000000000000000000) = true ∧
    vector (machine 100 [(1, 0x8000000000000000000000000), (3, 0x77)] [(2, 3)] [])
      0x2A312000 (expectAbsent .overflow) = true ∧
    vector (machine 100 [(1, 0x8000000000000000000000000), (3, 0x77)] [(2, 3)] [])
      0x2B312000 (fun s => (s.writeV 3 0x8000000000000000000000000).setOvf true) = true ∧
    vector (machine 100 [(1, 0x1000000000)] [(2, 0xFFFFFFFFFFFFFFFF)] [])
      0x2B312000 (fun s => s.writeV 3 0xFFFFFFFFFFFFFFFF000000000) = true ∧
    vector (machine 100 [(1, 0x8000000000000000000000000), (3, 0x77)] [(2, 3)] [])
      0x2C312000 (fun s => s.writeV 3 0xFFFFFFFFFFFFFFFFFFFFFFFFF) = true := by decide

/-- T41-58, T41-63, T41-65, T41-59, T41-66, T41-60, T41-61, T41-64, T41-62. -/
theorem test_neg :
    vector (machine 100 [(1, 1), (3, 0x77)] [] [])
      0x30310000 (fun s => s.writeV 3 0xFFFFFFFFFFFFFFFFFFFFFFFFF) = true ∧
    vector (debugMachine (machine 100 [(1, 1), (3, 0x77)] [] []))
      0x30310000 (expectTrap .overflow 0x30310000) = true ∧
    vector (machine 100 [(1, 0x8000000000000000000000000)] [] [])
      0x31310000 (fun s => s.writeV 3 0x8000000000000000000000000) = true ∧
    vector (machine 100 [(1, 1), (3, 0x77)] [] [])
      0x31310000 (fun s => s.writeV 3 0xFFFFFFFFFFFFFFFFFFFFFFFFF) = true ∧
    vector (machine 100 [(1, 0), (3, 0x77)] [] []) 0x32310000 (fun s => s.writeV 3 0) = true ∧
    vector (machine 100 [(1, 1), (3, 0x77)] [] []) 0x32310000 (expectAbsent .overflow) = true ∧
    vector (machine 100 [(1, 1), (3, 0x77)] [] [])
      0x33310000 (fun s => (s.writeV 3 0xFFFFFFFFFFFFFFFFFFFFFFFFF).setOvf true) = true ∧
    vector (ovfSet (machine 100 [(1, 0), (3, 0x77)] [] [])) 0x33310000 (fun s => (s.writeV 3 0).setOvf false) = true ∧
    vector (machine 100 [(1, 1), (3, 0x77)] [] []) 0x34310000 (fun s => s.writeV 3 0) = true := by decide

set_option maxRecDepth 8000 in
/-- T41-67, T41-72, T41-81, T41-68, T41-79, T41-69, T41-70, T41-77, T41-71. -/
theorem test_pow :
    vector (machine 64 [(1, 0xA), (2, 0x14), (3, 0x77)] [] [])
      0x38312000 (fun s => s.writeV 3 0x6BC75E2D63100000) = true ∧
    vector (debugMachine (machine 64 [(1, 0xA), (2, 0x14), (3, 0x77)] [] []))
      0x38312000 (expectTrap .overflow 0x38312000) = true ∧
    vector (machine 100 [(1, 3), (2, 0x40)] [] [])
      0x39312000 (fun s => s.writeV 3 0xB56D4AF8F7932278C797EBD01) = true ∧
    vector (machine 64 [(1, 0xA), (2, 0x14), (3, 0x77)] [] [])
      0x39312000 (fun s => s.writeV 3 0x6BC75E2D63100000) = true ∧
    vector (machine 100 [(1, 3), (2, 0x3F)] [] [])
      0x3A312000 (fun s => s.writeV 3 0xE7246E52FD310B7D97DD4E9AB) = true ∧
    vector (machine 64 [(1, 0xA), (2, 0x14), (3, 0x77)] [] []) 0x3A312000 (expectAbsent .overflow) = true ∧
    vector (machine 64 [(1, 0xA), (2, 0x14), (3, 0x77)] [] [])
      0x3B312000 (fun s => (s.writeV 3 0x6BC75E2D63100000).setOvf true) = true ∧
    vector (machine 64 [(1, 2), (2, 0x3F)] [] []) 0x3B312000 (fun s => s.writeV 3 0x8000000000000000) = true ∧
    vector (machine 64 [(1, 0xA), (2, 0x14), (3, 0x77)] [] [])
      0x3C312000 (fun s => s.writeV 3 0xFFFFFFFFFFFFFFFF) = true := by decide

/-- T44-13, T44-18, I4, T44-14, T44-26, T44-15, T44-20, T44-19, T44-17, T44-27. -/
theorem test_shl :
    vector (machine 100 [(1, 0x8000000000000000000000001), (3, 0x77)] [(2, 1)] [])
      0x40312000 (fun s => s.writeV 3 2) = true ∧
    vector (debugMachine (machine 100 [(1, 0x8000000000000000000000001), (3, 0x77)] [(2, 1)] []))
      0x40312000 (fun s => s.writeV 3 2) = true ∧
    vector (machine 100 [(1, 0x123456789ABCDEF0123456789)] [(2, 0x25)] [])
      0x41312000 (fun s => s.writeV 3 0x579BDE02468ACF12000000000) = true ∧
    vector (machine 100 [(1, 0x8000000000000000000000001), (3, 0x77)] [(2, 1)] [])
      0x41312000 (fun s => s.writeV 3 2) = true ∧
    vector (machine 100 [(1, 0x123456789ABCDEF0123456789)] [(2, 0)] [])
      0x42312000 (fun s => s.writeV 3 0x123456789ABCDEF0123456789) = true ∧
    vector (machine 100 [(1, 0x8000000000000000000000001), (3, 0x77)] [(2, 1)] [])
      0x42312000 (expectAbsent .overflow) = true ∧
    vector (machine 100 [(1, 0xF0F0F0F0F0F0F0F0F0F0F0F0F)] [(2, 0x40)] [])
      0x43312000 (fun s => (s.writeV 3 0xF0F0F0F0F0000000000000000).setOvf true) = true ∧
    vector (machine 100 [(1, 0xF0F0F0F0F0F0F0F0F0F0F0F0F)] [(2, 0x44)] [])
      0x43312000 (fun s => (s.writeV 3 0xF0F0F0F00000000000000000).setOvf true) = true ∧
    vector (machine 100 [(1, 0x8000000000000000000000001), (3, 0x77)] [(2, 1)] [])
      0x44312000 (fun s => s.writeV 3 0xFFFFFFFFFFFFFFFFFFFFFFFFF) = true ∧
    vector (machine 100 [(1, 3), (3, 9)] [(2, 0x64)] [])
      0x44312000 (fun s => s.writeV 3 0xFFFFFFFFFFFFFFFFFFFFFFFFF) = true := by decide

/-- T44-30, T44-37, T44-31, T44-43, T44-35, T44-32, T44-33, T44-41, T44-34, T44-44. -/
theorem test_shr :
    vector (machine 100 [(1, 0x8000000000000000000000001), (3, 0x77)] [(2, 1)] [])
      0x48312000 (fun s => s.writeV 3 0x4000000000000000000000000) = true ∧
    vector (debugMachine (machine 100 [(1, 0x8000000000000000000000001), (3, 0x77)] [(2, 1)] []))
      0x48312000 (fun s => s.writeV 3 0x4000000000000000000000000) = true ∧
    vector (machine 100 [(1, 0x8000000000000000000000001), (3, 0x77)] [(2, 1)] [])
      0x49312000 (fun s => s.writeV 3 0x4000000000000000000000000) = true ∧
    vector (machine 100 [(1, 0x123456789ABCDEF0123456789), (3, 9)] [(2, 0xFFFFFFFFFFFFFFFF)] [])
      0x49312000 (fun s => s.writeV 3 0) = true ∧
    vector (ovfSet (exactMachine (machine 100 [(1, 0x8000000000000000000000001), (3, 0x77)] [(2, 1)] [])))
      0x4A312000 (fun s => s.writeV 3 0x4000000000000000000000000) = true ∧
    vector (machine 100 [(1, 0x8000000000000000000000001), (3, 0x77)] [(2, 1)] [])
      0x4A312000 (expectAbsent .overflow) = true ∧
    vector (machine 100 [(1, 0x8000000000000000000000001), (3, 0x77)] [(2, 1)] [])
      0x4B312000 (fun s => (s.writeV 3 0x4000000000000000000000000).setOvf true) = true ∧
    vector (exactMachine (machine 100 [(1, 0x8000000000000000000000000), (3, 9)] [(2, 0x64)] []))
      0x4B312000 (fun s => s.writeV 3 0) = true ∧
    vector (machine 100 [(1, 0x8000000000000000000000001), (3, 0x77)] [(2, 1)] [])
      0x4C312000 (fun s => s.writeV 3 0x4000000000000000000000000) = true ∧
    vector (machine 100 [(1, 0x123456789ABCDEF0123456789)] [(2, 0x40)] [])
      0x4C312000 (fun s => s.writeV 3 0x123456789) = true := by decide

/-- T42-1, T42-3: DIV v3, v1, v2. -/
theorem test_div :
    vector (machine 128 [(1, 0x80000000000000000000000000000000), (2, 3)] [] [])
      0x50312000 (fun s => s.writeV 3 0x2AAAAAAAAAAAAAAAAAAAAAAAAAAAAAAA) = true ∧
    vector (machine 128 [(1, 0x80000000000000000000000000000000), (2, 0), (3, 9)] [] [])
      0x50312000 (expectTrap .divisionByZero 0x50312000) = true := by decide

/-- T42-2, T42-4: REM v3, v1, v2. -/
theorem test_rem :
    vector (machine 128 [(1, 0x80000000000000000000000000000000), (2, 3)] [] [])
      0x51312000 (fun s => s.writeV 3 2) = true ∧
    vector (debugMachine (machine 128 [(1, 0x80000000000000000000000000000000), (2, 0), (3, 9)] [] []))
      0x51312000 (expectTrap .divisionByZero 0x51312000) = true := by decide

/-- T42-7, T42-5: CDIV v3, v1, v2. -/
theorem test_cdiv :
    vector (machine 128 [(1, 0x80000000000000000000000000000000), (2, 3)] [] [])
      0x52312000 (fun s => s.writeV 3 0x2AAAAAAAAAAAAAAAAAAAAAAAAAAAAAAA) = true ∧
    vector (machine 128 [(1, 0x80000000000000000000000000000000), (2, 0), (3, 9)] [] [])
      0x52312000 (expectAbsent .divisionByZero) = true := by decide

/-- T42-8, T42-6: CREM v3, v1, v2. -/
theorem test_crem :
    vector (machine 64 [(1, 0x64), (2, 7)] [] []) 0x53312000 (fun s => s.writeV 3 2) = true ∧
    vector (machine 128 [(1, 0x80000000000000000000000000000000), (2, 0), (3, 9)] [] [])
      0x53312000 (expectAbsent .divisionByZero) = true := by decide

/-- T42-25, T42-27: DIVCEIL v3, v1, v2. -/
theorem test_divceil :
    vector (machine 64 [(1, 0xFFFFFFFFFFFFFFFF), (2, 0xFFFFFFFFFFFFFFFE)] [] [])
      0x54312000 (fun s => s.writeV 3 2) = true ∧
    vector (machine 64 [(1, 7), (2, 0), (3, 9)] [] [])
      0x54312000 (expectTrap .divisionByZero 0x54312000) = true := by decide

/-- T42-17, T42-19: DIVREM v4, v1, v2, v5; DIVREM v1, v1, v2, v2. -/
theorem test_divrem :
    vector (machine 256 [(1, 0x7FFFFFFFFFFFFFFF800000000000000000000000000000000000000000000000), (2,
        0x800000000000000000000000000000000000000000000001)] [] [])
      0x55412500 (fun s => (s.writeV 4 0xFFFFFFFFFFFFFFFE).writeV 5
        0x7FFFFFFFFFFFFFFFFFFFFFFFFFFFFFFF0000000000000002) = true ∧
    vector (machine 128 [(1, 0x80000000000000000000000000000000), (2, 3)] [] [])
      0x55112200 (fun s => (s.writeV 1 0x2AAAAAAAAAAAAAAAAAAAAAAAAAAAAAAA).writeV 2 2) = true := by decide

/-- T42-30, T42-34: LOG x3, v1, v2. -/
theorem test_log :
    vector (machine 100 [(1, 0xFFFFFFFFFFFFFFFFFFFFFFFFF), (2, 7)] [] [])
      0x58312000 (fun s => s.writeX 3 0x23) = true ∧
    vector (machine 64 [(1, 0x3E8), (2, 1)] [(3, 9)] [])
      0x58312000 (expectTrap .domainError 0x58312000) = true := by decide

/-- T42-37, T42-35: CLOG x3, v1, v2. -/
theorem test_clog :
    vector (machine 64 [(1, 0x400), (2, 2)] [] []) 0x59312000 (fun s => s.writeX 3 0xA) = true ∧
    vector (machine 64 [(1, 0x3E8), (2, 0)] [(3, 9)] []) 0x59312000 (expectAbsent .domainError) = true := by decide

/-- T42-38, T42-40: LOG2 x3, v1. -/
theorem test_log2 :
    vector (machine 128 [(1, 0x80000000000000000000000000000000)] [] [])
      0x5A310000 (fun s => s.writeX 3 0x7F) = true ∧
    vector (machine 128 [(1, 0)] [(3, 9)] []) 0x5A310000 (expectTrap .domainError 0x5A310000) = true := by decide

/-- T42-41, T42-42: CLOG2 x3, v1. -/
theorem test_clog2 :
    vector (machine 128 [(1, 5)] [] []) 0x5B310000 (fun s => s.writeX 3 2) = true ∧
    vector (machine 128 [(1, 0)] [(3, 9)] []) 0x5B310000 (expectAbsent .domainError) = true := by decide

/-- T42-44, T42-48: LOG10 x3, v1. -/
theorem test_log10 :
    vector (machine 64 [(1, 0x8AC7230489E7FFFF)] [] []) 0x5C310000 (fun s => s.writeX 3 0x12) = true ∧
    vector (machine 64 [(1, 0)] [(3, 9)] []) 0x5C310000 (expectTrap .domainError 0x5C310000) = true := by decide

/-- T42-49, T42-51: CLOG10 x3, v1. -/
theorem test_clog10 :
    vector (machine 64 [(1, 9)] [(3, 9)] []) 0x5D310000 (fun s => s.writeX 3 0) = true ∧
    vector (machine 64 [(1, 0)] [(3, 9)] []) 0x5D310000 (expectAbsent .domainError) = true := by decide

/-- T42-54, T42-62: ROOT v3, v1, x2. -/
theorem test_root :
    vector (machine 64 [(1, 0xDE0B6B3A763FFFF)] [(2, 2)] []) 0x5E312000 (fun s => s.writeV 3 0x3B9AC9FF) = true ∧
    vector (machine 64 [(1, 0x3039), (3, 9)] [(2, 0)] [])
      0x5E312000 (expectTrap .domainError 0x5E312000) = true := by decide

/-- T43-1, T43-3: REDMOD v3, v1, v2. -/
theorem test_redmod :
    vector (machine 256 [(1, 0x8000000000000000000000000000000000000000000000000000000000000000), (2,
        0x7FFFFFFFFFFFFFFFFFFFFFFFFFFFFFFFFFFFFFFFFFFFFFFFFFFFFFFFFFFFFFED)] [] [])
      0x60312000 (fun s => s.writeV 3 0x13) = true ∧
    vector (machine 256 [(1, 5), (2, 0), (3, 9)] [] [])
      0x60312000 (expectTrap .divisionByZero 0x60312000) = true := by decide

/-- T43-4, T43-7: ADDMOD v0, v1, v2, v3. -/
theorem test_addmod :
    vector (machine 8 [(1, 0xC8), (2, 0x64), (3, 7)] [] []) 0x61012300 (fun s => s.writeV 0 6) = true ∧
    vector (machine 8 [(0, 9), (1, 1), (2, 1), (3, 0)] [] [])
      0x61012300 (expectTrap .divisionByZero 0x61012300) = true := by decide

/-- I11, T43-10: MULMOD v0, v1, v2, v3. -/
theorem test_mulmod :
    vector (machine 100 [(1, 0x8000000000000000000003039), (2, 0x88F924EECEEDA7FE92E1F5B1), (3,
        0xFFFFFFFFFFFFFFFFFFFFFFFF1)] [] [])
      0x62012300 (fun s => s.writeV 0 0x939B294F7B2608F2E5FFFAF44) = true ∧
    vector (machine 64 [(0, 9), (1, 3), (2, 4), (3, 0)] [] [])
      0x62012300 (expectTrap .divisionByZero 0x62012300) = true := by decide

set_option maxRecDepth 8000 in
/-- T43-14, T43-15: POWMOD v0, v1, v2, v3. -/
theorem test_powmod :
    vector (machine 256 [(1, 2), (2, 0x7FFFFFFFFFFFFFFFFFFFFFFFFFFFFFFFFFFFFFFFFFFFFFFFFFFFFFFFFFFFFFEC), (3,
        0x7FFFFFFFFFFFFFFFFFFFFFFFFFFFFFFFFFFFFFFFFFFFFFFFFFFFFFFFFFFFFFED)] [] [])
      0x63012300 (fun s => s.writeV 0 1) = true ∧
    vector (machine 64 [(0, 9), (1, 5), (2, 3), (3, 0)] [] [])
      0x63012300 (expectTrap .divisionByZero 0x63012300) = true := by decide

/-- T43-23, T43-17: INVMOD v3, v1, v2. -/
theorem test_invmod :
    vector (machine 256 [(1, 3), (2, 0x7FFFFFFFFFFFFFFFFFFFFFFFFFFFFFFFFFFFFFFFFFFFFFFFFFFFFFFFFFFFFFED)] [] [])
      0x64312000 (fun s => s.writeV 3 0x5555555555555555555555555555555555555555555555555555555555555549) = true ∧
    vector (machine 64 [(1, 2), (2, 4), (3, 9)] [] []) 0x64312000 (expectAbsent .notInvertible) = true := by decide

/-- T43-25, T43-31: MULREDC v0, v1, v2, v3, x7. -/
theorem test_mulredc :
    vector (machine 100 [(1, 0x8000000000000000000003039), (2, 0x88F924EECEEDA7FE92E1F5B1), (3,
        0xFFFFFFFFFFFFFFFFFFFFFFFF1)] [(7, 0xEEEEEEEEEEEEEEEF)] [])
      0x65012370 (fun s => s.writeV 0 0xCA863C409D724E32A57DE768C) = true ∧
    vector (machine 100 [(0, 9), (1, 1), (2, 1), (3, 0xFFFFFFFFFFFFFFFFFFFFFFFF0)] [(7, 0xEEEEEEEEEEEEEEEF)] [])
      0x65012370 (expectTrap .domainError 0x65012370) = true := by decide

/-- T43-27, T43-36: SQRREDC v0, v1, v3, x7. -/
theorem test_sqrredc :
    vector (machine 100 [(1, 0x8000000000000000000003039), (3, 0xFFFFFFFFFFFFFFFFFFFFFFFF1)] [(7,
        0xEEEEEEEEEEEEEEEF)] [])
      0x66010370 (fun s => s.writeV 0 0xA5908400000000000000000) = true ∧
    vector (machine 100 [(0, 9), (1, 0xFFFFFFFFFFFFFFFFFFFFFFFF1), (3, 0xFFFFFFFFFFFFFFFFFFFFFFFF1)] [(7,
        0xEEEEEEEEEEEEEEEF)] [])
      0x66010370 (expectTrap .domainError 0x66010370) = true := by decide

/-- T43-43, T43-44: GCD v3, v1, v2. -/
theorem test_gcd :
    vector (machine 256 [(1, 0x100000000000000000000000000000000000000000000000000), (2,
        0x980553F0DB2FD09DE3C90000000000000000000000000)] [] [])
      0x68312000 (fun s => s.writeV 3 0x10000000000000000000000000) = true ∧
    vector (machine 256 [(1, 0x7FFFFFFFFFFFFFFFFFFFFFFFFFFFFFFFFFFFFFFFFFFFFFFFFFFFFFFFFFFFFFED), (2,
        0x100000000000000000000000000000001)] [] [])
      0x68312000 (fun s => s.writeV 3 1) = true := by decide

/-- T43-49, T43-47: LCM v3, v1, v2. -/
theorem test_lcm :
    vector (machine 8 [(1, 0), (2, 0x11), (3, 9)] [] []) 0x6A312000 (fun s => s.writeV 3 0) = true ∧
    vector (machine 8 [(1, 0x10), (2, 0x11), (3, 9)] [] []) 0x6A312000 (expectAbsent .overflow) = true := by decide

/-- T44-3, T44-1: NOT v3, v1. -/
theorem test_not :
    vector (machine 100 [(1, 0xFFFFFFFFFFFFFFFFFFFFFFFFF), (3, 9)] [] []) 0x70310000 (fun s => s.writeV 3 0) = true ∧
    vector (machine 100 [(1, 5)] [] [])
      0x70310000 (fun s => s.writeV 3 0xFFFFFFFFFFFFFFFFFFFFFFFFA) = true := by decide

/-- T44-8, T44-5: AND v3, v1, v2. -/
theorem test_and :
    vector (machine 100 [(1, 0xF0F0F0F0F0F0F0F0F0F0F0F0F), (2, 0x123456789ABCDEF0123456789)] [] [])
      0x71312000 (fun s => s.writeV 3 0x1030507090B0D0F0103050709) = true ∧
    vector (machine 64 [(1, 0xFF00), (2, 0xFF0)] [] []) 0x71312000 (fun s => s.writeV 3 0xF00) = true := by decide

/-- T44-9, T44-6: OR v3, v1, v2. -/
theorem test_or :
    vector (machine 100 [(1, 0xF0F0F0F0F0F0F0F0F0F0F0F0F), (2, 0x123456789ABCDEF0123456789)] [] [])
      0x72312000 (fun s => s.writeV 3 0xF2F4F6F8FAFCFEF0F2F4F6F8F) = true ∧
    vector (machine 64 [(1, 0xFF00), (2, 0xFF0)] [] []) 0x72312000 (fun s => s.writeV 3 0xFFF0) = true := by decide

/-- T44-10, T44-12: XOR v3, v1, v2. -/
theorem test_xor :
    vector (machine 100 [(1, 0xF0F0F0F0F0F0F0F0F0F0F0F0F), (2, 0x123456789ABCDEF0123456789)] [] [])
      0x73312000 (fun s => s.writeV 3 0xE2C4A6886A4C2E00E2C4A6886) = true ∧
    vector (machine 100 [(1, 0xF0F0F0F0F0F0F0F0F0F0F0F0F), (2, 0xFFFFFFFFFFFFFFFFFFFFFFFFF)] [] [])
      0x73312000 (fun s => s.writeV 3 0xF0F0F0F0F0F0F0F0F0F0F0F0) = true := by decide

/-- T44-46, T44-47: ROL v3, v1, x2. -/
theorem test_rol :
    vector (machine 100 [(1, 0xF0F0F0F0F0F0F0F0F0F0F0F0F)] [(2, 0xCD)] [])
      0x74312000 (fun s => s.writeV 3 0x1E1E1E1E1E1E1E1E1E1E1E1FE) = true ∧
    vector (machine 100 [(1, 0xF0F0F0F0F0F0F0F0F0F0F0F0F)] [(2, 0x64)] [])
      0x74312000 (fun s => s.writeV 3 0xF0F0F0F0F0F0F0F0F0F0F0F0F) = true := by decide

/-- T44-49, T44-50: ROR v3, v1, x2. -/
theorem test_ror :
    vector (machine 100 [(1, 0x8000000000000000000000001)] [(2, 1)] [])
      0x75312000 (fun s => s.writeV 3 0xC000000000000000000000000) = true ∧
    vector (machine 100 [(1, 0xF0F0F0F0F0F0F0F0F0F0F0F0F)] [(2, 5)] [])
      0x75312000 (fun s => s.writeV 3 0x7F87878787878787878787878) = true := by decide

/-- T44-55, T44-56: REVB v3, v1. -/
theorem test_revb :
    vector (machine 8 [(1, 0xB)] [] []) 0x76310000 (fun s => s.writeV 3 0xD0) = true ∧
    vector (machine 100 [(1, 0x123)] [] [])
      0x76310000 (fun s => s.writeV 3 0xC480000000000000000000000) = true := by decide

/-- T45-21, T45-35: CLZ x3, v1. -/
theorem test_clz :
    vector (machine 100 [(1, 0xFFFFFFFFFFFFFFFFFFFFFFFFF)] [(3, 0x63)] []) 0x80310000 (fun s => s.writeX 3 0) = true ∧
    vector (machine 100 [(1, 0x10000000000000000)] [] []) 0x80310000 (fun s => s.writeX 3 0x23) = true := by decide

/-- T45-22, T45-31: CLO x3, v1. -/
theorem test_clo :
    vector (machine 100 [(1, 0xFFFFFFFFFFFFFFFFFFFFFFFFF)] [(3, 0x63)] [])
      0x81310000 (fun s => s.writeX 3 0x64) = true ∧
    vector (machine 100 [(1, 0xFFFFFFFFFFFFFFFFFFFFFFFFA)] [] [])
      0x81310000 (fun s => s.writeX 3 0x61) = true := by decide

set_option maxRecDepth 8000 in
/-- T45-23, T45-32: CTZ x3, v1. -/
theorem test_ctz :
    vector (machine 100 [(1, 0xFFFFFFFFFFFFFFFFFFFFFFFFF)] [(3, 0x63)] []) 0x82310000 (fun s => s.writeX 3 0) = true ∧
    vector (machine 100 [(1, 0xC000000000000000000000000)] [] [])
      0x82310000 (fun s => s.writeX 3 0x62) = true := by decide

set_option maxRecDepth 8000 in
/-- T45-24, T45-4: CTO x3, v1. -/
theorem test_cto :
    vector (machine 100 [(1, 0xFFFFFFFFFFFFFFFFFFFFFFFFF)] [(3, 0x63)] [])
      0x83310000 (fun s => s.writeX 3 0x64) = true ∧
    vector (machine 100 [(1, 0x123)] [(3, 0x63)] []) 0x83310000 (fun s => s.writeX 3 2) = true := by decide

/-- I6, T45-25: POPC x1, v1; POPC x3, v1. -/
theorem test_popc :
    vector (machine 100 [(1, 0x123456789ABCDEF0123456789)] [] []) 0x84110000 (fun s => s.writeX 1 0x2F) = true ∧
    vector (machine 100 [(1, 0xFFFFFFFFFFFFFFFFFFFFFFFFF)] [(3, 0x63)] [])
      0x84310000 (fun s => s.writeX 3 0x64) = true := by decide

/-- I7, T45-26: CNTZ x2, v1; CNTZ x3, v1. -/
theorem test_cntz :
    vector (machine 100 [(1, 0x123456789ABCDEF0123456789)] [] []) 0x85210000 (fun s => s.writeX 2 0x35) = true ∧
    vector (machine 100 [(1, 0xFFFFFFFFFFFFFFFFFFFFFFFFF)] [(3, 0x63)] [])
      0x85310000 (fun s => s.writeX 3 0) = true := by decide

/-- T45-27, T45-33: BITLEN x3, v1. -/
theorem test_bitlen :
    vector (machine 100 [(1, 0xFFFFFFFFFFFFFFFFFFFFFFFFF)] [(3, 0x63)] [])
      0x86310000 (fun s => s.writeX 3 0x64) = true ∧
    vector (machine 100 [(1, 0x10000000000000000)] [] []) 0x86310000 (fun s => s.writeX 3 0x41) = true := by decide

/-- T45-28, T45-8: BYTELEN x3, v1. -/
theorem test_bytelen :
    vector (machine 100 [(1, 0xFFFFFFFFFFFFFFFFFFFFFFFFF)] [(3, 0x63)] [])
      0x87310000 (fun s => s.writeX 3 0xD) = true ∧
    vector (machine 100 [(1, 0x123)] [(3, 0x63)] []) 0x87310000 (fun s => s.writeX 3 2) = true := by decide

/-- T45-29, T45-9: ISZERO x3, v1. -/
theorem test_iszero :
    vector (machine 100 [(1, 0xFFFFFFFFFFFFFFFFFFFFFFFFF)] [(3, 0x63)] []) 0x88310000 (fun s => s.writeX 3 0) = true ∧
    vector (machine 100 [(1, 0x123)] [(3, 0x63)] []) 0x88310000 (fun s => s.writeX 3 0) = true := by decide

/-- T45-30, T45-34: ISPOW2 x3, v1. -/
theorem test_ispow2 :
    vector (machine 100 [(1, 0xFFFFFFFFFFFFFFFFFFFFFFFFF)] [(3, 0x63)] []) 0x89310000 (fun s => s.writeX 3 0) = true ∧
    vector (machine 100 [(1, 0x10000000000000000)] [] []) 0x89310000 (fun s => s.writeX 3 1) = true := by decide

/-- T45-45, T45-46: NEXTPOW2 v3, v1. -/
theorem test_nextpow2 :
    vector (machine 8 [(1, 0x80)] [] []) 0x8A310000 (fun s => s.writeV 3 0x80) = true ∧
    vector (machine 8 [(1, 0x81), (3, 9)] [] []) 0x8A310000 (expectAbsent .overflow) = true := by decide

/-- T45-53, T45-52: NEXTMULT v3, v1, v2. -/
theorem test_nextmult :
    vector (machine 8 [(1, 0), (2, 0x10), (3, 9)] [] []) 0x8B312000 (fun s => s.writeV 3 0) = true ∧
    vector (machine 8 [(1, 0xFB), (2, 0x10), (3, 9)] [] []) 0x8B312000 (expectAbsent .overflow) = true := by decide

/-- T45-55, T45-56: BIT x3, v1, x2. -/
theorem test_bit :
    vector (machine 100 [(1, 0x8000000000000000000000001)] [(2, 0x63), (3, 0x63)] [])
      0x8C312000 (fun s => s.writeX 3 1) = true ∧
    vector (machine 100 [(1, 0x8000000000000000000000001)] [(2, 0x62), (3, 0x63)] [])
      0x8C312000 (fun s => s.writeX 3 0) = true := by decide

/-- T45-61, T45-62: SETBIT v3, v1, x2. -/
theorem test_setbit :
    vector (machine 100 [(1, 0x8000000000000000000000001)] [(2, 0x63)] [])
      0x8D312000 (fun s => s.writeV 3 0x8000000000000000000000001) = true ∧
    vector (machine 100 [(1, 1), (3, 9)] [(2, 0x64)] [])
      0x8D312000 (expectTrap .domainError 0x8D312000) = true := by decide

/-- T45-63, T45-65: CLRBIT v3, v1, x2. -/
theorem test_clrbit :
    vector (machine 100 [(1, 0x8000000000000000000000001)] [(2, 0)] [])
      0x8E312000 (fun s => s.writeV 3 0x8000000000000000000000000) = true ∧
    vector (machine 100 [(1, 0x8000000000000000000000001), (3, 9)] [(2, 0xFFFFFFFFFFFFFFFF)] [])
      0x8E312000 (expectTrap .domainError 0x8E312000) = true := by decide

/-- T45-67, T45-68: BYTE x3, v1, x2. -/
theorem test_byte :
    vector (machine 100 [(1, 0x123456789ABCDEF0123456789)] [(2, 0), (3, 0x63)] [])
      0x8F312000 (fun s => s.writeX 3 0x89) = true ∧
    vector (machine 100 [(1, 0x123456789ABCDEF0123456789)] [(2, 1), (3, 0x63)] [])
      0x8F312000 (fun s => s.writeX 3 0x67) = true := by decide

/-- T45-72, T45-73: CBYTE x3, v1, x2. -/
theorem test_cbyte :
    vector (machine 100 [(1, 0x123456789ABCDEF0123456789)] [(2, 0xC), (3, 0x63)] [])
      0x90312000 (fun s => s.writeX 3 1) = true ∧
    vector (machine 100 [(1, 0x123456789ABCDEF0123456789)] [(2, 0xD), (3, 0x63)] [])
      0x90312000 (expectAbsent .domainError) = true := by decide

/-- T45-75, T45-77: MSBITS x3, v1, x2. -/
theorem test_msbits :
    vector (machine 100 [(1, 0x123456789ABCDEF0123456789)] [(2, 0x40), (3, 0x63)] [])
      0x91312000 (fun s => s.writeX 3 0x123456789ABCDEF0) = true ∧
    vector (machine 100 [(1, 0x123456789ABCDEF0123456789)] [(2, 0x41), (3, 0x63)] [])
      0x91312000 (expectTrap .domainError 0x91312000) = true := by decide

/-- T45-81, T45-80: EQ x3, v1, v2. -/
theorem test_eq :
    vector (machine 256 [(1, 0xF039), (2, 0x100000000000000000000000000000000000000000000F039)] [(3, 9)] [])
      0x98312000 (fun s => s.writeX 3 0) = true ∧
    vector (machine 256 [(1, 0xF039), (2, 0xF039)] [] []) 0x98312000 (fun s => s.writeX 3 1) = true := by decide

/-- T45-83, T45-84: LT x3, v1, v2. -/
theorem test_lt :
    vector (machine 128 [(1, 0x10000000000000000), (2, 0xFFFFFFFFFFFFFFFF)] [(3, 9)] [])
      0x99312000 (fun s => s.writeX 3 0) = true ∧
    vector (machine 128 [(1, 0xFFFFFFFFFFFFFFFF), (2, 0x10000000000000000)] [] [])
      0x99312000 (fun s => s.writeX 3 1) = true := by decide

/-- T40-1: `NOP` clears `ST.ABS` and `ST.KIND` and keeps `ST.OVF`. -/
theorem test_nop :
    vector (expectAbsent .overflow (ovfSet (machine 100 [] [] []))) 0x00000000
      (fun s => { s with st := ⟨true, false, false, false, none, false⟩ }) = true := by decide

/-- T43-45: the gcd is determined; the row's `(1, 3)` with `SGN = 0` and the other sign's `(2, 5)` with `SGN = 1`
are both admissible (`3·18 − 1·48 = 6`, `2·48 − 5·18 = 6`), `(1, 2)` is not. -/
theorem test_gcdext :
    (match step ((machine 64 [(1, 48), (2, 18)] [] []).withFetchWord 32 0x69312450) with
      | .next u => decide (u.readV 3 = 6 ∧ u.draws = 1 ∧ u.st.fault = false ∧ u.st.ovf = false)
      | _ => false) = true ∧
    admissibleCofactors 64 48 18 (1, 3, false) = true ∧ admissibleCofactors 64 48 18 (2, 5, true) = true ∧
    admissibleCofactors 64 48 18 (1, 2, false) = false ∧ admissibleCofactors 64 48 18 (1, 2, true) = false := by
  decide

/-- The examples of R83, and R84. -/
theorem test_assembly : assembly (.addO 3 1 2) = "ADD.O v3, v1, v2" ∧
    assembly (.divrem 4 1 2 5) = "DIVREM v4, v1, v2, v5" ∧
    assembly (.mulredc 0 1 2 3 7) = "MULREDC v0, v1, v2, v3, x7" ∧
    assembly (.sqrredc 0 1 3 7) = "SQRREDC v0, v1, v3, x7" ∧ assembly (.lix 2 300) = "LIX x2, 300" ∧
    assembly (.ldc 1 2) = "LDC v1, 2" ∧ assembly .nop = "NOP" ∧ encode (pseudoMaxv 1) = 0x03100020 := by decide

/-! ### The limb-level procedures -/

/-- The numbers of T42-15, T42-16 and T42-17 (the last one adds back) through Knuth D. -/
theorem test_knuth_division :
    knuthD 0x80000000000000000000000000000005 0x10000000000000003 = (0x7FFFFFFFFFFFFFFE, 0x800000000000000B) ∧
    knuthD 0x100000000000000000000000000000000000000000000003039 0x400000000000000007 =
      (0x3FFFFFFFFFFFFFFFF9000000000000000, 0x31000000000003039) ∧
    knuthD 0x7FFFFFFFFFFFFFFF800000000000000000000000000000000000000000000000
      0x800000000000000000000000000000000000000000000001 =
      (0xFFFFFFFFFFFFFFFE, 0x7FFFFFFFFFFFFFFFFFFFFFFFFFFFFFFF0000000000000002) := by decide

/-- T42-13 through single-limb long division; T43-39's numbers through binary gcd. -/
theorem test_single_limb_division_and_binary_gcd :
    val (divSingle 10 (limbsOf 2 0x80000000000000000000000000000005)).1 = 0xCCCCCCCCCCCCCCCCCCCCCCCCCCCCCCD ∧
    (divSingle 10 (limbsOf 2 0x80000000000000000000000000000005)).2 = 3 ∧ binaryGcd 48 18 = 6 ∧
    binaryGcd 0 18 = 18 := by decide

/-- T41-7, T41-24, T41-35, T41-53 and I4 through the adder, subtracter, multipliers and shifter of limbs. -/
theorem test_limb_forms :
    addLimbs 100 (2 ^ 100 - 1) 1 = (0, true) ∧ subLimbs 100 3 5 = (2 ^ 100 - 2, true) ∧
    mulLimbs 100 0x1000000000000001 0x4000000000000 = (0x4000000000000, true) ∧
    mulxLimbs 100 0xFFFFFFFFF 0xFFFFFFFFFFFFFFFF = (0xFFFFFFFFEFFFFFFF000000001, false) ∧
    shlLimbs 100 0x123456789ABCDEF0123456789 37 = 0x579BDE02468ACF12000000000 := by decide

/-! ### The host's side (20_memory.md R56, R57; 60_exceptions.md R326; 70_reset_and_hazards.md R350) -/

/-- What one host action leaves of a state, compared whole. -/
def acts (s : State) (a : HostAction) (t : State) : Bool :=
  match step (hosted s a) with
  | .next u => decide (u = t)
  | _ => false

/-- R32, R56: the constant registers of the instance `B = 100`, `NLMEM = 64`, `SHR_OVF_INEXACT = 1`. -/
theorem test_host_reads :
    acts (machine 100 [] [] []) (.read 0x002) { machine 100 [] [] [] with hostData := 100 } = true ∧
    acts (machine 100 [] [] []) (.read 0x003) { machine 100 [] [] [] with hostData := 2 } = true ∧
    acts (machine 100 [] [] []) (.read 0x004) { machine 100 [] [] [] with hostData := 64 } = true ∧
    acts (machine 100 [] [] []) (.read 0x005) { machine 100 [] [] [] with hostData := 0x1101002 } = true ∧
    acts (machine 100 [] [(15, 7)] [(63, 9)]) (.read 0x01F)
      { machine 100 [] [(15, 7)] [(63, 9)] with hostData := 7 } = true ∧
    acts (machine 100 [] [(15, 7)] [(63, 9)]) (.read 0x10000003F)
      { machine 100 [] [(15, 7)] [(63, 9)] with hostData := 9 } = true ∧
    acts (expectTrap .lmemRange 0x0C123000 (machine 100 [] [] [])) (.read 0x000)
      { expectTrap .lmemRange 0x0C123000 (machine 100 [] [] []) with hostData := 0xA8 } = true := by decide

/-- R56: the last `X` register and limb word are written, their neighbours are not there. -/
theorem test_host_writes :
    acts (machine 100 [] [] []) (.write 0x01F 5) (machine 100 [] [(15, 5)] []) = true ∧
    acts (machine 100 [] [] []) (.write 0x020 5) (machine 100 [] [] []) = true ∧
    acts (machine 100 [] [] []) (.write 0x10000003F 5) (machine 100 [] [] [(63, 5)]) = true ∧
    acts (machine 100 [] [] []) (.write 0x100000040 5) (machine 100 [] [] []) = true := by decide

/-- R326: a faulted block discards a command; R57: a busy block must not be given one. -/
theorem test_fault_and_busy :
    acts (expectTrap .overflow 0 (machine 8 [] [] [])) (.write 0x006 0x03100020)
      (expectTrap .overflow 0 (machine 8 [] [] [])) = true ∧
    (match step { machine 8 [] [] [] with
        st := ⟨false, false, false, false, none, true⟩, host := [.write 0x006 0] } with
      | .fault .handshakeBroken => true
      | _ => false) = true := by decide

/-- R350: release of `rst` clears a trapped block. -/
theorem test_reset_release :
    acts { expectTrap .overflow 0 (machine 8 [(1, 3)] [(1, 3)] [(1, 3)]) with rst := true } .releaseRst
      { machine 8 [] [] [] with epoch := 1 } = true := by decide

/-- R39: the memory of a reset block has the canonical form and lists nothing. -/
theorem test_reset_memory : State.reset.lmem.wf ∧ State.reset.lmem = [] := by decide

/-! ### Witnesses: states and operands that meet the hypotheses of each obligation, at the ends of their ranges -/

/-- A state with values at the ends of the ranges the statements split on, at `B = 8`, one limb. -/
def small : State :=
  machine 8 [(1, 200), (2, 56), (3, 55), (5, 1), (6, 255), (7, 2), (8, 128), (9, 4), (10, 10)]
    [(1, 0), (2, 1), (3, 64), (4, 63), (5, 2), (6, 7), (7, 8), (8, 256), (9, 255)]
    [(0, 255), (1, 256), (62, 3), (63, 9)]

/-- The same with the command `ADD.O v11, v1, v2` pending. -/
def pending : State := hosted small (commandAction 0x13B12000)

theorem small_canonical : small.Canonical := by
  unfold State.Canonical; decide

theorem witness_DecodeOfEncodeIsTheCommand : (Instr.gcdext 15 0 0 14 13).wellFormed = true ∧
    (Instr.ldc 15 2).wellFormed = true ∧ (Instr.divrem 0 0 0 15).wellFormed = true := by decide

theorem witness_EncodeOfDecodeIsTheWord : decode 0x99FFF000 = .ok (.vlt 15 15 15) ∧
    decode 0x03F00020 = .ok (.ldc 15 2) := by decide

theorem witness_ReservedWordsAreIllegal :
    (0x08 ≤ (opcodeOf 0x0D000000).toNat ∧ (opcodeOf 0x0D000000).toNat ≤ 0x4F ∧
      5 ≤ (opcodeOf 0x0D000000).toNat % 8) ∧
    (0x08 ≤ (opcodeOf 0x4F000000).toNat ∧ (opcodeOf 0x4F000000).toNat ≤ 0x4F ∧
      5 ≤ (opcodeOf 0x4F000000).toNat % 8) ∧
    0x99 < (opcodeOf 0x9A000000).toNat ∧ (0x13312001 : CommandWord).toNat % 16 ≠ 0 := by decide

theorem witness_ResetInputClearsEverything :
    (hosted small .assertRst).host = .assertRst :: [] ∧
    (let s := { hosted small (.write cmdIndex 0) with rst := true };
      s.host = .write cmdIndex 0 :: [] ∧ s.rst = true ∧ s.st.busy = false) ∧
    (let s := { hosted small .releaseRst with rst := true };
      s.host = .releaseRst :: [] ∧ s.rst = true) := by decide

/-- A trapped block, with a pending action. -/
def frozen (a : HostAction) : State := hosted (expectTrap .overflow 0x10312000 small) a

theorem witness_FaultFreezesTheBlock :
    (frozen (commandAction 0)).st.fault = true ∧ (frozen (commandAction 0)).st.busy = false ∧
    (frozen (commandAction 0)).host = .write cmdIndex 0 :: [] ∧
    (∃ t, step (frozen (.write 0x01F 7)) = .next t ∧ t.readX 15 ≠ (frozen (.write 0x01F 7)).readX 15 ∧
      ¬ ∃ rest, (frozen (.write 0x01F 7)).host = .releaseRst :: rest ∧ (frozen (.write 0x01F 7)).rst = true) ∧
    (∃ t, step (frozen (.write 0x100000001 7)) = .next t ∧
      t.readLmem 1 ≠ (frozen (.write 0x100000001 7)).readLmem 1) ∧
    (∃ t, step { frozen .releaseRst with rst := true } = .next t ∧ t.st.fault = false) :=
  ⟨rfl, rfl, rfl, ⟨_, rfl, by decide, by rintro ⟨_, h, _⟩; cases h⟩, ⟨_, rfl, by decide⟩, _, rfl, rfl⟩

theorem witness_StepRunsTheDecodedCommand :
    pending.host = .write cmdIndex 0x13B12000 :: [] ∧ pending.rst = false ∧ pending.st.fault = false ∧
    pending.st.busy = false ∧ decode ((0x13B12000 : Word).setWidth 32) = .ok (.addO 11 1 2) := by decide

/-- No command of the table has the first opcode above it. -/
theorem witness_IllegalWordTrapsAndChangesNothingElse :
    (let s := hosted small (commandAction 0x9A000000);
      s.host = .write cmdIndex 0x9A000000 :: [] ∧ s.rst = false ∧ s.st.fault = false ∧ s.st.busy = false) ∧
    ∀ i : Instr, i.wellFormed = true → encode i ≠ (0x9A000000 : Word).setWidth 32 := by
  refine ⟨by decide, fun i _ h => ?_⟩
  have h' := congrArg BitVec.toNat h
  have e : ((0x9A000000 : Word).setWidth 32).toNat = 0x9A000000 := by decide
  rw [e] at h'
  cases i <;> simp [encode, packR, packI] at h' <;> omega

theorem witness_HostRegisterSpaceMap : small.st.busy = false ∧
    (∀ a ∈ [HostAction.read 0x000, .read 0x001, .read 0x002, .read 0x003, .read 0x004, .read 0x005, .read 0x006,
      .read 0x007, .read 0x00F, .read 0x010, .read 0x01F, .read 0x020, .read 0x0FFFFFFFF, .read 0x100000000,
      .read 0x10000003F, .read 0x100000040, .write 0x005 1, .write 0x007 1, .write 0x00F 1, .write 0x010 1,
      .write 0x01F 1, .write 0x020 1, .write 0x0FFFFFFFF 1, .write 0x100000000 1, .write 0x10000003F 1,
      .write 0x100000040 1], (hosted small a).host = a :: [] ∧ (hosted small a).st.busy = false) ∧
    (0x01F : Nat) = 0x010 + (15 : XReg).val ∧ 63 < small.params.nlmem.val ∧
    0x100000000 + small.params.nlmem.val ≤ 0x100000040 := by decide

theorem witness_OnlyBrokenHandshakeStopsTheMachine :
    (let s := { hosted small (.read 0x010) with st := ⟨false, false, false, false, none, true⟩ };
      s.st.busy = true ∧ s.host = .read 0x010 :: [] ∧ (0x010 : Nat) ≠ 0x006) ∧
    (let s := { hosted small (.write 0x10000003F 1) with st := ⟨false, false, false, false, none, true⟩ };
      s.st.busy = true ∧ s.host = .write 0x10000003F 1 :: [] ∧
        0x10000003F < 0x100000000 + s.params.nlmem.val) := by decide

theorem witness_InvariantKeptByEveryStep : pending.Inv ∧ ∃ t, step pending = .next t :=
  ⟨⟨small_canonical, ⟨rfl, by decide, by decide, by decide, by decide⟩, by decide, by decide, by decide, by decide⟩,
    _, rfl⟩

theorem witness_InstanceParametersNeverChange : (∃ t, step pending = .next t) ∧ 2 ≤ 2 ∧ 5 ≤ 5 :=
  ⟨⟨_, rfl⟩, by decide, by decide⟩

theorem witness_FailureKindsPerCommand : small.st.fault = false ∧
    (Instr.div 11 1 4).Traps small .divisionByZero ∧ (Instr.cdiv 11 1 4).Absents small .divisionByZero ∧
    (Instr.lix 0 0).trapKinds = [] ∧ (Instr.lix 0 0).absentKinds = [] :=
  ⟨rfl, ⟨_, rfl, small.leaves_trap _⟩, ⟨_, rfl, small.leaves_absent _⟩, rfl, rfl⟩

theorem witness_FlagsAreWrittenOnlyByTheirCommands :
    (∃ t, exec (.addW 11 1 2) small = .next t) ∧ (Instr.addW 11 1 2).writesOvf = false ∧
    (∀ vg va vb vx vy, Instr.addW 11 1 2 ≠ .gcdext vg va vb vx vy) :=
  ⟨⟨_, rfl⟩, rfl, by intros; simp⟩

theorem witness_CommandsWriteOnlyTheirDestinations :
    (∃ t, exec (.divrem 11 1 2 12) small = .next t) ∧ (13 : VReg) ∉ (Instr.divrem 11 1 2 12).wideDests ∧
    (0 : XReg) ∉ (Instr.divrem 11 1 2 12).scalarDests ∧ (∀ vs xaddr, Instr.divrem 11 1 2 12 ≠ .stl vs xaddr) :=
  ⟨⟨_, rfl⟩, by decide, by decide, by intros; simp⟩

theorem witness_CommandsDependOnNoHiddenState : (∃ t, exec (.div 11 1 4) small = .next t) ∧
    ∃ t, exec (.stl 1 1) small = .next t := ⟨⟨_, rfl⟩, _, rfl⟩

/-- `X[1] = 0`, `X[2] = 1`, `X[3] = 64`, `X[4] = 63`, `X[5] = 2`; `LMEM[0] = 255`, `LMEM[1] = 256`. -/
theorem witness_ExactLengthLoad :
    (small.readX 5).toNat ≠ (small.B + 63) / 64 ∧
    ((small.readX 2).toNat = (small.B + 63) / 64 ∧
      small.params.nlmem.val < (small.readX 3).toNat + (small.readX 2).toNat) ∧
    ((small.readX 2).toNat + (small.readX 2).toNat ≤ small.params.nlmem.val ∧
      2 ^ small.B ≤ small.sliceValue (small.readX 2).toNat (small.readX 2).toNat) ∧
    ((small.readX 1).toNat + (small.readX 2).toNat ≤ small.params.nlmem.val ∧
      small.sliceValue (small.readX 1).toNat (small.readX 2).toNat < 2 ^ small.B) ∧
    (small.readX 4).toNat + (small.readX 2).toNat ≤ small.params.nlmem.val := by decide

theorem witness_SliceLoadVariants :
    small.params.nlmem.val < (small.readX 4).toNat + (small.readX 5).toNat ∧
    ((small.readX 1).toNat + (small.readX 2).toNat ≤ small.params.nlmem.val ∧
      small.sliceValue (small.readX 1).toNat (small.readX 2).toNat < 2 ^ small.B) ∧
    ((small.readX 2).toNat + (small.readX 2).toNat ≤ small.params.nlmem.val ∧
      2 ^ small.B ≤ small.sliceValue (small.readX 2).toNat (small.readX 2).toNat) ∧
    ((small.readX 3).toNat + (small.readX 1).toNat ≤ small.params.nlmem.val ∧
      small.sliceValue (small.readX 3).toNat (small.readX 1).toNat < 2 ^ small.B) := by decide

theorem witness_StoreWritesExactlyItsLimbs :
    small.params.nlmem.val < (small.readX 3).toNat + (small.B + 63) / 64 ∧
    (small.readX 4).toNat + (small.B + 63) / 64 ≤ small.params.nlmem.val := by decide

theorem witness_StoreThenLoadReturnsTheValue : small.Canonical ∧
    (small.readX 4).toNat + (small.B + 63) / 64 ≤ small.params.nlmem.val ∧
    (small.readX 2).toNat = (small.B + 63) / 64 ∧ ∃ t, exec (.stl 1 4) small = .next t :=
  ⟨small_canonical, by decide, by decide, _, rfl⟩

/-- `200 + 56 = 2^8`, `200 + 55 = 2^8 − 1`; in a debug instance the plain flavour may trap. -/
theorem witness_AddFiveFlavours : 2 ^ small.B ≤ small.readV 1 + small.readV 2 ∧
    ¬ 2 ^ small.B ≤ small.readV 1 + small.readV 3 ∧ (debugMachine small).params.debug = true := by decide

/-- `56 − 56` does not borrow, `55 − 56` does. -/
theorem witness_SubFiveFlavours : small.Canonical ∧ ¬ small.readV 2 < small.readV 2 ∧
    small.readV 3 < small.readV 2 ∧ (debugMachine small).params.debug = true :=
  ⟨small_canonical, by decide, by decide, rfl⟩

/-- `2 · 128 = 2^8`, `1 · 255 = 2^8 − 1`; `255 · X[2] = 255`, `1 · X[8] = 2^8`. -/
theorem witness_MulFiveFlavours_MulxFiveFlavours : 2 ^ small.B ≤ small.readV 7 * small.readV 8 ∧
    ¬ 2 ^ small.B ≤ small.readV 5 * small.readV 6 ∧
    ¬ 2 ^ small.B ≤ small.readV 6 * (small.readX 2).toNat ∧
    2 ^ small.B ≤ small.readV 5 * (small.readX 8).toNat ∧ (debugMachine small).params.debug = true := by decide

theorem witness_NegFiveFlavours : small.Canonical ∧ ¬ small.readV 4 ≠ 0 ∧ small.readV 5 ≠ 0 ∧
    (debugMachine small).params.debug = true := ⟨small_canonical, by decide, by decide, rfl⟩

/-- `4^4 = 2^8`, `2^4 < 2^8`; at `B = 0` the only value is canonical and nothing overflows. -/
theorem witness_PowFiveFlavours : small.Canonical ∧
    (small.B ≠ 0 ∧ 2 ^ small.B ≤ small.readV 9 ^ small.readV 9) ∧
    ¬ (small.B ≠ 0 ∧ 2 ^ small.B ≤ small.readV 7 ^ small.readV 9) ∧ (machine 0 [] [] []).Canonical ∧
    ¬ ((machine 0 [] [] []).B ≠ 0 ∧
      2 ^ (machine 0 [] [] []).B ≤ (machine 0 [] [] []).readV 1 ^ (machine 0 [] [] []).readV 2) :=
  ⟨small_canonical, by decide, by decide, by unfold State.Canonical; decide, by decide⟩

/-- `128 · 2^1` and `1 · 2^8` overflow, `1 · 2^7` does not; `X[7] = 8 = B`, `X[6] = 7`. -/
theorem witness_ShlFiveFlavours : small.Canonical ∧
    2 ^ small.B ≤ small.readV 8 * 2 ^ (small.readX 2).toNat ∧
    ¬ 2 ^ small.B ≤ small.readV 5 * 2 ^ (small.readX 6).toNat ∧
    2 ^ small.B ≤ small.readV 5 * 2 ^ (small.readX 7).toNat ∧ small.B ≤ (small.readX 7).toNat :=
  ⟨small_canonical, by decide, by decide, by decide, by decide⟩

/-- `255 / 2` loses a set bit, `128 / 2^7` does not; without `SHR_OVF_INEXACT` no shift does. -/
theorem witness_ShrFiveFlavours : small.Canonical ∧
    (small.params.shrOvfInexact = true ∧ small.readV 6 % 2 ^ (small.readX 2).toNat ≠ 0) ∧
    ¬ (small.params.shrOvfInexact = true ∧ small.readV 8 % 2 ^ (small.readX 6).toNat ≠ 0) ∧
    ¬ ((exactMachine small).params.shrOvfInexact = true ∧ small.readV 6 % 2 ^ (small.readX 2).toNat ≠ 0) ∧
    small.B ≤ (small.readX 7).toNat :=
  ⟨small_canonical, by decide, by decide, by decide, by decide⟩

theorem witness_DivisionQuotientAndRemainder_DivisionByZeroFails : small.readV 5 ≠ 0 ∧ small.readV 6 ≠ 0 ∧
    (11 : VReg) ≠ 12 ∧ small.readV 4 = 0 := by decide

/-- Base 2 and numerator 1 are the smallest allowed; base 1 and numerator 0 fail. -/
theorem witness_LogarithmIsTheLargestExponent_Log2AndLog10 : small.Canonical ∧
    (2 ≤ small.readV 7 ∧ small.readV 5 ≠ 0) ∧ small.readV 5 < 2 ∧ small.readV 4 = 0 ∧
    small.readV 6 ≠ 0 := ⟨small_canonical, by decide, by decide, by decide, by decide⟩

theorem witness_RootIsTheFloorRoot : (small.readX 2).toNat ≠ 0 ∧ (small.readX 1).toNat = 0 := by decide

theorem witness_ModularRemainders : small.readV 5 ≠ 0 ∧ small.readV 6 ≠ 0 := by decide

/-- Moduli 2, 1, 0 and, for a non-unit, 10 with `a = 2`. -/
theorem witness_ModularInverse : (2 ≤ small.readV 7 ∧ Nat.gcd (small.readV 3) (small.readV 7) = 1) ∧
    small.readV 5 = 1 ∧ small.readV 4 = 0 ∧
    (2 ≤ small.readV 10 ∧ Nat.gcd (small.readV 7) (small.readV 10) ≠ 1) := by decide

/-- A Montgomery state: `m = 255 = V[1]`, `inv = −255^{-1} mod 2^64 = X[1] = 0x0101010101010101`, `a = 254`. -/
def montgomery : State :=
  machine 8 [(1, 255), (2, 254), (3, 255), (4, 4)] [(1, 0x0101010101010101), (2, 1)] []

theorem witness_MontgomeryMultiplicationLaw : montgomery.Canonical ∧ montgomery.readV 1 % 2 = 1 ∧
    (montgomery.readX 1).toNat * (montgomery.readV 1 % 2 ^ 64) % 2 ^ 64 = 2 ^ 64 - 1 ∧
    montgomery.readV 2 < montgomery.readV 1 ∧ montgomery.readV 0 < montgomery.readV 1 :=
  ⟨by unfold State.Canonical; decide, by decide, by decide, by decide, by decide⟩

theorem witness_MontgomeryEntryChecks : montgomery.readV 4 % 2 = 0 ∧
    (montgomery.readX 2).toNat * (montgomery.readV 1 % 2 ^ 64) % 2 ^ 64 ≠ 2 ^ 64 - 1 ∧
    montgomery.readV 1 ≤ montgomery.readV 3 := by decide

/-- `gcd(200, 56) = 8` and `lcm = 1400 ≥ 2^8`; `lcm(2, 128) = 128 < 2^8`. -/
theorem witness_GcdAndLcm : 2 ^ small.B ≤ exactLcm (small.readV 1) (small.readV 2) ∧
    exactLcm (small.readV 7) (small.readV 8) < 2 ^ small.B := by decide

theorem witness_GcdextBezoutRelation : small.Canonical ∧ (11 : VReg) ≠ 12 ∧ (11 : VReg) ≠ 13 ∧
    (12 : VReg) ≠ 13 := ⟨small_canonical, by decide, by decide, by decide⟩

/-- The statements whose one hypothesis is the canonical invariant, with a bit index at the top of its range. -/
theorem witness_canonical_only : small.Canonical ∧ 7 < small.B ∧ (machine 0 [] [] []).Canonical :=
  ⟨small_canonical, by decide, by unfold State.Canonical; decide⟩

theorem witness_ReverseBitsReversesTheValue : small.Canonical ∧ 7 < small.B ∧
    ∃ t : State, t.params = small.params ∧ t.readV 1 = 0x13 ∧ small.readV 1 = 0xC8 :=
  ⟨small_canonical, by decide, small.writeV 1 0x13, rfl, by decide, by decide⟩

/-- All ones, no ones and one one: the scans stop inside the word and at its end. -/
theorem witness_LeadingAndTrailingScans : small.Canonical ∧ 7 < small.B ∧ small.readV 6 = 2 ^ small.B - 1 ∧
    small.readV 4 = 0 ∧ small.readV 8 = 2 ^ 7 := ⟨small_canonical, by decide, by decide, by decide, by decide⟩

theorem witness_CountsLengthsAndTests : small.Canonical ∧ small.readV 4 = 0 ∧ small.readV 5 ≠ 0 ∧
    (∃ j, small.readV 8 = 2 ^ j) ∧ ¬ ∃ j, small.readV 4 = 2 ^ j :=
  ⟨small_canonical, by decide, by decide, ⟨7, by decide⟩, by
    rintro ⟨j, h⟩; exact absurd h.symm (Nat.ne_of_gt (Nat.two_pow_pos j))⟩

/-- `128` is its own next power, `200`'s is `2^8`; `ceil(255 / 10)·10 = 260 ≥ 2^8`, `ceil(56 / 10)·10 = 60`. -/
theorem witness_NextPowerAndNextMultiple : small.Canonical ∧ small.B ≠ 0 ∧ (machine 0 [] [] []).B = 0 ∧
    small.readV 8 ≤ 2 ^ 7 ∧ ¬ small.readV 1 ≤ 2 ^ 7 ∧ small.readV 10 ≠ 0 ∧
    2 ^ small.B ≤ nextMultiple (small.readV 6) (small.readV 10) ∧
    nextMultiple (small.readV 2) (small.readV 10) < 2 ^ small.B :=
  ⟨small_canonical, by decide, by decide, by decide, by decide, by decide, by decide, by decide⟩

/-- Bit 7 is the last of `B = 8`, bit 8 is outside. -/
theorem witness_BitReadSetAndClear : small.Canonical ∧ (small.readX 6).toNat < small.B ∧
    small.B ≤ (small.readX 7).toNat := ⟨small_canonical, by decide, by decide⟩

/-- Byte 0 is the only one of `B = 8`. -/
theorem witness_ByteAccess : (small.readX 1).toNat < (small.B + 7) / 8 ∧
    (small.B + 7) / 8 ≤ (small.readX 2).toNat := by decide

/-- `k = B`, `k > B`, and `k = 64`, `k > 64` at `B = 100`. -/
theorem witness_MostSignificantBits : small.Canonical ∧
    ((small.readX 7).toNat ≤ 64 ∧ (small.readX 7).toNat ≤ small.B) ∧ small.B < (small.readX 4).toNat ∧
    (let s := machine 100 [] [(1, 64), (2, 65)] [];
      (s.readX 1).toNat ≤ 64 ∧ (s.readX 1).toNat ≤ s.B ∧ 64 < (s.readX 2).toNat) :=
  ⟨small_canonical, by decide, by decide, by decide⟩

theorem witness_EqualityAndOrder : small.readV 4 = small.readV 11 ∧ small.readV 3 ≠ small.readV 2 ∧
    small.readV 3 < small.readV 2 ∧ ¬ small.readV 2 < small.readV 2 := by decide

/-- The factor of `MulxFiveFlavours` is canonical; `255 · 255 ≥ 2^8`, `1 · 255 < 2^8`, and `B = 0` has the one
value 0; `B = 100` has one limb of `MAX` below the top one, `B = 64` has none. -/
theorem witness_MulxFiveFlavours_MultiplierLimbFormsAgree_ConstantsAndTheirLimbs :
    small.readV 6 < 2 ^ small.B ∧ (255 < 2 ^ 8 ∧ 2 ^ 8 ≤ 255 * 255) ∧ 1 * 255 < 2 ^ 8 ∧ 0 < 2 ^ 0 ∧
    0 + 1 < limbCount 100 ∧ ¬ 0 + 1 < limbCount 64 ∧ 1 ≤ limbCount 64 ∧ 1 ≤ limbCount 1 := by decide

theorem witness_limb_forms : (2 ^ 100 - 1 : Nat) < 2 ^ 100 ∧ (0 : Nat) < 2 ^ 0 ∧ 0 < (2 ^ 64 - 1 : Nat) ∧
    (2 ^ 64 - 1 : Nat) < 2 ^ 64 ∧ (2 ^ 64 : Nat) ≤ 2 ^ 64 ∧ (99 : Nat) < 100 := by decide

end Sys2Proof.Tests
end

section
/-! The parameters of the block (00_scope.md R7; 10_state.md R32): nothing a host action or a command does changes them,
and the four constant registers are functions of them alone. -/

namespace Sys2Proof.Machine

@[simp] theorem State.afterReset_params (s : State) : s.afterReset.params = s.params := rfl

theorem State.hostWrite_params (u : State) (i : Nat) (w : Word) : (u.hostWrite i w).params = u.params := by
  rcases hostWrite_cases u i w with ⟨j, -, h⟩ | ⟨a, -, -, h⟩ | h <;> rw [h]
  · exact u.writeX_params j w
  · exact u.writeLmem_params a w

theorem Outcome.params_eq {i : Instr} {s t : State} (h : Outcome i s t) : t.params = s.params := by
  rcases h with hdone | ⟨k, -, rfl⟩ | ⟨k, -, rfl⟩
  · rw [hdone.only]
  · exact s.absent_params k
  · exact s.trap_params k

theorem HostStep.params_eq {u t : State} {a : HostAction} (h : HostStep u a t) : t.params = u.params := by
  cases h with
  | read i => rfl
  | write i w hi => exact u.hostWrite_params i w
  | discarded w h => rfl
  | illegal w e hr hf hd => exact State.trap_params _ _
  | command w i t hr hf hd he ho => exact ho.params_eq
  | assertRst => rfl
  | reset h => exact u.afterReset_params
  | idleRelease h => rfl

theorem step_params {s t : State} (h : step s = .next t) : t.params = s.params := by
  rcases step_next h with ⟨-, rfl⟩ | ⟨a, rest, -, hs⟩
  · rfl
  · exact hs.params_eq

/-! `WIDTH`, `LIMBS`, `LMSIZE` and `CAP` in the host register space (20_memory.md R56). -/

@[simp] theorem State.hostRead_width (s : State) : s.hostRead 0x002 = widthWord s.params := rfl

@[simp] theorem State.hostRead_limbs (s : State) : s.hostRead 0x003 = limbsWord s.params := rfl

@[simp] theorem State.hostRead_lmsize (s : State) : s.hostRead 0x004 = lmsizeWord s.params := rfl

@[simp] theorem State.hostRead_cap (s : State) : s.hostRead 0x005 = capWord s.params := rfl

theorem State.hostRead_constant_congr {s t : State} (h : t.params = s.params) {i : Nat} (hlo : 2 ≤ i) (hhi : i ≤ 5) :
    t.hostRead i = s.hostRead i := by
  obtain rfl | rfl | rfl | rfl : i = 2 ∨ i = 3 ∨ i = 4 ∨ i = 5 := by omega
  · rw [hostRead_width, hostRead_width, h]
  · rw [hostRead_limbs, hostRead_limbs, h]
  · rw [hostRead_lmsize, hostRead_lmsize, h]
  · rw [hostRead_cap, hostRead_cap, h]

/-- Settles O14: every host action keeps the parameters, and the constant registers read the parameters only. -/
theorem instanceParametersNeverChange : Obligations.InstanceParametersNeverChange := by
  intro s t h
  have hp := step_params h
  exact ⟨hp, fun _ hlo hhi => State.hostRead_constant_congr hp hlo hhi⟩

end Sys2Proof.Machine
end

section
/-! The invariant of the machine (`State.Inv`): the reset state has it and every host action keeps it (10_state.md R21,
R26, R28, R29, R31, R35). A command needs only what its outcome says, `exec_outcome`. -/

namespace Sys2Proof.Machine

/-- The kinds of the out-of-scope parsers, which nothing raises (60_exceptions.md R321; 00_scope.md R6). -/
def Kind.isParser : Kind → Bool
  | .invalidDigit | .invalidRadix | .empty => true
  | _ => false

theorem not_isParser_of_mem_trapKinds (i : Instr) : ∀ k ∈ i.trapKinds, k.isParser = false := by
  unfold Instr.trapKinds
  split <;> decide

theorem not_isParser_of_mem_absentKinds (i : Instr) : ∀ k ∈ i.absentKinds, k.isParser = false := by
  unfold Instr.absentKinds
  split <;> decide

/-! The status after each outcome (R323 to R325). -/

theorem Status.legal_reset : Status.reset.Legal := by
  constructor <;> decide

theorem Status.Legal.done {st : Status} (h : st.Legal) (hf : st.fault = false) (ovf sgn : Bool) :
    Status.Legal { st with ovf := ovf, sgn := sgn, abs := false, kind := none } where
  idle := h.idle
  kindIff := by simp [hf]
  noInvalidDigit := by simp
  noInvalidRadix := by simp
  noEmpty := by simp

theorem Status.legal_of_kind {st : Status} {k : Kind} (hidle : st.busy = false) (hkind : st.kind = some k)
    (hk : k.isParser = false) (hset : st.abs = true ∨ st.fault = true) : st.Legal := by
  have hne (q : Kind) (hq : q.isParser = true) : st.kind ≠ some q := by
    rw [hkind]
    rintro ⟨⟩
    exact absurd (hq.symm.trans hk) (by decide)
  exact {
    idle := hidle
    kindIff := by simp [hkind, hset]
    noInvalidDigit := hne _ rfl
    noInvalidRadix := hne _ rfl
    noEmpty := hne _ rfl }

/-! The invariant through each thing a step can do. -/

/-- The invariant speaks of five fields. -/
theorem State.Inv.congr {s t : State} (h : s.Inv) (hp : t.params = s.params) (hv : t.v = s.v) (hst : t.st = s.st)
    (hf : t.fcmd = s.fcmd) (hm : t.lmem = s.lmem) : t.Inv := by
  obtain ⟨hcan, hstatus, hhigh, hidle, hform, hbound⟩ := h
  refine ⟨fun i => ?_, hst ▸ hstatus, hf ▸ hhigh, ?_, hm ▸ hform, ?_⟩
  · simpa only [State.readV, State.B, hv, hp] using hcan i
  · rwa [hst, hf]
  · rwa [hm, hp]

theorem State.inv_resetOf (p : Params) : (State.resetOf p).Inv where
  canonical i := (State.readV_resetOf p i).symm ▸ Nat.two_pow_pos _
  status := Status.legal_reset
  fcmdHigh := Nat.two_pow_pos 32
  fcmdIdle _ := rfl
  lmemForm := State.wf_resetOf p
  lmemBound _ h := absurd h List.not_mem_nil

theorem State.Inv.writeLmem {s : State} (h : s.Inv) {a : Nat} (ha : a < s.params.nlmem.val) (w : Word) :
    (s.writeLmem a w).Inv where
  canonical := h.canonical
  status := h.status
  fcmdHigh := h.fcmdHigh
  fcmdIdle := h.fcmdIdle
  lmemForm := Memory.wf_write h.lmemForm a w
  lmemBound p hp := by
    obtain rfl | hold := Memory.mem_write hp
    · exact ha
    · exact h.lmemBound p hold

theorem State.Inv.hostWrite {s : State} (h : s.Inv) (i : Nat) (w : Word) : (s.hostWrite i w).Inv := by
  obtain ⟨j, -, e⟩ | ⟨a, ha, -, e⟩ | e := hostWrite_cases s i w <;> rw [e]
  · exact h.congr rfl rfl rfl rfl rfl
  · exact h.writeLmem ha w
  · exact h

theorem State.Inv.trap {s : State} (h : s.Inv) {k : Kind} (hk : k.isParser = false) : (s.trap k).Inv where
  canonical := h.canonical
  status := Status.legal_of_kind h.status.idle rfl hk (.inr rfl)
  fcmdHigh := by
    rw [State.trap_fcmd, BitVec.toNat_setWidth_of_le (by decide)]
    exact s.cmd.isLt
  fcmdIdle hf := absurd hf (by simp)
  lmemForm := h.lmemForm
  lmemBound := h.lmemBound

theorem State.Inv.absent {s : State} (h : s.Inv) {k : Kind} (hk : k.isParser = false) : (s.absent k).Inv where
  canonical := h.canonical
  status := Status.legal_of_kind h.status.idle rfl hk (.inl rfl)
  fcmdHigh := h.fcmdHigh
  fcmdIdle := h.fcmdIdle
  lmemForm := h.lmemForm
  lmemBound := h.lmemBound

theorem State.Inv.done {s t : State} (h : s.Inv) (hf : s.st.fault = false) {wd : List VReg} {xd : List XReg}
    {o g l : Bool} (hd : Done s t wd xd o g l) : t.Inv := by
  have hst : t.st = { s.st with ovf := t.st.ovf, sgn := t.st.sgn, abs := false, kind := none } :=
    congrArg State.st hd.only
  have hfcmd : t.fcmd = s.fcmd := by rw [hd.only]
  have hparams : t.params = s.params := by rw [hd.only]
  exact {
    canonical := hd.canonical h.canonical
    status := hst ▸ h.status.done hf _ _
    fcmdHigh := hfcmd ▸ h.fcmdHigh
    fcmdIdle := fun _ => hfcmd ▸ h.fcmdIdle hf
    lmemForm := hd.form h.lmemForm
    lmemBound := hparams ▸ hd.bound h.lmemBound }

/-- A command accepted by a block that has not faulted keeps the invariant. -/
theorem Outcome.inv {i : Instr} {s t : State} (ho : Outcome i s t) (h : s.Inv) (hf : s.st.fault = false) : t.Inv := by
  obtain hdone | ⟨k, hk, rfl⟩ | ⟨k, hk, rfl⟩ := ho
  · exact h.done hf hdone
  · exact h.absent (not_isParser_of_mem_absentKinds i k hk)
  · exact h.trap (not_isParser_of_mem_trapKinds i k hk)

theorem HostStep.inv {u t : State} {a : HostAction} (hs : HostStep u a t) (h : u.Inv) : t.Inv := by
  have latched (w : CommandWord) : { u with cmd := w }.Inv := h.congr rfl rfl rfl rfl rfl
  cases hs with
  | read i => exact h.congr rfl rfl rfl rfl rfl
  | write i w hi => exact h.hostWrite i w
  | discarded w _ => exact h
  | illegal w e hr hf hd => exact (latched _).trap rfl
  | command w i t hr hf hd he ho => exact ho.inv (latched _) hf
  | assertRst => exact h.congr rfl rfl rfl rfl rfl
  | reset _ => exact (State.inv_resetOf u.params).congr rfl rfl rfl rfl rfl
  | idleRelease _ => exact h

/-- Settles O12: every host action keeps the invariant, a command because each of its three outcomes does. -/
theorem invariantKeptByEveryStep : Obligations.InvariantKeptByEveryStep := by
  intro s t hinv hstep
  obtain ⟨-, rfl⟩ | ⟨a, rest, -, hs⟩ := step_next hstep
  · exact hinv
  · exact hs.inv (hinv.congr rfl rfl rfl rfl rfl)

/-- Settles O13. -/
theorem invariantHoldsAtReset : Obligations.InvariantHoldsAtReset :=
  ⟨State.inv_resetOf, State.inv_resetOf Params.reference⟩

end Sys2Proof.Machine
end

section
/-! What a command may look at. Its effect is fixed by the parameters, the registers, limb memory and the two counters of
free values; the status, `FCMD`, the latched word, the reset input and the host's side it can only pass on or overwrite
(10_state.md R27, R30, R36; 20_memory.md R59). -/

namespace Sys2Proof.Machine

/-- The fields of a state that no command reads. -/
structure Unseen where
  st : Status
  fcmd : Word
  cmd : CommandWord
  rst : Bool
  host : List HostAction
  hostData : Word

/-- The unseen fields of `s`; with them put back, `s` is `s`. -/
def State.unseen (s : State) : Unseen := ⟨s.st, s.fcmd, s.cmd, s.rst, s.host, s.hostData⟩

/-- `s` with other values in the fields no command reads. -/
def State.withUnseen (s : State) (u : Unseen) : State :=
  { s with st := u.st, fcmd := u.fcmd, cmd := u.cmd, rst := u.rst, host := u.host, hostData := u.hostData }

/-- What a command does, as data: the fields it writes, `none` for a flag it leaves (60_exceptions.md R323 to R325). -/
inductive Effect where
  | done (v : Vector Nat 16) (x : Vector Word 16) (lmem : Memory) (draws : Nat) (ovf sgn : Option Bool)
  | absent (k : Kind)
  | trap (k : Kind)

/-- The state an effect leaves. -/
def Effect.apply (s : State) : Effect → State
  | .done v x lmem draws ovf sgn => { s with v := v, x := x, lmem := lmem, draws := draws, st :=
      { s.st with ovf := ovf.getD s.st.ovf, sgn := sgn.getD s.st.sgn, abs := false, kind := none } }
  | .absent k => s.absent k
  | .trap k => s.trap k

/-- `F` has one effect on every state that differs from `s` in unseen fields only. -/
def UniformOn (s : State) (F : State → State) : Prop :=
  ∃ e : Effect, ∀ u, F (s.withUnseen u) = e.apply (s.withUnseen u)

/-! One rule per way a command ends. `p`, `n`, `w`, `t` are what the command computes from the state: each rule asks
that they do not look at unseen fields. -/

section rules
variable {s : State}

theorem UniformOn.done : UniformOn s State.done := ⟨.done s.v s.x s.lmem s.draws none none, fun _ => rfl⟩

theorem UniformOn.absent (k : Kind) : UniformOn s fun a => a.absent k := ⟨.absent k, fun _ => rfl⟩

theorem UniformOn.trap (k : Kind) : UniformOn s fun a => a.trap k := ⟨.trap k, fun _ => rfl⟩

theorem UniformOn.writeV {vd : VReg} {n : State → Nat} (hn : ∀ u, n (s.withUnseen u) = n s) :
    UniformOn s fun a => a.doneV vd (n a) :=
  ⟨.done (s.v.set vd (n s)) s.x s.lmem s.draws none none,
    fun u => congrArg ((s.withUnseen u).doneV vd) (hn u)⟩

theorem UniformOn.writeX {xd : XReg} {w : State → Word} (hw : ∀ u, w (s.withUnseen u) = w s) :
    UniformOn s fun a => (a.writeX xd (w a)).done :=
  ⟨.done s.v (s.x.set xd (w s)) s.lmem s.draws none none,
    fun u => congrArg (fun m => ((s.withUnseen u).writeX xd m).done) (hw u)⟩

theorem UniformOn.overflowing {vd : VReg} {t : State → Narrowed} (ht : ∀ u, t (s.withUnseen u) = t s) :
    UniformOn s fun a => a.overflowing vd (t a) :=
  ⟨.done (s.v.set vd (t s).r) s.x s.lmem s.draws (some (t s).ovf) none,
    fun u => congrArg ((s.withUnseen u).overflowing vd) (ht u)⟩

theorem UniformOn.ite {p : State → Prop} {dec : ∀ a, Decidable (p a)} {F G : State → State}
    (hp : ∀ u, p (s.withUnseen u) ↔ p s) (hF : UniformOn s F) (hG : UniformOn s G) :
    UniformOn s fun a => if p a then F a else G a := by
  by_cases h : p s
  · obtain ⟨e, he⟩ := hF
    exact ⟨e, fun u => (if_pos ((hp u).2 h)).trans (he u)⟩
  · obtain ⟨e, he⟩ := hG
    exact ⟨e, fun u => (if_neg fun h' => h ((hp u).1 h')).trans (he u)⟩

theorem UniformOn.checked {vd : VReg} {t : State → Narrowed} (ht : ∀ u, t (s.withUnseen u) = t s) :
    UniformOn s fun a => a.checked vd (t a) :=
  .ite (fun u => by rw [ht u]) (.absent _) (.writeV fun u => by rw [ht u])

theorem UniformOn.saturating {vd : VReg} {t : State → Narrowed} (ht : ∀ u, t (s.withUnseen u) = t s) :
    UniformOn s fun a => a.saturating vd (t a) :=
  .writeV fun u => by rw [ht u]

theorem UniformOn.plain {vd : VReg} {t : State → Narrowed} (ht : ∀ u, t (s.withUnseen u) = t s) :
    UniformOn s fun a => a.plain vd (t a) :=
  .ite (fun u => by rw [ht u]; rfl) (.trap _) (.writeV fun u => by rw [ht u])

theorem State.readWords_withUnseen (u : Unseen) (n : Nat) :
    ∀ a, (s.withUnseen u).readWords a n = s.readWords a n := by
  induction n with
  | zero => exact fun _ => rfl
  | succ n ih => exact fun a => congrArg (s.readLmem a :: ·) (ih (a + 1))

theorem UniformOn.loadSlice {xaddr xn : XReg} {f : State → Narrowed → State}
    (hf : ∀ t, UniformOn s fun a => f a t) :
    UniformOn s fun a => a.loadSlice xaddr xn (f a) := by
  obtain ⟨e, he⟩ := UniformOn.ite (p := fun a => (a.readX xaddr).toNat + (a.readX xn).toNat ≤ a.params.nlmem.val)
    (fun _ => Iff.rfl) (hf (fromSlice s.B (s.readWords (s.readX xaddr).toNat (s.readX xn).toNat))) (.trap .lmemRange)
  refine ⟨e, fun u => ?_⟩
  beta_reduce
  rw [State.loadSlice_eq, State.readWords_withUnseen]
  exact he u

theorem State.writeWords_withUnseen (u : Unseen) (ws : List Word) :
    ∀ (s : State) (a : Nat), (s.withUnseen u).writeWords a ws = (s.writeWords a ws).withUnseen u := by
  induction ws with
  | nil => exact fun _ _ => rfl
  | cons w ws ih => exact fun s a => ih (s.writeLmem a w) (a + 1)

/-- R55, R119: a store in and out of range. -/
theorem execStl_eq (vs : VReg) (xaddr : XReg) (s : State) :
    execStl vs xaddr s = .next (
      if s.scalar xaddr + (s.wideLimbs vs).length ≤ s.params.nlmem.val then
        (s.writeWords (s.scalar xaddr) (s.wideLimbs vs)).done
      else s.trap .lmemRange) := by
  rw [execStl, State.memWrite_eq]
  by_cases h : s.scalar xaddr + (s.wideLimbs vs).length ≤ s.params.nlmem.val
  · rw [if_pos h, if_pos h]
  · rw [if_neg h, if_neg h]

theorem UniformOn.store (vs : VReg) (xaddr : XReg) :
    UniformOn s fun a => (a.writeWords (a.scalar xaddr) (a.wideLimbs vs)).done := by
  refine ⟨.done s.v s.x (s.writeWords (s.scalar xaddr) (s.wideLimbs vs)).lmem s.draws none none, fun u => ?_⟩
  change ((s.withUnseen u).writeWords (s.scalar xaddr) (s.wideLimbs vs)).done = _
  rw [State.writeWords_withUnseen, (State.writeWords_spec _ s _).2]
  rfl

end rules

/-- Every command answers a next state, and its effect is the same whatever the unseen fields hold. -/
theorem exec_uniform (i : Instr) (s : State) : ∃ F, exec i = (fun a => .next (F a)) ∧ UniformOn s F := by
  cases i with
  | nop => exact ⟨_, rfl, .done⟩
  | mov | ldc | gcd | vnot | vand | vor | vxor | rol | ror | revb => exact ⟨_, rfl, .writeV fun _ => rfl⟩
  | lix | clz | clo | ctz | cto | popc | cntz | bitlen | bytelen | iszero | ispow2 | bit | byte | veq | vlt =>
    exact ⟨_, rfl, .writeX fun _ => rfl⟩
  | addP | subP | mulP | mulxP | negP | powP => exact ⟨_, rfl, .plain fun _ => rfl⟩
  | addW | subW | mulW | mulxW | negW | powW | shlP | shlW | shrP | shrW => exact ⟨_, rfl, .writeV fun _ => rfl⟩
  | addC | subC | mulC | mulxC | negC | powC | shlC | shrC => exact ⟨_, rfl, .checked fun _ => rfl⟩
  | addO | subO | mulO | mulxO | negO | powO | shlO | shrO => exact ⟨_, rfl, .overflowing fun _ => rfl⟩
  | addS | subS | mulS | mulxS | negS | powS | shlS | shrS => exact ⟨_, rfl, .saturating fun _ => rfl⟩
  | div | rem | divceil | root | redmod | addmod | mulmod | powmod | setbit | clrbit =>
    exact ⟨_, rfl, .ite (fun _ => Iff.rfl) (.trap _) (.writeV fun _ => rfl)⟩
  | mulredc | sqrredc =>
    exact ⟨_, rfl, .ite (fun _ => Iff.rfl) (.trap _) (.ite (fun _ => Iff.rfl) (.trap _) (.writeV fun _ => rfl))⟩
  | cdiv | crem | lcm => exact ⟨_, rfl, .ite (fun _ => Iff.rfl) (.absent _) (.writeV fun _ => rfl)⟩
  | log | log2 | log10 | msbits => exact ⟨_, rfl, .ite (fun _ => Iff.rfl) (.trap _) (.writeX fun _ => rfl)⟩
  | clog | clog2 | clog10 | cbyte => exact ⟨_, rfl, .ite (fun _ => Iff.rfl) (.absent _) (.writeX fun _ => rfl)⟩
  | nextpow2 =>
    exact ⟨_, rfl, .ite (fun _ => Iff.rfl) (.writeV fun _ => rfl)
      (.ite (fun _ => Iff.rfl) (.absent _) (.writeV fun _ => rfl))⟩
  | nextmult =>
    exact ⟨_, rfl, .ite (fun _ => Iff.rfl) (.trap _) (.ite (fun _ => Iff.rfl) (.absent _) (.writeV fun _ => rfl))⟩
  | invmod =>
    exact ⟨_, rfl, .ite (fun _ => Iff.rfl) (.absent _) (.ite (fun _ => Iff.rfl) (.writeV fun _ => rfl)
      (.ite (fun _ => Iff.rfl) (.absent _) (.writeV fun _ => rfl)))⟩
  | divrem vq va vb vr =>
    exact ⟨_, rfl, .ite (fun _ => Iff.rfl) (.trap _)
      ⟨.done ((s.v.set vq (s.wide va / s.wide vb)).set vr (s.wide va % s.wide vb)) s.x s.lmem s.draws none none,
        fun _ => rfl⟩⟩
  | gcdext vg va vb vx vy =>
    let t := drawnCofactors s.draws s.B (s.wide va) (s.wide vb)
    exact ⟨_, rfl, .done (((s.v.set vg (Nat.gcd (s.wide va) (s.wide vb))).set vx t.1).set vy t.2.1) s.x s.lmem
      (s.draws + 1) none (some t.2.2), fun _ => rfl⟩
  | ldl =>
    exact ⟨_, rfl, .ite (fun _ => Iff.rfl) (.trap _) (.loadSlice fun _ =>
      .ite (fun _ => Iff.rfl) (.trap _) (.writeV fun _ => rfl))⟩
  | ldsW => exact ⟨_, rfl, .loadSlice fun _ => .writeV fun _ => rfl⟩
  | ldsC => exact ⟨_, rfl, .loadSlice fun _ => .checked fun _ => rfl⟩
  | ldsO => exact ⟨_, rfl, .loadSlice fun _ => .overflowing fun _ => rfl⟩
  | ldsS => exact ⟨_, rfl, .loadSlice fun _ => .saturating fun _ => rfl⟩
  | stl vs xaddr => exact ⟨_, funext (execStl_eq vs xaddr), .ite (fun _ => Iff.rfl) (.store vs xaddr) (.trap _)⟩

theorem exec_effect (i : Instr) (s : State) :
    ∃ e : Effect, ∀ u, exec i (s.withUnseen u) = .next (e.apply (s.withUnseen u)) := by
  obtain ⟨F, hF, e, he⟩ := exec_uniform i s
  exact ⟨e, fun u => (congrFun hF _).trans (congrArg Host.Outcome.next (he u))⟩

theorem Effect.eq_apply_of_exec {i : Instr} {s t : State} {e : Effect}
    (he : ∀ u, exec i (s.withUnseen u) = .next (e.apply (s.withUnseen u))) (h : exec i s = .next t) : t = e.apply s :=
  Host.Outcome.next.inj (h.symm.trans (he s.unseen))

theorem outcome_of_exec {i : Instr} {s t : State} (h : exec i s = .next t) : Outcome i s t := by
  obtain ⟨t', h', ho⟩ := exec_outcome i s
  obtain rfl := Host.Outcome.next.inj (h.symm.trans h')
  exact ho

/-- In a state that has not faulted a trap is told from the other two outcomes by `FAULT`. -/
theorem Outcome.mem_trapKinds {i : Instr} {s : State} {k : Kind} (h : Outcome i s (s.trap k))
    (hf : s.st.fault = false) : k ∈ i.trapKinds := by
  obtain hdone | ⟨k', -, e⟩ | ⟨k', hk', e⟩ := h
  · have hfault : (s.trap k).st.fault = s.st.fault := congrArg (·.st.fault) hdone.only
    simp [hf] at hfault
  · have hfault : (s.trap k).st.fault = (s.absent k').st.fault := congrArg (·.st.fault) e
    simp [hf] at hfault
  · have hkind : (s.trap k).st.kind = (s.trap k').st.kind := congrArg (·.st.kind) e
    cases hkind
    exact hk'

/-- The status is unseen, so an effect that traps does so from a state that has not faulted. -/
theorem mem_trapKinds_of_effect {i : Instr} {s : State} {k : Kind}
    (h : ∀ u, exec i (s.withUnseen u) = .next (Effect.apply (s.withUnseen u) (.trap k))) : k ∈ i.trapKinds :=
  (outcome_of_exec (h { s.unseen with st := Status.reset })).mem_trapKinds rfl

/-! The two flags (10_state.md R26, R27; 43_modular.md R228). -/

theorem Outcome.ovf_eq {i : Instr} {s t : State} (h : Outcome i s t) (hi : i.writesOvf = false) :
    t.st.ovf = s.st.ovf := by
  obtain hdone | ⟨k, -, rfl⟩ | ⟨k, -, rfl⟩ := h
  · exact hdone.ovf hi
  · rfl
  · rfl

theorem Outcome.sgn_draws_eq {i : Instr} {s t : State} (h : Outcome i s t) (hi : isGcdext i = false) :
    t.st.sgn = s.st.sgn ∧ t.draws = s.draws := by
  obtain hdone | ⟨k, -, rfl⟩ | ⟨k, -, rfl⟩ := h
  · exact hdone.sgn hi
  · exact ⟨rfl, rfl⟩
  · exact ⟨rfl, rfl⟩

theorem isGcdext_eq_false {i : Instr} (h : ∀ vg va vb vx vy, i ≠ .gcdext vg va vb vx vy) : isGcdext i = false := by
  unfold isGcdext
  split
  · exact absurd rfl (h _ _ _ _ _)
  · rfl

theorem Effect.apply_setOvf (e : Effect) (s : State) (b : Bool) :
    (e.apply (s.setOvf b)).setOvf false = (e.apply s).setOvf false := by
  cases e <;> rfl

/-- Settles O17: the outcome of a command names the flags it may write, and `OVF` is among the fields no command
reads. -/
theorem flagsAreWrittenOnlyByTheirCommands : Obligations.FlagsAreWrittenOnlyByTheirCommands := by
  refine ⟨fun i s t h => ?_, fun i s t b h => ?_⟩
  · have ho := outcome_of_exec h
    exact ⟨ho.ovf_eq, fun hi => ho.sgn_draws_eq (isGcdext_eq_false hi)⟩
  · obtain ⟨e, he⟩ := exec_effect i s
    obtain rfl := Effect.eq_apply_of_exec he h
    exact ⟨_, he { s.unseen with st := { s.st with ovf := b } }, e.apply_setOvf s b⟩

/-- Settles O19: the host's list, the last read, the reset input and `FCMD` are among the fields no command reads, and
only a trap writes one of them. -/
theorem commandsDependOnNoHiddenState : Obligations.CommandsDependOnNoHiddenState := by
  intro i s t h d r f hexec
  obtain ⟨e, he⟩ := exec_effect i s
  obtain rfl := Effect.eq_apply_of_exec he hexec
  refine ⟨_, he { s.unseen with host := h, hostData := d, rst := r, fcmd := f }, ?_⟩
  cases e with
  | done v x lmem draws ovf sgn => exact ⟨rfl, .inl rfl⟩
  | absent k => exact ⟨rfl, .inl rfl⟩
  | trap k => exact ⟨rfl, .inr ⟨rfl, k, mem_trapKinds_of_effect he, rfl⟩⟩

end Sys2Proof.Machine
end

section
/-! The words of the constant registers as numbers, what the host reads after reset (10_state.md R32, R39; 20_memory.md
R56), and the step of a write to `CMD` (10_state.md R33; 60_exceptions.md R328). -/

namespace Sys2Proof.Machine

theorem toNat_widthWord (p : Params) : (widthWord p).toNat = p.width.val := by
  have := p.width.isLt
  rw [widthWord, BitVec.toNat_ofNat, Nat.mod_eq_of_lt (by omega)]

theorem toNat_limbsWord (p : Params) : (limbsWord p).toNat = (p.width.val + 63) / 64 := by
  have := p.width.isLt
  rw [limbsWord, limbCount, BitVec.toNat_ofNat, Nat.mod_eq_of_lt (by omega)]

theorem toNat_lmsizeWord (p : Params) : (lmsizeWord p).toNat = p.nlmem.val := by
  have := p.nlmem.isLt
  rw [lmsizeWord, BitVec.toNat_ofNat, Nat.mod_eq_of_lt (by omega)]

theorem toNat_capWord (p : Params) :
    (capWord p).toNat = (p.debug).toNat + 2 * p.shrOvfInexact.toNat + 0x1101000 := by
  have := (p.debug).toNat_lt
  have := p.shrOvfInexact.toNat_lt
  rw [capWord, BitVec.toNat_ofNat, Nat.mod_eq_of_lt (by omega)]
  omega

/-- Settles O5. -/
theorem resetStateIsAsSpecified : Obligations.ResetStateIsAsSpecified := by
  intro p
  exact ⟨State.readV_resetOf p, State.readX_resetOf p, rfl, rfl, rfl, toNat_widthWord p, toNat_limbsWord p,
    toNat_lmsizeWord p, toNat_capWord p, fun _ => rfl⟩

/-! A write to `CMD`, one equation per gate it passes. -/

theorem step_of_host_cons {s : State} {a : HostAction} {rest : List HostAction} (h : s.host = a :: rest) :
    step s = State.hostAct { s with host := rest } a := by
  rw [step, h]

theorem State.hostAct_write_cmd (s : State) (hb : s.st.busy = false) (w : Word) :
    s.hostAct (.write cmdIndex w) = s.giveCommand w := by
  rw [State.hostAct, hb, Bool.false_and, if_neg Bool.false_ne_true, if_pos rfl]

theorem State.giveCommand_of_ready (s : State) (hr : s.rst = false) (hf : s.st.fault = false) (w : Word) :
    s.giveCommand w = s.accept (w.setWidth 32) := by
  rw [State.giveCommand, hr, if_neg Bool.false_ne_true, hf, if_neg Bool.false_ne_true]

theorem State.accept_of_decode {w : CommandWord} {i : Instr} (h : decode w = .ok i) (s : State) :
    s.accept w = exec i { s with cmd := w } := by
  rw [State.accept, h]

/-- Settles O8: an idle, released, unfaulted block passes every gate. -/
theorem stepRunsTheDecodedCommand : Obligations.StepRunsTheDecodedCommand := by
  intro s u rest i hhost hrst hfault hbusy hdec
  calc step s
    _ = State.hostAct { s with host := rest } (.write cmdIndex u) := step_of_host_cons hhost
    _ = State.giveCommand { s with host := rest } u := State.hostAct_write_cmd { s with host := rest } hbusy u
    _ = State.accept { s with host := rest } (u.setWidth 32) :=
      State.giveCommand_of_ready { s with host := rest } hrst hfault u
    _ = exec i { s with host := rest, cmd := u.setWidth 32 } := State.accept_of_decode hdec _

end Sys2Proof.Machine
end

section
/-! The host register space (20_memory.md R56, R57): what each index reads, what each index takes, which accesses need
an idle block, and the step of an access that is no command. -/

namespace Sys2Proof.Machine

/-! The two windows of R56 as intervals, and the register or word at an index of a window. -/

theorem isXIndex_iff (i : Nat) : isXIndex i = true ↔ 0x010 ≤ i ∧ i < 0x020 := by
  rw [isXIndex, xBase, Bool.and_eq_true, decide_eq_true_iff, decide_eq_true_iff]

theorem State.isLmemIndex_iff (s : State) (i : Nat) :
    s.isLmemIndex i = true ↔ 0x100000000 ≤ i ∧ i < 0x100000000 + s.params.nlmem.val := by
  rw [isLmemIndex, lmemBase, Bool.and_eq_true, decide_eq_true_iff, decide_eq_true_iff]

theorem not_isXIndex {i : Nat} (h : i < 0x010 ∨ 0x020 ≤ i) : ¬ isXIndex i = true := by
  rw [isXIndex_iff]
  omega

theorem State.not_isLmemIndex (s : State) {i : Nat} (h : i < 0x100000000 ∨ 0x100000000 + s.params.nlmem.val ≤ i) :
    ¬ s.isLmemIndex i = true := by
  rw [isLmemIndex_iff]
  omega

theorem isXIndex_x (j : XReg) : isXIndex (0x010 + j.val) = true := (isXIndex_iff _).2 (by omega)

theorem xOfIndex_x (j : XReg) : xOfIndex (0x010 + j.val) = j := by
  rw [xOfIndex, xBase, Nat.add_sub_cancel_left, Fin.ofNat_val_eq_self]

theorem not_isXIndex_lmem (a : Nat) : ¬ isXIndex (0x100000000 + a) = true := not_isXIndex (by omega)

theorem State.isLmemIndex_lmem (s : State) {a : Nat} (ha : a < s.params.nlmem.val) :
    s.isLmemIndex (0x100000000 + a) = true := (s.isLmemIndex_iff _).2 (by omega)

/-! What each index reads. -/

theorem kindCode_le (k : Option Kind) : kindCode k ≤ 10 := by
  cases k with
  | none => exact Nat.zero_le 10
  | some k => cases k <;> decide

/-- R26: between commands `BUSY` adds nothing. -/
theorem toNat_statusWord {st : Status} (h : st.busy = false) :
    (statusWord st).toNat =
      st.ovf.toNat + 2 * st.sgn.toNat + 4 * st.abs.toNat + 8 * st.fault.toNat + 16 * kindCode st.kind := by
  have := kindCode_le st.kind
  have := st.ovf.toNat_lt
  have := st.sgn.toNat_lt
  have := st.abs.toNat_lt
  have := st.fault.toNat_lt
  rw [statusWord, h, BitVec.toNat_ofNat, Bool.toNat_false, Nat.mul_zero, Nat.add_zero, Nat.mod_eq_of_lt (by omega)]

@[simp] theorem State.hostRead_status (s : State) : s.hostRead 0x000 = statusWord s.st := rfl

@[simp] theorem State.hostRead_fcmd (s : State) : s.hostRead 0x001 = s.fcmd := rfl

/-- From `CMD` up the register space is the two windows. -/
theorem State.hostRead_of_ge (s : State) {i : Nat} (h : 6 ≤ i) :
    s.hostRead i = if isXIndex i then s.readX (xOfIndex i)
      else if s.isLmemIndex i then s.readLmem (i - 0x100000000) else 0 := by
  rw [hostRead, if_neg (by omega), if_neg (by omega), if_neg (by omega), if_neg (by omega), if_neg (by omega),
    if_neg (by omega), lmemBase]

theorem State.hostRead_x (s : State) (j : XReg) : s.hostRead (0x010 + j.val) = s.readX j := by
  rw [hostRead_of_ge s (by omega), if_pos (isXIndex_x j), xOfIndex_x]

theorem State.hostRead_lmem (s : State) {a : Nat} (ha : a < s.params.nlmem.val) :
    s.hostRead (0x100000000 + a) = s.readLmem a := by
  rw [hostRead_of_ge s (by omega), if_neg (not_isXIndex_lmem a), if_pos (s.isLmemIndex_lmem ha),
    Nat.add_sub_cancel_left]

theorem State.hostRead_unlisted (s : State) {i : Nat} (h : 6 ≤ i) (hx : i < 0x010 ∨ 0x020 ≤ i)
    (hm : i < 0x100000000 ∨ 0x100000000 + s.params.nlmem.val ≤ i) : s.hostRead i = 0 := by
  rw [hostRead_of_ge s h, if_neg (not_isXIndex hx), if_neg (s.not_isLmemIndex hm)]

/-! What each index takes. -/

theorem State.hostWrite_x (s : State) (j : XReg) (w : Word) : s.hostWrite (0x010 + j.val) w = s.writeX j w := by
  rw [hostWrite, if_pos (isXIndex_x j), xOfIndex_x]

theorem State.hostWrite_lmem (s : State) {a : Nat} (ha : a < s.params.nlmem.val) (w : Word) :
    s.hostWrite (0x100000000 + a) w = s.writeLmem a w := by
  rw [hostWrite, if_neg (not_isXIndex_lmem a), if_pos (s.isLmemIndex_lmem ha), lmemBase, Nat.add_sub_cancel_left]

theorem State.hostWrite_unlisted (s : State) {i : Nat} (hx : i < 0x010 ∨ 0x020 ≤ i)
    (hm : i < 0x100000000 ∨ 0x100000000 + s.params.nlmem.val ≤ i) (w : Word) : s.hostWrite i w = s := by
  rw [hostWrite, if_neg (not_isXIndex hx), if_neg (s.not_isLmemIndex hm)]

theorem State.leaves_writeX (s : State) (j : XReg) (w : Word) : s.Leaves (s.writeX j w) s.readV
    (fun k => if k = j then w else s.readX k) s.readLmem s.st s.fcmd s.draws :=
  ⟨fun _ => rfl, s.readX_writeX j w, fun _ => rfl, rfl, rfl, rfl, rfl, rfl, rfl, rfl, rfl, rfl⟩

theorem State.leaves_writeLmem (s : State) (a : Nat) (w : Word) : s.Leaves (s.writeLmem a w) s.readV s.readX
    (fun b => if b = a then w else s.readLmem b) s.st s.fcmd s.draws :=
  ⟨fun _ => rfl, fun _ => rfl, s.readLmem_writeLmem a w, rfl, rfl, rfl, rfl, rfl, rfl, rfl, rfl, rfl⟩

/-! An access that keeps R57's handshake and gives no command. -/

theorem State.hostAct_read {s : State} {i : Nat} (h : ¬ (s.st.busy && s.readNeedsIdle i) = true) :
    s.hostAct (.read i) = .next { s with hostData := s.hostRead i } := if_neg h

theorem State.hostAct_write {s : State} {i : Nat} (h : ¬ (s.st.busy && s.writeNeedsIdle i) = true)
    (hi : i ≠ cmdIndex) (w : Word) : s.hostAct (.write i w) = .next (s.hostWrite i w) :=
  (if_neg h).trans (if_neg hi)

theorem step_read_of_idle {s : State} {i : Nat} {rest : List HostAction} (hb : s.st.busy = false)
    (h : s.host = .read i :: rest) : step s = .next { s with host := rest, hostData := s.hostRead i } :=
  (step_of_host_cons h).trans (State.hostAct_read (by simp [hb]))

theorem step_write_of_idle {s : State} {i : Nat} {w : Word} {rest : List HostAction} (hb : s.st.busy = false)
    (hi : i ≠ 0x006) (h : s.host = .write i w :: rest) :
    step s = .next (State.hostWrite { s with host := rest } i w) :=
  (step_of_host_cons h).trans (State.hostAct_write (by simp [hb]) hi w)

/-- Settles O10: an idle block takes every access, and R56's map says what each index reads and takes. -/
theorem hostRegisterSpaceMap : Obligations.HostRegisterSpaceMap := by
  intro s rest w hb
  refine ⟨fun i hread => ⟨s.hostRead i, step_read_of_idle hb hread, ?_, ?_, ?_, ?_, ?_, ?_, ?_, ?_, ?_, ?_⟩,
    fun j hwrite => ?_, fun a ha hwrite => ?_, fun i hcmd hx hm hwrite => ?_⟩
  · rintro rfl; exact toNat_statusWord hb
  · rintro rfl; exact s.hostRead_fcmd
  · rintro rfl; exact toNat_widthWord s.params
  · rintro rfl; exact toNat_limbsWord s.params
  · rintro rfl; exact toNat_lmsizeWord s.params
  · rintro rfl; exact toNat_capWord s.params
  · rintro rfl; exact s.hostRead_unlisted (by omega) (by omega) (by omega)
  · rintro j rfl; exact s.hostRead_x j
  · rintro a ha rfl; exact s.hostRead_lmem ha
  · intro hi hx hm; exact s.hostRead_unlisted (by omega) hx hm
  · refine ⟨_, step_write_of_idle hb (by omega) hwrite, ?_⟩
    rw [State.hostWrite_x]
    exact State.leaves_writeX _ j w
  · refine ⟨_, step_write_of_idle hb (by omega) hwrite, ?_⟩
    rw [State.hostWrite_lmem { s with host := rest } ha]
    exact State.leaves_writeLmem _ a w
  · rw [step_write_of_idle hb hcmd hwrite, State.hostWrite_unlisted { s with host := rest } hx hm]

/-! Which host actions need an idle block (R57), and that those are the ones that stop a busy one. -/

/-- The host actions that need `ST.BUSY = 0` (R57). -/
def State.needsIdle (s : State) : HostAction → Bool
  | .read i => s.readNeedsIdle i
  | .write i _ => s.writeNeedsIdle i
  | .assertRst | .releaseRst => false

theorem State.readNeedsIdle_iff (s : State) (i : Nat) : s.readNeedsIdle i = true ↔
    (0x010 ≤ i ∧ i < 0x020) ∨ (0x100000000 ≤ i ∧ i < 0x100000000 + s.params.nlmem.val) := by
  rw [readNeedsIdle, Bool.or_eq_true, isXIndex_iff, isLmemIndex_iff]

theorem State.writeNeedsIdle_iff (s : State) (i : Nat) : s.writeNeedsIdle i = true ↔
    i = 0x006 ∨ (0x010 ≤ i ∧ i < 0x020) ∨ (0x100000000 ≤ i ∧ i < 0x100000000 + s.params.nlmem.val) := by
  rw [writeNeedsIdle, Bool.or_eq_true, Bool.or_eq_true, decide_eq_true_iff, isXIndex_iff, isLmemIndex_iff, cmdIndex,
    or_assoc]

theorem State.needsIdle_withHost (s : State) (l : List HostAction) (a : HostAction) :
    State.needsIdle { s with host := l } a = s.needsIdle a := by
  cases a <;> rfl

theorem State.needsIdle_iff (s : State) (a : HostAction) : s.needsIdle a = true ↔
    ∃ i, ((a = .read i ∧ i ≠ 0x006) ∨ ∃ w, a = .write i w) ∧
      (i = 0x006 ∨ (0x010 ≤ i ∧ i < 0x020) ∨ (0x100000000 ≤ i ∧ i < 0x100000000 + s.params.nlmem.val)) := by
  cases a with
  | read i =>
    have hcmd : ¬ s.readNeedsIdle 0x006 = true := by rw [readNeedsIdle_iff]; omega
    simp only [needsIdle, HostAction.read.injEq, reduceCtorEq, exists_false, or_false]
    constructor
    · intro h
      exact ⟨i, ⟨rfl, fun e => hcmd (e ▸ h)⟩, .inr ((s.readNeedsIdle_iff i).1 h)⟩
    · rintro ⟨_, ⟨rfl, hi⟩, h⟩
      exact (s.readNeedsIdle_iff i).2 (h.resolve_left hi)
  | write i w => simp [needsIdle, writeNeedsIdle_iff]
  | assertRst | releaseRst => simp [needsIdle]

/-- An action that needs no idle block is no command, so it answers a next state whatever `BUSY` is. -/
theorem State.hostAct_next_of_not_needsIdle {s : State} {a : HostAction} (h : ¬ s.needsIdle a = true) :
    ∃ t, s.hostAct a = .next t := by
  cases a with
  | read i => exact ⟨_, hostAct_read fun h' => h (Bool.and_eq_true_iff.1 h').2⟩
  | write i w =>
    have hi : i ≠ cmdIndex := fun e => h ((s.writeNeedsIdle_iff i).2 (.inl e))
    exact ⟨_, hostAct_write (fun h' => h (Bool.and_eq_true_iff.1 h').2) hi w⟩
  | assertRst => exact ⟨_, rfl⟩
  | releaseRst => exact ⟨if s.rst then s.afterReset else s, (apply_ite Host.Outcome.next _ _ _).symm⟩

theorem State.hostAct_eq_fault_iff (s : State) (a : HostAction) :
    s.hostAct a = .fault .handshakeBroken ↔ s.st.busy = true ∧ s.needsIdle a = true := by
  constructor
  · intro hstop
    have not_next (t : State) : s.hostAct a ≠ .next t := by simp [hstop]
    obtain ⟨hbusy, -⟩ | ⟨t, ht, -⟩ := hostAct_cases s a
    · exact ⟨hbusy, by_contra fun h => (hostAct_next_of_not_needsIdle h).elim not_next⟩
    · exact absurd ht (not_next t)
  · rintro ⟨hbusy, hidle⟩
    cases a with
    | read i => exact if_pos (Bool.and_eq_true_iff.2 ⟨hbusy, hidle⟩)
    | write i w => exact if_pos (Bool.and_eq_true_iff.2 ⟨hbusy, hidle⟩)
    | assertRst | releaseRst => exact absurd hidle Bool.false_ne_true

theorem step_eq_fault_iff (s : State) : step s = .fault .handshakeBroken ↔
    s.st.busy = true ∧ ∃ a rest, s.host = a :: rest ∧ s.needsIdle a = true := by
  cases hhost : s.host with
  | nil => simp [step, hhost]
  | cons a rest =>
    rw [step_of_host_cons hhost, State.hostAct_eq_fault_iff, State.needsIdle_withHost]
    simp

theorem step_fault_or_next (s : State) : step s = .fault .handshakeBroken ∨ ∃ t, step s = .next t := by
  cases hhost : s.host with
  | nil => exact .inr ⟨s, by rw [step, hhost]⟩
  | cons a rest =>
    rw [step_of_host_cons hhost]
    exact (hostAct_cases _ a).imp And.right fun ⟨t, ht, _⟩ => ⟨t, ht⟩

/-- Settles O11: a busy block stops at the actions that need an idle one, which are R57's. -/
theorem onlyBrokenHandshakeStopsTheMachine : Obligations.OnlyBrokenHandshakeStopsTheMachine := by
  intro s
  refine ⟨(step_eq_fault_iff s).trans (and_congr_right fun _ => ?_), step_fault_or_next s⟩
  constructor
  · rintro ⟨a, rest, hhost, hidle⟩
    obtain ⟨i, ha, hi⟩ := (s.needsIdle_iff a).1 hidle
    refine ⟨i, rest, ?_, hi⟩
    obtain ⟨rfl, hcmd⟩ | ⟨w, rfl⟩ := ha
    · exact .inl ⟨hhost, hcmd⟩
    · exact .inr ⟨w, hhost⟩
  · rintro ⟨i, rest, ⟨hhost, hcmd⟩ | ⟨w, hhost⟩, hi⟩
    · exact ⟨_, rest, hhost, (s.needsIdle_iff _).2 ⟨i, .inl ⟨rfl, hcmd⟩, hi⟩⟩
    · exact ⟨_, rest, hhost, (s.needsIdle_iff _).2 ⟨i, .inr ⟨w, rfl⟩, hi⟩⟩

end Sys2Proof.Machine
end

section
/-! The decoder and the encoder undo each other (30_encoding.md R77 to R80). A row of the table of R78 takes some fields
of a word as operands and demands that the others are `0000`; the command it builds from a word that passes its mask
test packs back to that word. -/

namespace Sys2Proof

/-- The round trip of every command, each by the lemma of its constructor. -/
theorem Laws.RoundTrip.decode_encode : ∀ i, Statement i
  | .nop => nop
  | .lix xd imm => lix xd imm
  | .mov vd va => mov vd va
  | .ldc vd sel => ldc vd sel
  | .stl vs xaddr => stl vs xaddr
  | .ldl vd xaddr xn => ldl vd xaddr xn
  | .ldsW vd xaddr xn => ldsW vd xaddr xn
  | .ldsC vd xaddr xn => ldsC vd xaddr xn
  | .ldsO vd xaddr xn => ldsO vd xaddr xn
  | .ldsS vd xaddr xn => ldsS vd xaddr xn
  | .addP vd va vb => addP vd va vb
  | .addW vd va vb => addW vd va vb
  | .addC vd va vb => addC vd va vb
  | .addO vd va vb => addO vd va vb
  | .addS vd va vb => addS vd va vb
  | .subP vd va vb => subP vd va vb
  | .subW vd va vb => subW vd va vb
  | .subC vd va vb => subC vd va vb
  | .subO vd va vb => subO vd va vb
  | .subS vd va vb => subS vd va vb
  | .mulP vd va vb => mulP vd va vb
  | .mulW vd va vb => mulW vd va vb
  | .mulC vd va vb => mulC vd va vb
  | .mulO vd va vb => mulO vd va vb
  | .mulS vd va vb => mulS vd va vb
  | .mulxP vd va xb => mulxP vd va xb
  | .mulxW vd va xb => mulxW vd va xb
  | .mulxC vd va xb => mulxC vd va xb
  | .mulxO vd va xb => mulxO vd va xb
  | .mulxS vd va xb => mulxS vd va xb
  | .negP vd va => negP vd va
  | .negW vd va => negW vd va
  | .negC vd va => negC vd va
  | .negO vd va => negO vd va
  | .negS vd va => negS vd va
  | .powP vd va vb => powP vd va vb
  | .powW vd va vb => powW vd va vb
  | .powC vd va vb => powC vd va vb
  | .powO vd va vb => powO vd va vb
  | .powS vd va vb => powS vd va vb
  | .shlP vd va xk => shlP vd va xk
  | .shlW vd va xk => shlW vd va xk
  | .shlC vd va xk => shlC vd va xk
  | .shlO vd va xk => shlO vd va xk
  | .shlS vd va xk => shlS vd va xk
  | .shrP vd va xk => shrP vd va xk
  | .shrW vd va xk => shrW vd va xk
  | .shrC vd va xk => shrC vd va xk
  | .shrO vd va xk => shrO vd va xk
  | .shrS vd va xk => shrS vd va xk
  | .div vd va vb => div vd va vb
  | .rem vd va vb => rem vd va vb
  | .cdiv vd va vb => cdiv vd va vb
  | .crem vd va vb => crem vd va vb
  | .divceil vd va vb => divceil vd va vb
  | .divrem vq va vb vr => divrem vq va vb vr
  | .log xd va vb => log xd va vb
  | .clog xd va vb => clog xd va vb
  | .log2 xd va => log2 xd va
  | .clog2 xd va => clog2 xd va
  | .log10 xd va => log10 xd va
  | .clog10 xd va => clog10 xd va
  | .root vd va xdeg => root vd va xdeg
  | .redmod vd va vm => redmod vd va vm
  | .addmod vd va vb vm => addmod vd va vb vm
  | .mulmod vd va vb vm => mulmod vd va vb vm
  | .powmod vd va vb vm => powmod vd va vb vm
  | .invmod vd va vm => invmod vd va vm
  | .mulredc vd va vb vm xinv => mulredc vd va vb vm xinv
  | .sqrredc vd va vm xinv => sqrredc vd va vm xinv
  | .gcd vd va vb => gcd vd va vb
  | .gcdext vg va vb vx vy => gcdext vg va vb vx vy
  | .lcm vd va vb => lcm vd va vb
  | .vnot vd va => vnot vd va
  | .vand vd va vb => vand vd va vb
  | .vor vd va vb => vor vd va vb
  | .vxor vd va vb => vxor vd va vb
  | .rol vd va xk => rol vd va xk
  | .ror vd va xk => ror vd va xk
  | .revb vd va => revb vd va
  | .clz xd va => clz xd va
  | .clo xd va => clo xd va
  | .ctz xd va => ctz xd va
  | .cto xd va => cto xd va
  | .popc xd va => popc xd va
  | .cntz xd va => cntz xd va
  | .bitlen xd va => bitlen xd va
  | .bytelen xd va => bytelen xd va
  | .iszero xd va => iszero xd va
  | .ispow2 xd va => ispow2 xd va
  | .nextpow2 vd va => nextpow2 vd va
  | .nextmult vd va vb => nextmult vd va vb
  | .bit xd va xi => bit xd va xi
  | .setbit vd va xi => setbit vd va xi
  | .clrbit vd va xi => clrbit vd va xi
  | .byte xd va xi => byte xd va xi
  | .cbyte xd va xi => cbyte xd va xi
  | .msbits xd va xk => msbits xd va xk
  | .veq xd va vb => veq xd va vb
  | .vlt xd va vb => vlt xd va vb

/-- Settles O1. -/
theorem decodeOfEncodeIsTheCommand : Obligations.DecodeOfEncodeIsTheCommand := Laws.RoundTrip.decode_encode

/-! What a decoded word has met (R77). -/

theorem decode_eq_ok_iff {w : CommandWord} {i : Instr} : decode w = .ok i ↔ ∃ row, rowOf (opcodeOf w) = some row ∧
    w &&& row.mask = row.matchWord ∧ row.build (fieldsOf w) = i ∧ i.wellFormed = true := by
  constructor
  · intro h
    cases hrow : rowOf (opcodeOf w) with
    | none => simp [decode, hrow] at h
    | some row =>
      by_cases hmask : w &&& row.mask = row.matchWord
      · by_cases hwf : (row.build (fieldsOf w)).wellFormed = true
        · have hbuild : row.build (fieldsOf w) = i := by simpa [decode, hrow, hmask, checkOperands, hwf] using h
          exact ⟨row, rfl, hmask, hbuild, hbuild ▸ hwf⟩
        · simp [decode, hrow, hmask, checkOperands, hwf] at h
      · simp [decode, hrow, hmask] at h
  · rintro ⟨row, hrow, hmask, hbuild, hwf⟩
    exact decode_of_row hrow hmask hbuild hwf

theorem exists_decode_eq_error {w : CommandWord} (h : ∀ i, decode w ≠ .ok i) : ∃ e, decode w = .error e := by
  cases hdec : decode w with
  | error e => exact ⟨e, rfl⟩
  | ok i => exact absurd hdec (h i)

theorem mem_opcodeTable_of_rowOf {opc : BitVec 8} {row : OpcodeRow} (h : rowOf opc = some row) : row ∈ opcodeTable :=
  List.mem_of_find?_eq_some h

theorem opc_of_rowOf {opc : BitVec 8} {row : OpcodeRow} (h : rowOf opc = some row) : row.opc = opc :=
  eq_of_beq (List.find?_some (p := fun row : OpcodeRow => row.opc == opc) h)

/-! The nibbles of a row: each one below the opcode is an operand or must be zero (R77, R78). -/

/-- The mask lets the nibble at bit `lo` through. -/
abbrev OpcodeRow.Takes (row : OpcodeRow) (lo : Nat) : Prop := row.mask.extractLsb' lo 4 = 0

/-- The mask covers the nibble at bit `lo`, and the match has `0000` there. -/
abbrev OpcodeRow.MustBeZero (row : OpcodeRow) (lo : Nat) : Prop :=
  row.mask.extractLsb' lo 4 = 0xF ∧ row.matchWord.extractLsb' lo 4 = 0

theorem OpcodeRow.mustBeZero_z : ∀ row ∈ opcodeTable, row.MustBeZero 0 := by decide

theorem OpcodeRow.takes_or_mustBeZero :
    ∀ row ∈ opcodeTable, ∀ lo ∈ [20, 16, 12, 8, 4], row.Takes lo ∨ row.MustBeZero lo := by decide

theorem OpcodeRow.MustBeZero.nibble_eq_zero {row : OpcodeRow} {w : CommandWord} {lo : Nat} (h : row.MustBeZero lo)
    (hmask : w &&& row.mask = row.matchWord) : w.extractLsb' lo 4 = 0 := by
  obtain ⟨hcovered, hzero⟩ := h
  calc w.extractLsb' lo 4
    _ = w.extractLsb' lo 4 &&& row.mask.extractLsb' lo 4 := by rw [hcovered]; exact BitVec.and_allOnes.symm
    _ = (w &&& row.mask).extractLsb' lo 4 := BitVec.extractLsb'_and.symm
    _ = 0 := by rw [hmask, hzero]

/-! The word a row packs from the operands it takes. -/

/-- The register field a row leaves at bit `lo` of a word: the word's own where it is an operand, else `0000`. -/
def OpcodeRow.operand (row : OpcodeRow) (w : CommandWord) (lo : Nat) : Fin 16 :=
  if row.Takes lo then regOfNibble (w.extractLsb' lo 4) else 0

/-- The row's opcode with the operands it takes from a word, in the layout of R71. -/
def OpcodeRow.pack (row : OpcodeRow) (w : CommandWord) : CommandWord :=
  packR row.opc (row.operand w 20) (row.operand w 16) (row.operand w 12) (row.operand w 8) (row.operand w 4)

theorem OpcodeRow.nibbleOfReg_operand {row : OpcodeRow} {w : CommandWord} {lo : Nat}
    (h : row.Takes lo ∨ row.MustBeZero lo) (hmask : w &&& row.mask = row.matchWord) :
    nibbleOfReg (row.operand w lo) = w.extractLsb' lo 4 := by
  by_cases htakes : row.Takes lo
  · rw [operand, if_pos htakes, nibbleOfReg_regOfNibble]
  · rw [operand, if_neg htakes, (h.resolve_left htakes).nibble_eq_zero hmask]
    rfl

/-- The mask test leaves nothing of a word but the row's opcode and its operands. -/
theorem OpcodeRow.pack_eq_self {row : OpcodeRow} {w : CommandWord} (hrow : rowOf (opcodeOf w) = some row)
    (hmask : w &&& row.mask = row.matchWord) : row.pack w = w := by
  have hmem := mem_opcodeTable_of_rowOf hrow
  have hfield (lo : Nat) (hlo : lo ∈ [20, 16, 12, 8, 4]) : nibbleOfReg (row.operand w lo) = w.extractLsb' lo 4 :=
    nibbleOfReg_operand (takes_or_mustBeZero row hmem lo hlo) hmask
  apply word_ext
  · exact (packR_opc ..).trans (opc_of_rowOf hrow)
  · exact (packR_f1 ..).trans (hfield 20 (by decide))
  · exact (packR_f2 ..).trans (hfield 16 (by decide))
  · exact (packR_f3 ..).trans (hfield 12 (by decide))
  · exact (packR_f4 ..).trans (hfield 8 (by decide))
  · exact (packR_f5 ..).trans (hfield 4 (by decide))
  · exact (packR_z ..).trans ((mustBeZero_z row hmem).nibble_eq_zero hmask).symm

/-- The immediate of a word overlays its fields `F2` to `F5` (R72). -/
theorem packI_fieldsOf (opc : BitVec 8) (w : CommandWord) : packI opc (fieldsOf w).f1 (fieldsOf w).imm =
    packR opc (fieldsOf w).f1 (fieldsOf w).f2 (fieldsOf w).f3 (fieldsOf w).f4 (fieldsOf w).f5 := by
  rw [packI_eq_packR]
  congr 1 <;> apply Fin.ext <;>
    simp only [fieldsOf, regOfNibble, Fin.val_ofNat, BitVec.extractLsb'_toNat, Nat.shiftRight_eq_div_pow] <;> omega

/-- A row's command uses exactly the operands its mask lets through. Row by row: the two format I rows are `LIX` and
`LDC`, every other one is format R and packs by computation. -/
theorem encode_build : ∀ row ∈ opcodeTable, ∀ w, encode (row.build (fieldsOf w)) = row.pack w := by
  refine List.forall_mem_cons.2 ⟨fun _ => rfl, ?_⟩
  refine List.forall_mem_cons.2 ⟨packI_fieldsOf 0x01, ?_⟩
  refine List.forall_mem_cons.2 ⟨fun _ => rfl, ?_⟩
  refine List.forall_mem_cons.2 ⟨packI_fieldsOf 0x03, ?_⟩
  repeat refine List.forall_mem_cons.2 ⟨fun _ => rfl, ?_⟩
  exact List.forall_mem_nil _

/-- Settles O2: the row's command packs the operands of the word, and those with the opcode are the whole word. -/
theorem encodeOfDecodeIsTheWord : Obligations.EncodeOfDecodeIsTheWord := by
  intro w i h
  obtain ⟨row, hrow, hmask, rfl, hwf⟩ := decode_eq_ok_iff.1 h
  exact ⟨hwf, (encode_build row (mem_opcodeTable_of_rowOf hrow) w).trans (OpcodeRow.pack_eq_self hrow hmask)⟩

/-! The words that decode to nothing (R75 to R77). -/

/-- A flavour code 5 to 7 in the flavoured range, or above the last opcode (R75, R76). -/
abbrev ReservedOpcode (opc : BitVec 8) : Prop :=
  (0x08 ≤ opc.toNat ∧ opc.toNat ≤ 0x4F ∧ 5 ≤ opc.toNat % 8) ∨ 0x99 < opc.toNat

theorem not_reservedOpcode_of_mem : ∀ row ∈ opcodeTable, ¬ ReservedOpcode row.opc := by decide

theorem rowOf_eq_none_of_reserved {opc : BitVec 8} (h : ReservedOpcode opc) : rowOf opc = none := by
  cases hrow : rowOf opc with
  | none => rfl
  | some row =>
    exact absurd (opc_of_rowOf hrow ▸ h) (not_reservedOpcode_of_mem row (mem_opcodeTable_of_rowOf hrow))

theorem decode_of_rowOf_eq_none {w : CommandWord} (h : rowOf (opcodeOf w) = none) :
    decode w = .error .unknownOpcode := by
  rw [decode, h]

theorem toNat_mod_sixteen_of_decode {w : CommandWord} {i : Instr} (h : decode w = .ok i) : w.toNat % 16 = 0 := by
  obtain ⟨row, hrow, hmask, -, -⟩ := decode_eq_ok_iff.1 h
  have hz := (OpcodeRow.mustBeZero_z row (mem_opcodeTable_of_rowOf hrow)).nibble_eq_zero hmask
  calc w.toNat % 16
    _ = (w.extractLsb' 0 4).toNat := (BitVec.extractLsb'_toNat 0 4 w).symm
    _ = 0 := by rw [hz]; rfl

/-- Settles O3: no row has a reserved opcode, and every row's mask covers the `Z` nibble. -/
theorem reservedWordsAreIllegal : Obligations.ReservedWordsAreIllegal := by
  intro w
  exact ⟨fun h => decode_of_rowOf_eq_none (rowOf_eq_none_of_reserved h),
    fun hz => exists_decode_eq_error fun _ h => hz (toNat_mod_sixteen_of_decode h)⟩

/-- Settles O4, each word by running the decoder. -/
theorem sampleWordsDecode : Obligations.SampleWordsDecode := by
  unfold Obligations.SampleWordsDecode
  decide

end Sys2Proof
end

section
/-! The step of a word that is no legal command's encoding (30_encoding.md R80; 60_exceptions.md R325, R328). -/

namespace Sys2Proof.Machine

theorem decode_error_of_not_encoding {w : CommandWord} (h : ∀ i : Instr, i.wellFormed = true → encode i ≠ w) :
    ∃ e, decode w = .error e :=
  exists_decode_eq_error fun i hdec =>
    have ⟨hwf, henc⟩ := encodeOfDecodeIsTheWord w i hdec
    h i hwf henc

theorem State.accept_of_decode_error {w : CommandWord} {e : Illegal} (h : decode w = .error e) (s : State) :
    s.accept w = .next (State.trap { s with cmd := w } .illegalCommand) := by
  rw [State.accept, h]

/-- An idle, released block that has not faulted accepts the low half of the word written to `CMD` (10_state.md R33). -/
theorem step_of_command {s : State} {u : Word} {rest : List HostAction} (hhost : s.host = .write cmdIndex u :: rest)
    (hrst : s.rst = false) (hfault : s.st.fault = false) (hbusy : s.st.busy = false) :
    step s = State.accept { s with host := rest } (u.setWidth 32) := calc step s
  _ = State.hostAct { s with host := rest } (.write cmdIndex u) := step_of_host_cons hhost
  _ = State.giveCommand { s with host := rest } u := State.hostAct_write_cmd { s with host := rest } hbusy u
  _ = State.accept { s with host := rest } (u.setWidth 32) :=
    State.giveCommand_of_ready { s with host := rest } hrst hfault u

/-- `FCMD` takes the low half of the word written to `CMD` (10_state.md R31, R33). -/
theorem setWidth_setWidth_eq_and (u : Word) : (u.setWidth 32).setWidth 64 = u &&& 0xFFFFFFFF := by
  apply BitVec.eq_of_toNat_eq
  have := u.isLt
  rw [BitVec.toNat_and, BitVec.toNat_setWidth, BitVec.toNat_setWidth]
  calc u.toNat % 2 ^ 32 % 2 ^ 64
    _ = u.toNat % 2 ^ 32 := Nat.mod_eq_of_lt (by omega)
    _ = u.toNat &&& 0xFFFFFFFF := (Nat.and_two_pow_sub_one_eq_mod _ 32).symm

/-- Settles O9: the word is accepted and decodes to nothing, so the step is the trap, which leaves the rest. -/
theorem illegalWordTrapsAndChangesNothingElse : Obligations.IllegalWordTrapsAndChangesNothingElse := by
  intro s u rest hhost hrst hfault hbusy hillegal
  obtain ⟨e, hdec⟩ := decode_error_of_not_encoding hillegal
  refine ⟨_, (step_of_command hhost hrst hfault hbusy).trans (State.accept_of_decode_error hdec _), rfl, ?_⟩
  rw [← setWidth_setWidth_eq_and]
  exact State.leaves_trap { s with host := rest, cmd := u.setWidth 32 } .illegalCommand

end Sys2Proof.Machine
end

section
/-! System, move, constant, load and store commands (40_limbs_load_store.md R107 to R119). A slice load in range hands
its variant the value of the slice narrowed to `B` bits; a store in range leaves limb `j` at word `j`. -/

namespace Sys2Proof.Machine

/-! The constants bit by bit (R107; 00_scope.md R7, R9). -/

theorem getLsbD_limb (v j : Nat) {i : Nat} (hi : i < 64) : (limb v j).getLsbD i = v.testBit (64 * j + i) := by
  rw [limb, BitVec.getLsbD_ofNat, decide_eq_true hi, Bool.true_and, Nat.testBit_div_two_pow, Nat.add_comm]

theorem getLsbD_limb_maxValue (B j : Nat) {i : Nat} (hi : i < 64) :
    (limb (maxValue B) j).getLsbD i = decide (64 * j + i < B) := by
  rw [getLsbD_limb _ _ hi, maxValue, Nat.testBit_two_pow_sub_one]

theorem getLsbD_topMask (B : Nat) {i : Nat} (hi : i < 64) :
    (topMask B).getLsbD i = decide (B % 64 = 0 ∨ i < B % 64) := by
  by_cases h : B % 64 = 0
  · rw [topMask, if_pos h, BitVec.getLsbD_allOnes]
    simp [h, hi]
  · rw [topMask, if_neg h, BitVec.getLsbD_ofNat, Nat.testBit_two_pow_sub_one]
    simp [h, hi]

theorem limb_maxValue_of_lt {B j : Nat} (h : j + 1 < limbCount B) : limb (maxValue B) j = BitVec.allOnes 64 := by
  apply BitVec.eq_of_getLsbD_eq
  intro i hi
  have hbit : 64 * j + i < B := by have := limbCount_lt B; omega
  rw [getLsbD_limb_maxValue B j hi, decide_eq_true hbit, BitVec.getLsbD_allOnes, decide_eq_true hi]

theorem limb_maxValue_top {B : Nat} (h : 1 ≤ limbCount B) : limb (maxValue B) (limbCount B - 1) = topMask B := by
  apply BitVec.eq_of_getLsbD_eq
  intro i hi
  rw [getLsbD_limb_maxValue B _ hi, getLsbD_topMask B hi]
  apply decide_eq_decide.2
  unfold limbCount at h ⊢
  omega

/-- Settles O60: the constants by definition, the limbs of `MAX` bit by bit. -/
theorem constantsAndTheirLimbs : Obligations.ConstantsAndTheirLimbs := by
  intro B
  refine ⟨rfl, rfl, ?_, rfl, ?_, ?_, fun j hj => ?_, limb_maxValue_top⟩
  · rintro rfl
    rfl
  · rw [Nat.one_shiftLeft, maxValue]
  · rintro rfl
    rfl
  · rw [limb_maxValue_of_lt hj, BitVec.toNat_allOnes]

/-- The immediate zero-extended (30_encoding.md R73), as a number. -/
theorem immediate_eq_ofNat (imm : BitVec 16) : immediate imm = BitVec.ofNat 64 imm.toNat :=
  (BitVec.ofNat_toNat 64 imm).symm

theorem exec_lix (xd : XReg) (imm : BitVec 16) (s : State) :
    exec (.lix xd imm) s = .next (s.doneX xd imm.toNat) :=
  congrArg (fun w => Host.Outcome.next (State.done (s.writeX xd w))) (immediate_eq_ofNat imm)

/-- Settles O20: each command's answer is `done`, or one write and `done`. -/
theorem systemAndConstantCommands : Obligations.SystemAndConstantCommands := by
  intro s vd va xd imm
  exact ⟨⟨_, rfl, s.leaves_done⟩, ⟨_, exec_lix xd imm s, s.leaves_doneX xd _⟩, ⟨_, rfl, s.leaves_doneV vd _⟩,
    ⟨_, rfl, s.leaves_doneV vd _⟩, ⟨_, rfl, s.leaves_doneV vd _⟩, ⟨_, rfl, s.leaves_doneV vd _⟩⟩

/-! Slice loads (R108, R114 to R118; 20_memory.md R54). -/

/-- R108 of a slice of limb memory, in the value of the slice. -/
theorem State.fromSlice_readWords (s : State) (a n : Nat) :
    (fromSlice s.B (s.readWords a n)).r = s.sliceValue a n % 2 ^ s.B ∧
    (fromSlice s.B (s.readWords a n)).ovf = decide (2 ^ s.B ≤ s.sliceValue a n) ∧
    (fromSlice s.B (s.readWords a n)).sat = 2 ^ s.B - 1 := by
  rw [← s.val_readWords n a]
  exact fromSlice_spec s.B _

section loads
variable {s : State} {xaddr xn : XReg} {f : Narrowed → State}

theorem State.loadSlice_of_le (h : (s.readX xaddr).toNat + (s.readX xn).toNat ≤ s.params.nlmem.val) :
    s.loadSlice xaddr xn f = f (fromSlice s.B (s.readWords (s.readX xaddr).toNat (s.readX xn).toNat)) := by
  rw [loadSlice_eq, if_pos h]

theorem State.loadSlice_of_lt (h : s.params.nlmem.val < (s.readX xaddr).toNat + (s.readX xn).toNat) :
    s.loadSlice xaddr xn f = s.trap .lmemRange := by
  rw [loadSlice_eq, if_neg (Nat.not_le.2 h)]

theorem exec_load_of_le {i : Instr} (hi : exec i s = .next (s.loadSlice xaddr xn f))
    (h : (s.readX xaddr).toNat + (s.readX xn).toNat ≤ s.params.nlmem.val) :
    exec i s = .next (f (fromSlice s.B (s.readWords (s.readX xaddr).toNat (s.readX xn).toNat))) :=
  hi.trans (congrArg _ (State.loadSlice_of_le h))

/-- A load that has come to its range check traps there when the slice is not in limb memory. -/
theorem traps_lmemRange_of_load {i : Instr} (hi : exec i s = .next (s.loadSlice xaddr xn f))
    (h : s.params.nlmem.val < (s.readX xaddr).toNat + (s.readX xn).toNat) : i.Traps s .lmemRange :=
  ⟨_, hi.trans (congrArg _ (State.loadSlice_of_lt h)), s.leaves_trap _⟩

/-- In range the four variants of `LDS` are the flavours of R130 of the slice's value; there is no plain one, and
`LDS.W` stands in its place. -/
theorem fiveFlavours_lds (vd : VReg) (h : (s.readX xaddr).toNat + (s.readX xn).toNat ≤ s.params.nlmem.val) :
    FiveFlavours s (.ldsW vd xaddr xn) (.ldsW vd xaddr xn) (.ldsC vd xaddr xn) (.ldsO vd xaddr xn)
      (.ldsS vd xaddr xn) vd (s.sliceValue (s.readX xaddr).toNat (s.readX xn).toNat % 2 ^ s.B)
      (2 ^ s.B ≤ s.sliceValue (s.readX xaddr).toNat (s.readX xn).toNat) (2 ^ s.B - 1) false := by
  obtain ⟨hr, hovf, hsat⟩ := s.fromSlice_readWords (s.readX xaddr).toNat (s.readX xn).toNat
  exact .of_narrowed_noTrap (exec_load_of_le (f := s.wrapping vd) rfl h) (exec_load_of_le (f := s.wrapping vd) rfl h)
    (exec_load_of_le (f := s.checked vd) rfl h) (exec_load_of_le (f := s.overflowing vd) rfl h)
    (exec_load_of_le (f := s.saturating vd) rfl h) hr hovf fun _ => hsat

theorem exec_ldl_of_ne (vd : VReg) (h : (s.readX xn).toNat ≠ limbCount s.B) :
    exec (.ldl vd xaddr xn) s = .next (s.trap .invalidLength) :=
  congrArg _ (if_pos h)

theorem exec_ldl_of_eq (vd : VReg) (h : (s.readX xn).toNat = limbCount s.B) : exec (.ldl vd xaddr xn) s =
    .next (s.loadSlice xaddr xn fun t => if t.ovf then s.trap .overflow else s.doneV vd t.r) :=
  congrArg _ (if_neg (not_not.2 h))

theorem exec_ldl_of_le (vd : VReg) (hn : (s.readX xn).toNat = limbCount s.B)
    (h : (s.readX xaddr).toNat + (s.readX xn).toNat ≤ s.params.nlmem.val) : exec (.ldl vd xaddr xn) s =
    .next (if 2 ^ s.B ≤ s.sliceValue (s.readX xaddr).toNat (s.readX xn).toNat then s.trap .overflow
      else s.doneV vd (s.sliceValue (s.readX xaddr).toNat (s.readX xn).toNat % 2 ^ s.B)) := by
  obtain ⟨hr, hovf, -⟩ := s.fromSlice_readWords (s.readX xaddr).toNat (s.readX xn).toNat
  rw [exec_load_of_le (exec_ldl_of_eq vd hn) h, hr, hovf]
  simp only [decide_eq_true_eq]

end loads

/-- Settles O21, the checks in R114's order. -/
theorem exactLengthLoad : Obligations.ExactLengthLoad := by
  intro s vd xaddr xn
  refine ⟨fun hne => ?_, fun hn hout => ?_, fun hn hin hexcess => ?_, fun hn hin hfits => ?_⟩
  · exact ⟨_, exec_ldl_of_ne vd hne, s.leaves_trap _⟩
  · exact traps_lmemRange_of_load (exec_ldl_of_eq vd hn) hout
  · refine ⟨_, exec_ldl_of_le vd hn hin, ?_⟩
    rw [if_pos hexcess]
    exact s.leaves_trap _
  · refine ⟨_, exec_ldl_of_le vd hn hin, ?_⟩
    rw [if_neg (Nat.not_le.2 hfits), Nat.mod_eq_of_lt hfits]
    exact s.leaves_doneV vd _

/-- Settles O22: the range check, then the flavours of the slice's value. -/
theorem sliceLoadVariants : Obligations.SliceLoadVariants := by
  intro s vd xaddr xn
  refine ⟨fun hout => ?_, fun hin => ?_⟩
  · exact ⟨traps_lmemRange_of_load rfl hout, traps_lmemRange_of_load rfl hout, traps_lmemRange_of_load rfl hout,
      traps_lmemRange_of_load rfl hout⟩
  · have flavours := fiveFlavours_lds vd hin
    refine ⟨flavours.wrapping, fun hfits => ?_, fun hexcess => ?_⟩
    · have hno := Nat.not_le.2 hfits
      rw [Nat.mod_eq_of_lt hfits] at flavours
      exact ⟨flavours.checkedFits hno, flavours.overflowingFits hno, flavours.saturatingFits hno⟩
    · exact ⟨flavours.checkedOverflows hexcess, flavours.overflowingOverflows hexcess,
        flavours.saturatingOverflows hexcess⟩

/-! The store (R119; 20_memory.md R52, R55). -/

/-- A store of words and `done`: those words and nothing else. -/
theorem State.leaves_writeWords_done (s : State) (a : Nat) (ws : List Word) :
    s.Leaves (s.writeWords a ws).done s.readV s.readX
      (fun b => if a ≤ b ∧ b < a + ws.length then ws.getD (b - a) 0 else s.readLmem b) s.st.afterDone s.fcmd
      s.draws := by
  obtain ⟨hmem, honly⟩ := writeWords_spec ws s a
  rw [honly]
  exact ⟨fun _ => rfl, fun _ => rfl, fun b => (congrArg (State.readLmem · b) honly.symm).trans (hmem b), rfl, rfl, rfl,
    rfl, rfl, rfl, rfl, rfl, rfl⟩

@[simp] theorem State.length_wideLimbs (s : State) (vs : VReg) : (s.wideLimbs vs).length = limbCount s.B :=
  length_limbsOf _ _

theorem State.getD_wideLimbs (s : State) (vs : VReg) {j : Nat} (h : j < limbCount s.B) :
    (s.wideLimbs vs).getD j 0 = limb (s.readV vs) j := by
  rw [List.getD_eq_getElem?_getD, wideLimbs, limbsOf_getElem? _ _ _ h]
  rfl

theorem exec_stl_of_le {s : State} (vs : VReg) {xaddr : XReg}
    (h : (s.readX xaddr).toNat + limbCount s.B ≤ s.params.nlmem.val) :
    exec (.stl vs xaddr) s = .next (s.writeWords (s.readX xaddr).toNat (s.wideLimbs vs)).done := by
  rw [← s.length_wideLimbs vs] at h
  exact (execStl_eq vs xaddr s).trans (congrArg _ (if_pos h))

theorem exec_stl_of_lt {s : State} (vs : VReg) {xaddr : XReg}
    (h : s.params.nlmem.val < (s.readX xaddr).toNat + limbCount s.B) :
    exec (.stl vs xaddr) s = .next (s.trap .lmemRange) := by
  rw [← s.length_wideLimbs vs] at h
  exact (execStl_eq vs xaddr s).trans (congrArg _ (if_neg (Nat.not_le.2 h)))

/-- The words a store leaves are the limbs of its source. -/
theorem State.leaves_store (s : State) (vs : VReg) (a : Nat) :
    s.Leaves (s.writeWords a (s.wideLimbs vs)).done s.readV s.readX
      (fun b => if a ≤ b ∧ b < a + limbCount s.B then limb (s.readV vs) (b - a) else s.readLmem b) s.st.afterDone
      s.fcmd s.draws := by
  have leaves := s.leaves_writeWords_done a (s.wideLimbs vs)
  rw [s.length_wideLimbs vs] at leaves
  refine { leaves with memory := fun b => (leaves.memory b).trans ?_ }
  split
  next hb => exact s.getD_wideLimbs vs (by omega)
  next => rfl

/-- Settles O23: the range check, then the words of the store. -/
theorem storeWritesExactlyItsLimbs : Obligations.StoreWritesExactlyItsLimbs := by
  intro s vs xaddr
  exact ⟨fun hout => ⟨_, exec_stl_of_lt vs hout, s.leaves_trap _⟩,
    fun hin => ⟨_, exec_stl_of_le vs hin, s.leaves_store vs _⟩⟩

/-! A load after a store (R119). -/

/-- A slice that holds the limbs of a value reads as that value (20_memory.md R52). -/
theorem State.sliceValue_of_limbs {t : State} {a n v : Nat} (hmem : ∀ j < n, t.readLmem (a + j) = limb v j)
    (hv : v < 2 ^ (64 * n)) : t.sliceValue a n = v := by
  have hwords : t.readWords a n = limbsOf n v := by
    apply List.ext_getElem?'
    intro j hj
    rw [length_readWords, length_limbsOf, max_self] at hj
    rw [readWords_getElem? t n a j hj, limbsOf_getElem? n v j hj, hmem j hj]
  rw [← val_readWords, hwords, val_limbsOf_of_lt hv]

/-- Settles O24: the slice stored holds the limbs of `V[vs]`, so it reads as a value below `2^B`, which `LDL` loads. -/
theorem storeThenLoadReturnsTheValue : Obligations.StoreThenLoadReturnsTheValue := by
  intro s t vs vd xaddr xn hcanon hin hlen hstore
  obtain ⟨t', ht', leaves⟩ := (storeWritesExactlyItsLimbs s vs xaddr).2 hin
  obtain rfl : t = t' := Host.Outcome.next.inj (hstore.symm.trans ht')
  have hB : t.B = s.B := congrArg (·.width.val) leaves.params
  have haddr : t.readX xaddr = s.readX xaddr := leaves.scalar xaddr
  have hn : (t.readX xn).toNat = limbCount s.B := (congrArg BitVec.toNat (leaves.scalar xn)).trans hlen
  have hmem : ∀ j < limbCount s.B, t.readLmem ((s.readX xaddr).toNat + j) = limb (s.readV vs) j := by
    intro j hj
    rw [leaves.memory, if_pos ⟨Nat.le_add_right _ _, Nat.add_lt_add_left hj _⟩, Nat.add_sub_cancel_left]
    rfl
  have hslice : t.sliceValue (t.readX xaddr).toNat (t.readX xn).toNat = s.readV vs := by
    rw [haddr, hn]
    exact State.sliceValue_of_limbs hmem (lt_limbs (hcanon vs))
  obtain ⟨-, -, -, hload⟩ := exactLengthLoad t vd xaddr xn
  rw [hslice, hB, haddr, hn, leaves.params] at hload
  exact hload rfl hin (hcanon vs)

end Sys2Proof.Machine
end

section
/-! The limb forms of the adder, the subtracter and the multiplier (41_arith_flavours.md R131 to R134; R102, R103, R105
and R106 of 40_limbs_load_store.md): what the `L` limbs leave out is a multiple of `2^(64L)`, hence of `2^B`. -/

namespace Sys2Proof.Machine

theorem two_pow_dvd_two_pow_limbs (B : Nat) : 2 ^ B ∣ 2 ^ (64 * limbCount B) := pow_dvd_pow 2 (le_limbCount B)

/-- R131: the carry out and the masked-off bits are the two places a sum of `2^B` or more can show. -/
theorem addLimbs_spec {B a b : Nat} (ha : a < 2 ^ B) (hb : b < 2 ^ B) :
    addLimbs B a b = ((a + b) % 2 ^ B, decide (2 ^ B ≤ a + b)) := by
  have hsum := addN_spec (limbsOf (limbCount B) a) (limbsOf (limbCount B) b) false (by simp)
  have hlen := length_addN (limbsOf (limbCount B) a) (limbsOf (limbCount B) b) false (by simp)
  rw [length_limbsOf] at hlen
  rw [length_limbsOf, val_limbsOf_of_lt (lt_limbs ha), val_limbsOf_of_lt (lt_limbs hb), Bool.toNat_false,
    Nat.add_zero] at hsum
  simp only [addLimbs]
  rw [val_canonLimbs hlen, maskedOff_eq hlen, ← hsum]
  generalize addN (limbsOf (limbCount B) a) (limbsOf (limbCount B) b) false = p
  obtain ⟨K, hK⟩ := two_pow_dvd_two_pow_limbs B
  refine Prod.ext ?_ ?_
  · rw [hK, Nat.mul_assoc, Nat.add_mul_mod_self_left]
  · cases p.2 with
    | false => simp
    | true =>
      have hle : 2 ^ B ≤ 2 ^ (64 * limbCount B) := Nat.pow_le_pow_right (by omega) (le_limbCount B)
      simp [Nat.le_add_left_of_le hle]

/-- R132: the final borrow says `a < b`, and a borrow adds `2^(64L)`, which is `2^B` modulo `2^B`. -/
theorem subLimbs_spec {B a b : Nat} (ha : a < 2 ^ B) (hb : b < 2 ^ B) :
    subLimbs B a b = (if b ≤ a then a - b else a + 2 ^ B - b, decide (a < b)) := by
  have hdiff := subN_spec (limbsOf (limbCount B) a) (limbsOf (limbCount B) b) false (by simp)
  have hlen := length_subN (limbsOf (limbCount B) a) (limbsOf (limbCount B) b) false (by simp)
  rw [length_limbsOf] at hlen
  rw [length_limbsOf, val_limbsOf_of_lt (lt_limbs ha), val_limbsOf_of_lt (lt_limbs hb), Bool.toNat_false,
    Nat.add_zero] at hdiff
  have hlt := val_lt (subN (limbsOf (limbCount B) a) (limbsOf (limbCount B) b) false).1
  rw [hlen] at hlt
  simp only [subLimbs]
  rw [val_canonLimbs hlen]
  generalize subN (limbsOf (limbCount B) a) (limbsOf (limbCount B) b) false = p at hdiff hlt
  cases hborrow : p.2 with
  | false =>
    rw [hborrow, Bool.toNat_false, Nat.mul_zero, Nat.add_zero] at hdiff
    rw [if_pos (by omega), decide_eq_false (by omega), Nat.mod_eq_of_lt (by omega)]
    exact Prod.ext (by omega) rfl
  | true =>
    rw [hborrow, Bool.toNat_true, Nat.mul_one] at hdiff
    have hmod : val p.1 ≡ a + 2 ^ B - b [MOD 2 ^ B] := by
      apply Nat.ModEq.add_right_cancel' b
      rw [hdiff, Nat.sub_add_cancel (by omega)]
      exact ((Nat.modEq_zero_iff_dvd.2 (two_pow_dvd_two_pow_limbs B)).trans
        (Nat.modEq_zero_iff_dvd.2 dvd_rfl).symm).add_left a
    rw [if_neg (by omega), decide_eq_true (by omega), hmod, Nat.mod_eq_of_lt (by omega)]

/-- Settles O54: the ripple sums read through R106. -/
theorem adderLimbFormsAgree : Obligations.AdderLimbFormsAgree :=
  fun _ _ _ ha hb => ⟨addLimbs_spec ha hb, subLimbs_spec ha hb⟩

/-- The low product of a schoolbook product depends on the value of the product only (R105, R133). -/
theorem lowProduct_mulNxM {B : Nat} {as : List Word} (h : as.length = limbCount B) (bs : List Word) :
    lowProduct B (mulNxM as bs) = (val as * val bs % 2 ^ B, decide (2 ^ B ≤ val as * val bs)) := by
  obtain ⟨hval, hlen⟩ := mulNxM_spec as bs
  rw [lowProduct_spec (by omega), hval]

/-- R133. -/
theorem mulLimbs_spec {B a b : Nat} (ha : a < 2 ^ B) (hb : b < 2 ^ B) :
    mulLimbs B a b = (a * b % 2 ^ B, decide (2 ^ B ≤ a * b)) := by
  rw [mulLimbs, lowProduct_mulNxM (length_limbsOf _ _), val_limbsOf_of_lt (lt_limbs ha),
    val_limbsOf_of_lt (lt_limbs hb)]

/-- R134. -/
theorem mulxLimbs_spec {B a : Nat} (s : Word) (ha : a < 2 ^ B) :
    mulxLimbs B a s = (a * s.toNat % 2 ^ B, decide (2 ^ B ≤ a * s.toNat)) := by
  rw [mulxLimbs, lowProduct_mulNxM (length_limbsOf _ _), val_limbsOf_of_lt (lt_limbs ha), val_cons, val_nil,
    Nat.mul_zero, Nat.add_zero]

theorem any_drop_ne_zero_iff (p : List Word) (n : Nat) :
    (p.drop n).any (fun w => decide (w ≠ 0)) = true ↔ ∃ j, n ≤ j ∧ j < p.length ∧ p.getD j 0 ≠ 0 := by
  simp only [List.any_eq_true, decide_eq_true_eq, List.mem_iff_getElem, List.length_drop, List.getElem_drop]
  constructor
  · rintro ⟨_, ⟨i, hi, rfl⟩, hne⟩
    exact ⟨n + i, Nat.le_add_right n i, by omega, by rwa [List.getD_eq_getElem _ _ (by omega)]⟩
  · rintro ⟨j, hnj, hj, hne⟩
    obtain ⟨i, rfl⟩ := Nat.exists_eq_add_of_le hnj
    rw [List.getD_eq_getElem _ _ hj] at hne
    exact ⟨_, ⟨i, by omega, rfl⟩, hne⟩

/-- R106 of the low `n` limbs of `p`; of none, no bit is masked off. -/
theorem maskedOff_take_iff (B : Nat) {p : List Word} {n : Nat} (h : n ≤ p.length) :
    maskedOff B (p.take n) = true ↔ 1 ≤ n ∧ p.getD (n - 1) 0 &&& ~~~topMask B ≠ 0 := by
  cases n with
  | zero => simp [maskedOff]
  | succ n =>
    have hlast : (p.take (n + 1)).getLastD 0 = p.getD n 0 := by
      rw [List.getLastD_eq_getLast?, List.getLast?_take]
      simp [List.getD_eq_getElem?_getD, List.getElem?_eq_getElem (show n < p.length from h)]
    rw [maskedOff, hlast, decide_eq_true_eq]
    simp

/-- The flag of R133: a high limb is not zero, or the top of the low limbs has a bit outside `MASK`. -/
theorem lowProduct_flag_iff {B : Nat} {p : List Word} (h : limbCount B ≤ p.length) : (lowProduct B p).2 = true ↔
    (∃ j, limbCount B ≤ j ∧ j < p.length ∧ p.getD j 0 ≠ 0) ∨
      (1 ≤ limbCount B ∧ p.getD (limbCount B - 1) 0 &&& ~~~topMask B ≠ 0) := by
  rw [lowProduct, Bool.or_eq_true, any_drop_ne_zero_iff, maskedOff_take_iff B h]

/-- Settles O55: `mulLimbs` is the low product of `p` by definition, so the limb clauses are its two parts. -/
theorem multiplierLimbFormsAgree : Obligations.MultiplierLimbFormsAgree := by
  intro B a b ha hb L p
  obtain ⟨hr, hovf, hsat⟩ := mulVal_spec B a b
  have hlen : p.length = 2 * L := by
    rw [(mulNxM_spec _ _).2, length_limbsOf, length_limbsOf, Nat.two_mul]
  have hlimbs : mulLimbs B a b = ((mulVal B a b).r, (mulVal B a b).ovf) := by
    rw [mulLimbs_spec ha hb, hr, hovf]
  have hval : val (canonLimbs B (p.take L)) = (mulVal B a b).r := congrArg Prod.fst hlimbs
  have hflag : (lowProduct B p).2 = (mulVal B a b).ovf := congrArg Prod.snd hlimbs
  refine ⟨hr, by rw [hovf, decide_eq_true_eq], hsat, ?_, hlen, hval.symm, ?_, hlimbs⟩
  · rintro rfl
    obtain rfl : a = 0 := Nat.lt_one_iff.1 ha
    rw [hr, hovf, Nat.zero_mul]
    decide
  · rw [← hflag, lowProduct_flag_iff (by omega), hlen]

end Sys2Proof.Machine
end

section
/-! `ADD`, `SUB`, `MUL`, `MULX`, `NEG`, `POW`, `SHL`, `SHR` in the five flavours (41_arith_flavours.md R130 to R169;
44_bitwise_shift.md R245 to R259): each command is its flavour of the value function, so the contract is the value
function's law. -/

namespace Sys2Proof.Machine

/-- Settles O25: the law of `add` (R131) under the flavour contract, for any operands. -/
theorem addFiveFlavours : Obligations.AddFiveFlavours := by
  intro s vd va vb
  obtain ⟨hr, hovf, hsat⟩ := addVal_spec s.B (s.readV va) (s.readV vb)
  exact .of_narrowed rfl rfl rfl rfl rfl hr hovf fun _ => hsat

/-- Settles O26: the law of `sub` (R132), which needs operands below `2^B`; the clamp is `ZERO` where it is used. -/
theorem subFiveFlavours : Obligations.SubFiveFlavours := by
  intro s vd va vb hcanon
  obtain ⟨hr, hovf, hsat⟩ := subVal_spec (hcanon va) (hcanon vb)
  exact .of_narrowed rfl rfl rfl rfl rfl hr hovf fun hlt => hsat (hovf.trans (decide_eq_true hlt))

/-- Settles O27: the law of `mul` (R133) under the flavour contract, for any operands. -/
theorem mulFiveFlavours : Obligations.MulFiveFlavours := by
  intro s vd va vb
  obtain ⟨hr, hovf, hsat⟩ := mulVal_spec s.B (s.readV va) (s.readV vb)
  exact .of_narrowed rfl rfl rfl rfl rfl hr hovf fun _ => hsat

/-- Settles O28: the value function takes the scalar whole, and so does the `L × 1` product. -/
theorem mulxFiveFlavours : Obligations.MulxFiveFlavours := by
  intro s vd va xb
  obtain ⟨hr, hovf, hsat⟩ := mulxVal_spec s.B (s.readV va) (s.readX xb)
  exact ⟨.of_narrowed rfl rfl rfl rfl rfl hr hovf fun _ => hsat, mulxLimbs_spec (s.readX xb)⟩

/-- R135: the law of `sub` at `0 - a`, where the borrow says `a ≠ 0`. -/
theorem negVal_spec {B a : Nat} (ha : a < 2 ^ B) : (negVal B a).r = (2 ^ B - a) % 2 ^ B ∧
    (negVal B a).ovf = decide (a ≠ 0) ∧ (a ≠ 0 → (negVal B a).sat = 0) := by
  obtain ⟨hr, hovf, hsat⟩ := subVal_spec (Nat.two_pow_pos B) ha
  have hflag : (negVal B a).ovf = decide (a ≠ 0) := hovf.trans (decide_eq_decide.2 Nat.pos_iff_ne_zero)
  refine ⟨hr.trans ?_, hflag, fun hne => hsat (hflag.trans (decide_eq_true hne))⟩
  split
  next hle =>
    obtain rfl : a = 0 := Nat.le_zero.1 hle
    rw [Nat.sub_zero, Nat.sub_zero, Nat.mod_self]
  next hlt => rw [Nat.zero_add, Nat.mod_eq_of_lt (by omega)]

/-- Settles O29: the law of `neg`; a value and its negation sum to `2^B` before reduction. -/
theorem negFiveFlavours : Obligations.NegFiveFlavours := by
  intro s vd va hcanon
  obtain ⟨hr, hovf, hsat⟩ := negVal_spec (hcanon va)
  refine ⟨.of_narrowed rfl rfl rfl rfl rfl hr hovf hsat, ?_⟩
  rw [Nat.add_mod_mod, Nat.add_sub_cancel' (hcanon va).le, Nat.mod_self]

/-- Settles O30: the exponent is wide, so the `B` rounds of the loop use all its bits. -/
theorem powFiveFlavours : Obligations.PowFiveFlavours := by
  intro s vd va vb hcanon
  obtain ⟨hr, hovf, hsat⟩ := powVal_spec (a := s.readV va) (hcanon vb)
  exact .of_narrowed rfl rfl rfl rfl rfl hr hovf fun _ => hsat

/-- Settles O31: an amount of `B` or more leaves a multiple of `2^B`. -/
theorem shlFiveFlavours : Obligations.ShlFiveFlavours := by
  intro s vd va xk hcanon x k
  obtain ⟨hr, hovf, hsat⟩ := shlVal_spec (B := s.B) (x := x) (k := k)
  have flavours : FiveFlavours s (.shlP vd va xk) (.shlW vd va xk) (.shlC vd va xk) (.shlO vd va xk)
      (.shlS vd va xk) vd (x * 2 ^ k % 2 ^ s.B) (2 ^ s.B ≤ x * 2 ^ k) (2 ^ s.B - 1) false :=
    .of_narrowed_noTrap rfl rfl rfl rfl rfl hr (hovf (hcanon va)) fun _ => hsat
  refine ⟨flavours, fun hle => ?_⟩
  have hzero : x * 2 ^ k % 2 ^ s.B = 0 := Nat.mod_eq_zero_of_dvd (dvd_mul_of_dvd_right (pow_dvd_pow 2 hle) x)
  exact hzero ▸ flavours.wrapping

/-- Settles O32: an amount of `B` or more leaves nothing of a value below `2^B`. -/
theorem shrFiveFlavours : Obligations.ShrFiveFlavours := by
  intro s vd va xk hcanon x k
  obtain ⟨hr, hovf, hsat⟩ := shrVal_spec (inexact := s.params.shrOvfInexact) (k := k) (hcanon va)
  have hflag : (shrVal s.params.shrOvfInexact s.B x k).ovf =
      decide (s.params.shrOvfInexact = true ∧ x % 2 ^ k ≠ 0) := by
    rw [hovf, Bool.decide_and, Bool.decide_eq_true]
  have flavours : FiveFlavours s (.shrP vd va xk) (.shrW vd va xk) (.shrC vd va xk) (.shrO vd va xk)
      (.shrS vd va xk) vd (x / 2 ^ k) (s.params.shrOvfInexact = true ∧ x % 2 ^ k ≠ 0) (x / 2 ^ k) false :=
    .of_narrowed_noTrap rfl rfl rfl rfl rfl hr hflag fun _ => hsat
  refine ⟨flavours, fun hle => ?_⟩
  have hzero : x / 2 ^ k = 0 := Nat.div_eq_of_lt ((hcanon va).trans_le (Nat.pow_le_pow_right Nat.two_pos hle))
  exact hzero ▸ flavours.wrapping

end Sys2Proof.Machine
end

section
/-! The division procedures limb by limb (42_divide_log_root.md R180 to R183): both are long division on base `2^64`, and
the invariant of both is that the limbs consumed so far have given their own quotient and remainder. -/

namespace Sys2Proof.Machine

/-- One step of long division on base `b` by `v`: the window is the remainder of the digits above with the next digit
`x % b` brought down; its quotient is the next digit of `x / v`. -/
theorem longDivision_step (b x : Nat) {v : Nat} (hv : 0 < v) :
    x / b / v * b + (x / b % v * b + x % b) / v = x / v ∧ (x / b % v * b + x % b) % v = x % v := by
  have hx : x = v * (x / b / v * b) + (x / b % v * b + x % b) :=
    calc x = x / b * b + x % b := (Nat.div_add_mod' x b).symm
      _ = (v * (x / b / v) + x / b % v) * b + x % b := by rw [Nat.div_add_mod]
      _ = v * (x / b / v * b) + (x / b % v * b + x % b) := by ring
  constructor
  · conv_rhs => rw [hx, Nat.mul_add_div hv]
  · conv_rhs => rw [hx, Nat.mul_add_mod]

/-! Single-limb long division (R182). -/

/-- R182: a quotient digit fits a limb because the remainder above it is below the divisor. -/
theorem divSingle_spec {d : Nat} (hd : 0 < d) (ws : List Word) :
    val (divSingle d ws).1 = val ws / d ∧ (divSingle d ws).2 = val ws % d := by
  induction ws with
  | nil => simp [divSingle]
  | cons w ws ih =>
    obtain ⟨hq, hr⟩ := ih
    have hhigh : val (w :: ws) / 2 ^ 64 = val ws := by rw [val_cons]; have := w.isLt; omega
    have hlow : val (w :: ws) % 2 ^ 64 = w.toNat := by rw [val_cons]; have := w.isLt; omega
    obtain ⟨hquot, hrem⟩ := longDivision_step (2 ^ 64) (val (w :: ws)) hd
    rw [hhigh, hlow] at hquot hrem
    have hdigit : (val ws % d * 2 ^ 64 + w.toNat) / d < 2 ^ 64 := by
      have := Nat.mod_lt (val ws) hd
      have := w.isLt
      rw [Nat.div_lt_iff_lt_mul hd]
      omega
    simp only [divSingle, hr]
    refine ⟨?_, hrem⟩
    rw [val_cons, hq, BitVec.toNat_ofNat, Nat.mod_eq_of_lt hdigit, ← hquot, Nat.add_comm, Nat.mul_comm]

/-- Settles O56: the `L` limbs of a wide numerator have its value. -/
theorem singleLimbDivisionIsDivision : Obligations.SingleLimbDivisionIsDivision := by
  intro B n d hn hd _
  have h := divSingle_spec hd (limbsOf (limbCount B) n)
  rwa [val_limbsOf_of_lt (lt_limbs hn)] at h

/-! Knuth Algorithm D (R183). -/

theorem lt_two_pow_effectiveLimbs (x : Nat) : x < 2 ^ (64 * effectiveLimbs x) := lt_limbs (bitLen_spec x).1

/-- The significant limbs of a number hold fewer than 64 bits more than it has. -/
theorem effectiveLimbs_lt_bitLen (x : Nat) : 64 * effectiveLimbs x < bitLen x + 64 := limbCount_lt (bitLen x)

theorem bitLen_le_effectiveLimbs (x : Nat) : bitLen x ≤ 64 * effectiveLimbs x := le_limbCount (bitLen x)

theorem lt_bitLen_of_le {x n : Nat} (h : 2 ^ n ≤ x) : n < bitLen x :=
  (Nat.pow_lt_pow_iff_right (a := 2) (by omega)).1 (h.trans_lt (bitLen_spec x).1)

/-- A number of fewer limbs is the smaller one (R181). -/
theorem lt_of_effectiveLimbs_lt {n d : Nat} (h : effectiveLimbs n < effectiveLimbs d) : n < d := by
  have hbits := effectiveLimbs_lt_bitLen d
  have hd : d ≠ 0 := by
    rintro rfl
    exact absurd h (Nat.not_lt_zero _)
  calc n < 2 ^ (64 * effectiveLimbs n) := lt_two_pow_effectiveLimbs n
    _ ≤ 2 ^ (bitLen d - 1) := Nat.pow_le_pow_right Nat.two_pos (by omega)
    _ ≤ d := (bitLen_spec d).2 hd

/-- The normalised divisor (R183) has as many limbs as the divisor, and the top bit of the top limb set. -/
theorem normalised_bounds {d : Nat} (hd : d ≠ 0) :
    2 ^ (64 * effectiveLimbs d - 1) ≤ d * 2 ^ (64 * effectiveLimbs d - bitLen d) ∧
      d * 2 ^ (64 * effectiveLimbs d - bitLen d) < 2 ^ (64 * effectiveLimbs d) := by
  obtain ⟨hlt, hle⟩ := bitLen_spec d
  have hpos := bitLen_pos hd
  have hbits := bitLen_le_effectiveLimbs d
  constructor
  · calc 2 ^ (64 * effectiveLimbs d - 1) = 2 ^ (bitLen d - 1) * 2 ^ (64 * effectiveLimbs d - bitLen d) := by
          rw [← Nat.pow_add]; congr 1; omega
      _ ≤ d * 2 ^ (64 * effectiveLimbs d - bitLen d) := Nat.mul_le_mul_right _ (hle hd)
  · calc d * 2 ^ (64 * effectiveLimbs d - bitLen d)
        < 2 ^ bitLen d * 2 ^ (64 * effectiveLimbs d - bitLen d) := Nat.mul_lt_mul_of_pos_right hlt (Nat.two_pow_pos _)
      _ = 2 ^ (64 * effectiveLimbs d) := by rw [← Nat.pow_add, Nat.add_sub_cancel' hbits]

/-- One round of the digit loop (R183). By `delta`, because a bare `rfl` and the equation Lean generates for `knuthLoop`
both exceed the kernel's recursion depth. -/
theorem knuthLoop_succ (k v u j rem q : Nat) : knuthLoop k v u (j + 1) rem q =
    knuthLoop k v u j (knuthDigit k v (rem * 2 ^ 64 + u / 2 ^ (64 * j) % 2 ^ 64)).2
      (q * 2 ^ 64 + (knuthDigit k v (rem * 2 ^ 64 + u / 2 ^ (64 * j) % 2 ^ 64)).1) := by
  delta knuthLoop
  rfl

/-- R183: the digit loop from digit `j - 1` down, entered with the quotient and the remainder of the limbs from `j` up,
ends with those of the whole numerator. -/
theorem knuthLoop_spec {k v u : Nat} (hk : 2 ≤ k) (hlo : 2 ^ (64 * k - 1) ≤ v) (hhi : v < 2 ^ (64 * k)) (j : Nat) :
    knuthLoop k v u j (u / 2 ^ (64 * j) % v) (u / 2 ^ (64 * j) / v) = (u / v, u % v) := by
  have hv : 0 < v := Nat.lt_of_lt_of_le (Nat.two_pow_pos _) hlo
  induction j with
  | zero =>
    rw [Nat.mul_zero, Nat.pow_zero, Nat.div_one]
    rfl
  | succ j ih =>
    have hhigh : u / 2 ^ (64 * (j + 1)) = u / 2 ^ (64 * j) / 2 ^ 64 := by
      rw [Nat.div_div_eq_div_mul, ← Nat.pow_add, Nat.mul_succ]
    have hwindow : u / 2 ^ (64 * j) / 2 ^ 64 % v * 2 ^ 64 + u / 2 ^ (64 * j) % 2 ^ 64 < v * 2 ^ 64 := by
      have := Nat.mod_lt (u / 2 ^ (64 * j) / 2 ^ 64) hv
      have := Nat.mod_lt (u / 2 ^ (64 * j)) (Nat.two_pow_pos 64)
      omega
    obtain ⟨hquot, hrem⟩ := longDivision_step (2 ^ 64) (u / 2 ^ (64 * j)) hv
    rwa [hhigh, knuthLoop_succ, knuthDigit_spec hk hlo hhi hwindow, hquot, hrem]

/-- R183: above the first digit the numerator is below the divisor, so the loop may start with no digit at all. -/
theorem knuthLoop_of_lt {k v u j : Nat} (hk : 2 ≤ k) (hlo : 2 ^ (64 * k - 1) ≤ v) (hhi : v < 2 ^ (64 * k))
    (hu : u < v * 2 ^ (64 * j)) : knuthLoop k v u j (u / 2 ^ (64 * j)) 0 = (u / v, u % v) := by
  have hlt : u / 2 ^ (64 * j) < v := (Nat.div_lt_iff_lt_mul (Nat.two_pow_pos _)).2 hu
  have h := knuthLoop_spec (u := u) hk hlo hhi j
  rwa [Nat.mod_eq_of_lt hlt, Nat.div_eq_of_lt hlt] at h

/-- `t - k + 1` digits are enough (R183): the numerator has `t` limbs, and normalising adds fewer than 64 bits. -/
theorem normalised_numerator_lt {n d : Nat} (hd : d ≠ 0) (h : effectiveLimbs d ≤ effectiveLimbs n) :
    n * 2 ^ (64 * effectiveLimbs d - bitLen d) < d * 2 ^ (64 * effectiveLimbs d - bitLen d) *
      2 ^ (64 * (effectiveLimbs n - effectiveLimbs d + 1)) := by
  have hbits := effectiveLimbs_lt_bitLen d
  have hpos := bitLen_pos hd
  have hbits' := bitLen_le_effectiveLimbs d
  calc n * 2 ^ (64 * effectiveLimbs d - bitLen d)
      < 2 ^ (64 * effectiveLimbs n) * 2 ^ (64 * effectiveLimbs d - bitLen d) :=
        Nat.mul_lt_mul_of_pos_right (lt_two_pow_effectiveLimbs n) (Nat.two_pow_pos _)
    _ ≤ 2 ^ (64 * effectiveLimbs d - 1) * 2 ^ (64 * (effectiveLimbs n - effectiveLimbs d + 1)) := by
        rw [← Nat.pow_add, ← Nat.pow_add]
        exact Nat.pow_le_pow_right Nat.two_pos (by omega)
    _ ≤ _ := Nat.mul_le_mul_right _ (normalised_bounds hd).1

theorem knuthD_of_lt {n d : Nat} (h : effectiveLimbs n < effectiveLimbs d) : knuthD n d = (0, n) := if_pos h

/-- Settles O57: the digit loop divides the normalised numbers; the common factor `2^sh` leaves the quotient and
multiplies the remainder. -/
theorem knuthDivisionIsDivision : Obligations.KnuthDivisionIsDivision := by
  intro n d hge
  have hd : d ≠ 0 := by omega
  rcases Nat.lt_or_ge (effectiveLimbs n) (effectiveLimbs d) with hlt | hle
  · have hnd := lt_of_effectiveLimbs_lt hlt
    rw [knuthD_of_lt hlt, Nat.div_eq_of_lt hnd, Nat.mod_eq_of_lt hnd]
  · have hk : 2 ≤ effectiveLimbs d := by
      have := lt_bitLen_of_le hge
      have := bitLen_le_effectiveLimbs d
      omega
    obtain ⟨hlo, hhi⟩ := normalised_bounds hd
    have hsh := Nat.two_pow_pos (64 * effectiveLimbs d - bitLen d)
    simp only [knuthD, if_neg (Nat.not_lt.2 hle), knuthLoop_of_lt hk hlo hhi (normalised_numerator_lt hd hle)]
    rw [Nat.mul_div_mul_right _ _ hsh, Nat.mul_mod_mul_right, Nat.mul_div_cancel _ hsh]

end Sys2Proof.Machine
end

section
/-! `DIV` to `DIVREM`, the logarithms and `ROOT` (42_divide_log_root.md R184 to R198), and every command that fails on a
zero divisor, modulus or step (43_modular.md R211 to R214; 45_bitscan_compare.md R292). Each of these commands makes one
check and then fails or writes its results, so its outcome follows from its check alone. -/

namespace Sys2Proof.Machine

/-! A command with one check `c`: how it ends when the check hits, and when it does not. -/

section checks
variable {i : Instr} {s t : State} {c : Prop} [Decidable c] {k : Kind}

theorem traps_of_check (hi : exec i s = .next (if c then s.trap k else t)) (hc : c) : i.Traps s k :=
  ⟨_, hi.trans (congrArg _ (if_pos hc)), s.leaves_trap k⟩

theorem absents_of_check (hi : exec i s = .next (if c then s.absent k else t)) (hc : c) : i.Absents s k :=
  ⟨_, hi.trans (congrArg _ (if_pos hc)), s.leaves_absent k⟩

theorem completesV_of_check {vd : VReg} {n : Nat} (hi : exec i s = .next (if c then t else s.doneV vd n))
    (hc : ¬ c) : i.CompletesV s vd n :=
  ⟨_, hi.trans (congrArg _ (if_neg hc)), s.leaves_doneV vd n⟩

theorem completesX_of_check {xd : XReg} {n : Nat} (hi : exec i s = .next (if c then t else s.doneX xd n))
    (hc : ¬ c) : i.CompletesX s xd (BitVec.ofNat 64 n) :=
  ⟨_, hi.trans (congrArg _ (if_neg hc)), s.leaves_doneX xd n⟩

end checks

/-- Two wide destinations: where they differ, the second write leaves the first. -/
theorem State.leaves_writeV_doneV (s : State) {vq vr : VReg} (hne : vq ≠ vr) (q r : Nat) :
    s.Leaves ((s.writeV vq q).doneV vr r) (fun j => if j = vq then q else if j = vr then r else s.readV j) s.readX
      s.readLmem s.st.afterDone s.fcmd s.draws := by
  refine ⟨fun j => ?_, fun _ => rfl, fun _ => rfl, rfl, rfl, rfl, rfl, rfl, rfl, rfl, rfl, rfl⟩
  rw [State.doneV, State.readV_done, State.readV_writeV, State.readV_writeV]
  split
  next hr => rw [if_neg fun hq => hne (hq.symm.trans hr)]
  next => rfl

/-! The dividing commands (R184 to R189). -/

theorem divrem_completesVV {s : State} {vq va vb vr : VReg} (hb : s.readV vb ≠ 0) (hne : vq ≠ vr) :
    (Instr.divrem vq va vb vr).CompletesVV s vq (s.readV va / s.readV vb) vr (s.readV va % s.readV vb) :=
  ⟨_, congrArg Host.Outcome.next (if_neg hb), s.leaves_writeV_doneV hne _ _⟩

/-- Settles O33: `q = n div d`, `r = n mod d`, and the ceiling of R188. -/
theorem divisionQuotientAndRemainder : Obligations.DivisionQuotientAndRemainder := by
  intro s vd va vb vr hb
  obtain ⟨hle, hlt⟩ := divCeil_spec (n := s.readV va) hb
  exact ⟨s.readV va / s.readV vb, s.readV va % s.readV vb, divCeil (s.readV va) (s.readV vb),
    (Nat.div_add_mod' _ _).symm, Nat.mod_lt _ (Nat.pos_of_ne_zero hb), hle, hlt,
    completesV_of_check rfl hb, completesV_of_check rfl hb, completesV_of_check rfl hb, completesV_of_check rfl hb,
    completesV_of_check rfl hb, divrem_completesVV hb⟩

/-- Settles O34: each of these commands checks its divisor, modulus or step first, whatever `DEBUG` is. -/
theorem divisionByZeroFails : Obligations.DivisionByZeroFails := by
  intro s vd va vb vr vz hz
  exact ⟨traps_of_check rfl hz, traps_of_check rfl hz, traps_of_check rfl hz, fun _ => traps_of_check rfl hz,
    traps_of_check rfl hz, traps_of_check rfl hz, traps_of_check rfl hz, traps_of_check rfl hz,
    traps_of_check rfl hz, absents_of_check rfl hz, absents_of_check rfl hz⟩

/-! The logarithms (R190 to R196). -/

/-- Settles O35: the law of `ilog` (R190); a power of a base of 2 or more outgrows `2^k`, so `k < B`. -/
theorem logarithmIsTheLargestExponent : Obligations.LogarithmIsTheLargestExponent := by
  intro s xd va vb hcanon
  refine ⟨fun hb hn => ?_, fun hfail => ⟨traps_of_check rfl hfail, absents_of_check rfl hfail⟩⟩
  have hpass : ¬ (s.readV vb < 2 ∨ s.readV va = 0) := by omega
  obtain ⟨hle, hlt⟩ := ilog_spec hb hn
  exact ⟨ilog (s.readV va) (s.readV vb), ilog_lt hb hn (hcanon va), hle, hlt, completesX_of_check rfl hpass,
    completesX_of_check rfl hpass⟩

/-- R193: the logarithm to base 2 is the position of the top bit. -/
theorem bitLen_sub_one_spec {n : Nat} (hn : n ≠ 0) : 2 ^ (bitLen n - 1) ≤ n ∧ n < 2 ^ (bitLen n - 1 + 1) := by
  obtain ⟨hlt, hle⟩ := bitLen_spec n
  exact ⟨hle hn, by rwa [Nat.sub_add_cancel (bitLen_pos hn)]⟩

/-- Settles O36: base 2 by the bit length, base 10 by `ilog`; both are below `B`, which is below `2^32` (R7). -/
theorem log2AndLog10 : Obligations.Log2AndLog10 := by
  intro s xd va hcanon
  refine ⟨fun hn => ?_, fun hz => ⟨traps_of_check rfl hz, absents_of_check rfl hz, traps_of_check rfl hz,
    absents_of_check rfl hz⟩⟩
  have hB : s.B < 2 ^ 32 := s.params.width.isLt
  have hk : bitLen (s.readV va) - 1 < 2 ^ 32 := by have := bitLen_le (hcanon va); omega
  have hm : ilog (s.readV va) 10 < 2 ^ 32 := (ilog_lt (by decide) hn (hcanon va)).trans hB
  obtain ⟨hle2, hlt2⟩ := bitLen_sub_one_spec hn
  obtain ⟨hle10, hlt10⟩ := ilog_spec (b := 10) (by decide) hn
  exact ⟨bitLen (s.readV va) - 1, ilog (s.readV va) 10, hk, hm, hle2, hlt2, hle10, hlt10,
    completesX_of_check rfl hn, completesX_of_check rfl hn, completesX_of_check rfl hn, completesX_of_check rfl hn⟩

/-! The root (R197, R198). -/

/-- Settles O37: the law of `iroot` (R197) at the full 64-bit degree. -/
theorem rootIsTheFloorRoot : Obligations.RootIsTheFloorRoot := by
  intro s vd va xdeg
  refine ⟨fun hg => ?_, traps_of_check rfl⟩
  obtain ⟨hle, hlt⟩ := iroot_spec (n := s.readV va) hg
  exact ⟨iroot (s.readV va) (s.readX xdeg).toNat, hle, hlt, completesV_of_check rfl hg⟩

end Sys2Proof.Machine
end

section
/-! The binary gcd procedure (43_modular.md R222): stripping twos keeps the odd common divisors, and the trailing zeros
of `a | b` count the common twos. -/

namespace Sys2Proof.Machine

/-! Trailing zeros and the odd part. -/

theorem testBit_trailingZeros {x : Nat} (hx : x ≠ 0) : x.testBit (trailingZeros (bitLen x) x) = true := by
  obtain ⟨hle, hmod, hbit⟩ := trailingZeros_spec (bitLen x) x
  refine hbit (hle.lt_of_ne fun heq => hx ?_)
  rwa [heq, Nat.mod_eq_of_lt (bitLen_spec x).1] at hmod

theorem two_pow_trailingZeros_mul_stripTwos (x : Nat) : 2 ^ trailingZeros (bitLen x) x * stripTwos x = x :=
  Nat.mul_div_cancel' (Nat.dvd_of_mod_eq_zero (trailingZeros_spec (bitLen x) x).2.1)

theorem odd_stripTwos {x : Nat} (hx : x ≠ 0) : Odd (stripTwos x) := by
  have hbit := testBit_trailingZeros hx
  rw [Nat.testBit_eq_decide_div_mod_eq, decide_eq_true_eq] at hbit
  exact Nat.odd_iff.2 hbit

theorem stripTwos_le (x : Nat) : stripTwos x ≤ x := Nat.div_le_self _ _

theorem stripTwos_dvd (x : Nat) : stripTwos x ∣ x :=
  Dvd.intro_left _ (two_pow_trailingZeros_mul_stripTwos x)

/-- An odd number divides what it divides without the twos. -/
theorem dvd_stripTwos_iff {d x : Nat} (hd : Odd d) : d ∣ stripTwos x ↔ d ∣ x := by
  have hcop : Nat.Coprime d (2 ^ trailingZeros (bitLen x) x) := (Nat.coprime_two_right.2 hd).pow_right _
  conv_rhs => rw [← two_pow_trailingZeros_mul_stripTwos x]
  exact hcop.dvd_mul_left.symm

theorem two_pow_dvd_iff_le_trailingZeros {n x : Nat} (hx : x ≠ 0) :
    2 ^ n ∣ x ↔ n ≤ trailingZeros (bitLen x) x := by
  have hcop : Nat.Coprime (2 ^ n) (stripTwos x) := (Nat.coprime_two_left.2 (odd_stripTwos hx)).pow_left _
  conv_lhs => rw [← two_pow_trailingZeros_mul_stripTwos x]
  rw [hcop.dvd_mul_right, Nat.pow_dvd_pow_iff_le_right']

theorem two_pow_dvd_or_iff (n a b : Nat) : 2 ^ n ∣ a ||| b ↔ 2 ^ n ∣ a ∧ 2 ^ n ∣ b := by
  rw [Nat.dvd_iff_mod_eq_zero, Nat.or_mod_two_pow, Nat.or_eq_zero_iff, ← Nat.dvd_iff_mod_eq_zero,
    ← Nat.dvd_iff_mod_eq_zero]

/-- R222: the common twos are those of `a | b`. -/
theorem trailingZeros_or {a b : Nat} (ha : a ≠ 0) : trailingZeros (bitLen (a ||| b)) (a ||| b) =
    trailingZeros (bitLen (Nat.gcd a b)) (Nat.gcd a b) := by
  have hor : a ||| b ≠ 0 := fun h => ha (Nat.or_eq_zero_iff.1 h).1
  refine eq_of_forall_le_iff fun n => ?_
  rw [← two_pow_dvd_iff_le_trailingZeros hor, ← two_pow_dvd_iff_le_trailingZeros (Nat.gcd_ne_zero_left ha),
    two_pow_dvd_or_iff, Nat.dvd_gcd_iff]

/-! Gcds with an odd number. -/

theorem gcd_stripTwos_right {a : Nat} (ha : Odd a) (b : Nat) : Nat.gcd a (stripTwos b) = Nat.gcd a b := by
  have hodd : Odd (Nat.gcd a b) := ha.of_dvd_nat (Nat.gcd_dvd_left a b)
  exact Nat.dvd_antisymm (Nat.gcd_dvd_gcd_of_dvd_right a (stripTwos_dvd b))
    (Nat.dvd_gcd (Nat.gcd_dvd_left a b) ((dvd_stripTwos_iff hodd).2 (Nat.gcd_dvd_right a b)))

/-- The odd part of the gcd is the gcd with one odd part. -/
theorem gcd_stripTwos_left {a : Nat} (ha : a ≠ 0) (b : Nat) : Nat.gcd (stripTwos a) b = stripTwos (Nat.gcd a b) := by
  have hodd := odd_stripTwos (Nat.gcd_ne_zero_left (n := b) ha)
  have hdvd := stripTwos_dvd (Nat.gcd a b)
  refine Nat.dvd_antisymm ?_ (Nat.dvd_gcd ?_ (hdvd.trans (Nat.gcd_dvd_right a b)))
  · exact (dvd_stripTwos_iff ((odd_stripTwos ha).of_dvd_nat (Nat.gcd_dvd_left _ b))).2
      (Nat.gcd_dvd_gcd_of_dvd_left b (stripTwos_dvd a))
  · exact (dvd_stripTwos_iff hodd).2 (hdvd.trans (Nat.gcd_dvd_left a b))

/-- The subtraction of R222. -/
theorem gcd_min_sub (a b : Nat) : Nat.gcd (min a b) (max a b - min a b) = Nat.gcd a b := by
  rcases Nat.le_total a b with h | h
  · rw [min_eq_left h, max_eq_right h, Nat.gcd_sub_self_right h]
  · rw [min_eq_right h, max_eq_left h, Nat.gcd_sub_self_right h, Nat.gcd_comm]

/-! The procedure. -/

/-- R222: each round keeps the gcd, an odd first number and a positive second one, and the sum of the two decreases. -/
theorem binaryGcdLoop_spec (n : Nat) : ∀ {a b : Nat}, Odd a → b ≠ 0 → a + b ≤ n →
    binaryGcdLoop n a b = Nat.gcd a b := by
  induction n with
  | zero => intro a b _ hb hn; omega
  | succ n ih =>
    intro a b ha hb hn
    have hround : Nat.gcd (min a (stripTwos b)) (max a (stripTwos b) - min a (stripTwos b)) = Nat.gcd a b :=
      (gcd_min_sub _ _).trans (gcd_stripTwos_right ha b)
    rw [binaryGcdLoop]
    split
    next hzero => rwa [hzero, Nat.gcd_zero_right] at hround
    next hne =>
      have hpos := ha.pos
      have hle := stripTwos_le b
      exact (ih (min_rec' Odd ha (odd_stripTwos hb)) hne (by omega)).trans hround

/-- Settles O58: the loop computes the odd part of the gcd, and the twos of `a | b` complete it. -/
theorem binaryGcdIsTheGcd : Obligations.BinaryGcdIsTheGcd := by
  intro a b
  rw [binaryGcd]
  split
  next ha => rw [ha, Nat.gcd_zero_left]
  next ha =>
    split
    next hb => rw [hb, Nat.gcd_zero_right]
    next hb =>
      have hfuel : stripTwos a + b ≤ a + b := Nat.add_le_add_right (stripTwos_le a) b
      rw [binaryGcdLoop_spec _ (odd_stripTwos ha) hb hfuel, gcd_stripTwos_left ha, trailingZeros_or ha, Nat.mul_comm,
        two_pow_trailingZeros_mul_stripTwos]

end Sys2Proof.Machine
end

section
/-! The modular unit, Montgomery multiplication and the gcd commands (43_modular.md R210 to R220, R223 to R229). -/

namespace Sys2Proof.Machine

/-! Remainders and the inverse (R210 to R216). -/

/-- Settles O38: one check of the modulus, then the remainder; for `POWMOD` by the law of `powMod` (R214). -/
theorem modularRemainders : Obligations.ModularRemainders := by
  intro s vd va vb vm hm
  refine ⟨completesV_of_check rfl hm, completesV_of_check rfl hm, completesV_of_check rfl hm, ?_⟩
  rw [← powMod_spec]
  exact completesV_of_check rfl hm

theorem cofactorMod_one (a : Nat) : cofactorMod a 1 = 0 := Nat.lt_one_iff.1 (cofactorMod_spec one_ne_zero a).1

/-- R216 as one check: `INVMOD` ends absent exactly for a modulus 0 and a non-unit; modulus 1 needs no case of its own,
because its only residue is 0. -/
theorem exec_invmod (vd va vm : VReg) (s : State) : exec (.invmod vd va vm) s = .next
    (if s.readV vm = 0 ∨ 2 ≤ s.readV vm ∧ Nat.gcd (s.readV va) (s.readV vm) ≠ 1 then s.absent .notInvertible
      else s.doneV vd (cofactorMod (s.readV va) (s.readV vm))) := by
  change execInvmod vd va vm s = _
  simp only [execInvmod, (Nat.mod_modEq _ _).gcd_eq]
  rcases (by omega : s.readV vm = 0 ∨ s.readV vm = 1 ∨ 2 ≤ s.readV vm) with hzero | hone | htwo
  · simp only [hzero, if_true, true_or]
  · simp [hone, cofactorMod_one]
  · have hne0 : s.readV vm ≠ 0 := by omega
    have hne1 : s.readV vm ≠ 1 := by omega
    simp only [hne0, hne1, htwo, if_false, false_or, true_and]

/-- Settles O39: the cofactor of a unit is its inverse (R215). -/
theorem modularInverse : Obligations.ModularInverse := by
  intro s vd va vm
  refine ⟨fun hm hunit => ?_, fun hm => ?_, absents_of_check (exec_invmod vd va vm s)⟩
  · obtain ⟨hlt, hinv⟩ := cofactorMod_spec (m := s.readV vm) (by omega) (s.readV va)
    rw [hunit, Nat.ModEq, Nat.mod_eq_of_lt (show 1 < s.readV vm by omega)] at hinv
    exact ⟨_, hlt, hinv, completesV_of_check (exec_invmod vd va vm s) (by omega)⟩
  · have h := completesV_of_check (exec_invmod vd va vm s) (by omega)
    rwa [hm, cofactorMod_one] at h

/-! Montgomery multiplication (R217 to R220). -/

/-- The first two entry checks in the terms of the claims: limb 0 of the modulus is `m mod 2^64` (R217). -/
theorem redcModulusBad_iff (m inv : Nat) : redcModulusBad m inv = true ↔
    m % 2 = 0 ∨ inv * (m % 2 ^ 64) % 2 ^ 64 ≠ 2 ^ 64 - 1 := by
  rw [redcModulusBad, mul_limb_zero, Nat.mul_mod_mod, Bool.or_eq_true, decide_eq_true_eq, decide_eq_true_eq]

/-- The entry checks of `MULREDC` as one (R219). -/
theorem exec_mulredc (vd va vb vm : VReg) (xinv : XReg) (s : State) : exec (.mulredc vd va vb vm xinv) s = .next
    (if s.readV vm % 2 = 0 ∨ (s.readX xinv).toNat * (s.readV vm % 2 ^ 64) % 2 ^ 64 ≠ 2 ^ 64 - 1 ∨
        s.readV vm ≤ s.readV va ∨ s.readV vm ≤ s.readV vb then s.trap .domainError
      else s.doneV vd (redcMul s.B (s.readV va) (s.readV vb) (s.readV vm) (s.readX xinv).toNat)) := by
  change execMulredc vd va vb vm xinv s = _
  simp only [execMulredc, redcModulusBad_iff, ← ite_or, or_assoc]

/-- R220: squaring is the product of the operand with itself. -/
theorem exec_sqrredc (vd va vm : VReg) (xinv : XReg) (s : State) :
    exec (.sqrredc vd va vm xinv) s = exec (.mulredc vd va va vm xinv) s := by
  change execSqrredc vd va vm xinv s = execMulredc vd va va vm xinv s
  simp only [execSqrredc, execMulredc, or_self]

/-- R218, R219: the law of `MULREDC` for operands that pass the entry checks. -/
theorem mulredc_spec {s : State} {vd va vb vm : VReg} {xinv : XReg} (hm : s.readV vm < 2 ^ s.B)
    (hodd : s.readV vm % 2 = 1) (hinv : (s.readX xinv).toNat * (s.readV vm % 2 ^ 64) % 2 ^ 64 = 2 ^ 64 - 1)
    (ha : s.readV va < s.readV vm) (hb : s.readV vb < s.readV vm) : ∃ r, r < s.readV vm ∧
      r * 2 ^ (64 * ((s.B + 63) / 64)) % s.readV vm = s.readV va * s.readV vb % s.readV vm ∧
      (Instr.mulredc vd va vb vm xinv).CompletesV s vd r := by
  obtain ⟨hlt, hcong⟩ := redcMul_spec hm ha hb ((Nat.mul_mod_mod _ _ _).symm.trans hinv)
  refine ⟨_, hlt, hcong, completesV_of_check (exec_mulredc vd va vb vm xinv s) ?_⟩
  rw [hodd, hinv]
  omega

/-- Settles O40: `SQRREDC` is `MULREDC` of one operand. -/
theorem montgomeryMultiplicationLaw : Obligations.MontgomeryMultiplicationLaw := by
  intro s vd va vb vm xinv hcanon hodd hinv ha
  refine ⟨mulredc_spec (hcanon vm) hodd hinv ha, ?_⟩
  simp only [Instr.CompletesV, exec_sqrredc]
  exact mulredc_spec (hcanon vm) hodd hinv ha ha

/-- Settles O41: `SQRREDC` makes the checks of `MULREDC` of one operand. -/
theorem montgomeryEntryChecks : Obligations.MontgomeryEntryChecks := by
  intro s vd va vb vm xinv
  refine ⟨traps_of_check (exec_mulredc vd va vb vm xinv s), fun hbad => ?_⟩
  refine traps_of_check ((exec_sqrredc vd va vm xinv s).trans (exec_mulredc vd va va vm xinv s)) ?_
  rwa [or_self]

/-! The gcd commands (R221 to R229). -/

/-- R229: a least common multiple out of range ends absent. -/
theorem exec_lcm (vd va vb : VReg) (s : State) : exec (.lcm vd va vb) s = .next
    (if 2 ^ s.B ≤ Nat.lcm (s.readV va) (s.readV vb) then s.absent .overflow
      else s.doneV vd (Nat.lcm (s.readV va) (s.readV vb))) := by
  rw [← exactLcm_spec]
  rfl

/-- Settles O42: `Nat.gcd` and `Nat.lcm` have the divisibility laws of the claim. -/
theorem gcdAndLcm : Obligations.GcdAndLcm := by
  intro s vd va vb
  refine ⟨⟨Nat.gcd (s.readV va) (s.readV vb), Nat.gcd_dvd_left _ _, Nat.gcd_dvd_right _ _, fun _ => Nat.dvd_gcd,
    _, rfl, s.leaves_doneV vd _⟩, Nat.lcm (s.readV va) (s.readV vb), Nat.dvd_lcm_left _ _, Nat.dvd_lcm_right _ _,
    fun _ => Nat.lcm_dvd, fun hfits => ?_, absents_of_check (exec_lcm vd va vb s)⟩
  exact completesV_of_check (exec_lcm vd va vb s) (Nat.not_le.2 hfits)

/-- R228, U5: the triple drawn is the free proposal, unless that breaks the relation. -/
theorem drawnCofactors_eq_or_not_admissible (n B a b : Nat) : drawnCofactors n B a b = Config.freeCofactors n ∨
    admissibleCofactors B a b (Config.freeCofactors n) = false :=
  (Bool.eq_false_or_eq_true _).imp_left drawnCofactors_of_admissible

/-- R228: the three wide results of `GCDEXT`, of which no write hides another where the destinations differ, the sign
and the count of the draw. -/
theorem gcdext_leaves {s : State} {vg vx vy : VReg} (hgx : vg ≠ vx) (hgy : vg ≠ vy) (hxy : vx ≠ vy) (g x y : Nat)
    (sg : Bool) :
    s.Leaves ((((({ s with draws := s.draws + 1 } : State).writeV vg g).writeV vx x).writeV vy y).setSgn sg).done
      (fun j => if j = vg then g else if j = vx then x else if j = vy then y else s.readV j)
      s.readX s.readLmem { s.st.afterDone with sgn := sg } s.fcmd (s.draws + 1) := by
  refine ⟨fun j => ?_, fun _ => rfl, fun _ => rfl, rfl, rfl, rfl, rfl, rfl, rfl, rfl, rfl, rfl⟩
  simp only [State.readV_done, State.readV_setSgn, State.readV_writeV]
  split
  next hy => rw [if_neg fun hg => hgy (hg.symm.trans hy), if_neg fun hx => hxy (hx.symm.trans hy)]
  next =>
    split
    next hx => rw [if_neg fun hg => hgx (hg.symm.trans hx)]
    next => rfl

/-- Settles O43: the relation holds of whatever triple is drawn, split by its sign. -/
theorem gcdextBezoutRelation : Obligations.GcdextBezoutRelation := by
  intro s vg va vb vx vy hcanon hgx hgy hxy
  have hdraw := drawnCofactors_eq_or_not_admissible s.draws s.B (s.readV va) (s.readV vb)
  obtain ⟨hx, hy, hrel⟩ := drawnCofactors_spec s.draws (hcanon va) (hcanon vb)
  refine ⟨_, _, (drawnCofactors s.draws s.B (s.readV va) (s.readV vb)).2.2, _, rfl, hx, hy, ?_,
    gcdext_leaves hgx hgy hxy _ _ _ _, hdraw⟩
  split at hrel
  next hsign => exact .inl ⟨hsign, hrel⟩
  next hsign => exact .inr ⟨Bool.eq_false_iff.2 hsign, hrel⟩

end Sys2Proof.Machine
end

section
/-! The shifter limb by limb (44_bitwise_shift.md R247): limb `j` of the procedure is limb `j` of the exact shift, bit by
bit, since each bit comes from one of the two limbs the procedure joins. -/

namespace Sys2Proof.Machine

/-- R9: every limb of a value that fits `n` limbs; the limbs above are zero. -/
theorem getD_limbsOf {n v : Nat} (hv : v < 2 ^ (64 * n)) (j : Nat) : (limbsOf n v).getD j 0 = limb v j := by
  rw [List.getD_eq_getElem?_getD]
  rcases Nat.lt_or_ge j n with hj | hj
  · rw [limbsOf_getElem? n v j hj, Option.getD_some]
  · have hlt : v < 2 ^ (64 * j) := hv.trans_le (Nat.pow_le_pow_right Nat.two_pos (Nat.mul_le_mul_left 64 hj))
    rw [List.getElem?_eq_none ((length_limbsOf n v).le.trans hj), Option.getD_none, limb, Nat.div_eq_of_lt hlt]
    rfl

theorem map_limb_range (n v : Nat) : (List.range n).map (limb v) = limbsOf n v := by
  refine List.ext_getElem? fun j => ?_
  rcases Nat.lt_or_ge j n with hj | hj
  · rw [limbsOf_getElem? n v j hj, List.getElem?_map, List.getElem?_range hj, Option.map_some]
  · rw [List.getElem?_eq_none (by simpa using hj), List.getElem?_eq_none (by simpa using hj)]

theorem getLsbD_limb_shiftLeft (v j s : Nat) {i : Nat} (hi : i < 64) :
    (limb v j <<< s).getLsbD i = (decide (s ≤ i) && v.testBit (64 * j + (i - s))) := by
  rw [BitVec.getLsbD_shiftLeft, decide_eq_true hi, Bool.true_and, getLsbD_limb _ _ (by omega)]
  rcases Nat.lt_or_ge i s with his | his
  · rw [decide_eq_true his, decide_eq_false (by omega), Bool.not_true]
  · rw [decide_eq_false (by omega), decide_eq_true his, Bool.not_false]

theorem getLsbD_limb_ushiftRight (v j s i : Nat) :
    (limb v j >>> s).getLsbD i = (decide (s + i < 64) && v.testBit (64 * j + (s + i))) := by
  rw [BitVec.getLsbD_ushiftRight]
  rcases Nat.lt_or_ge (s + i) 64 with hsi | hsi
  · rw [getLsbD_limb _ _ hsi, decide_eq_true hsi, Bool.true_and]
  · rw [BitVec.getLsbD_of_ge _ _ hsi, decide_eq_false (by omega), Bool.false_and]

theorem getLsbD_ite_zero (c : Prop) [Decidable c] (w : Word) (i : Nat) :
    (if c then w else 0).getLsbD i = (decide c && w.getLsbD i) := by
  split
  next h => rw [decide_eq_true h, Bool.true_and]
  next h => exact BitVec.getLsbD_zero.trans (by rw [decide_eq_false h, Bool.false_and])

/-- R247: bits `s` and up of limb `j` come from limb `j - o`, the bits under them from the top of the limb below that. -/
theorem shlLimb_limbsOf {n x o s : Nat} (hx : x < 2 ^ (64 * n)) (hs : s < 64) (j : Nat) :
    shlLimb (limbsOf n x) o s j = limb (x * 2 ^ (64 * o + s)) j := by
  apply BitVec.eq_of_getLsbD_eq
  intro i hi
  rw [getLsbD_limb _ _ hi, Nat.testBit_mul_two_pow, shlLimb, getD_limbsOf hx, getD_limbsOf hx, BitVec.getLsbD_or,
    getLsbD_ite_zero, getLsbD_ite_zero, getLsbD_limb_shiftLeft _ _ _ hi, getLsbD_limb_ushiftRight]
  rcases Nat.lt_or_ge i s with his | his
  · have hlow : ¬ s ≤ i := Nat.not_le.2 his
    have htop : 64 - s + i < 64 := by omega
    have hs0 : 0 < s := by omega
    have hin : 64 * o + s ≤ 64 * j + i ↔ o + 1 ≤ j := by omega
    by_cases hj : o + 1 ≤ j
    · have hidx : 64 * j + i - (64 * o + s) = 64 * (j - o - 1) + (64 - s + i) := by omega
      simp [hlow, htop, hs0, hin, hidx]
    · simp [hlow, hin, hj]
  · have hin : 64 * o + s ≤ 64 * j + i ↔ o ≤ j := by omega
    have htop : ¬ 64 - s + i < 64 := by omega
    by_cases hj : o ≤ j
    · have hidx : 64 * j + i - (64 * o + s) = 64 * (j - o) + (i - s) := by omega
      simp [his, htop, hin, hidx]
    · simp [his, htop, hin, hj]

/-- R247: the bits of limb `j` below bit `64 - s` come from limb `j + o`, the others from the bottom of the limb above. -/
theorem shrLimb_limbsOf {n x o s : Nat} (hx : x < 2 ^ (64 * n)) (hs : s < 64) (j : Nat) :
    shrLimb (limbsOf n x) o s j = limb (x / 2 ^ (64 * o + s)) j := by
  apply BitVec.eq_of_getLsbD_eq
  intro i hi
  rw [getLsbD_limb _ _ hi, Nat.testBit_div_two_pow, shrLimb, getD_limbsOf hx, getD_limbsOf hx, BitVec.getLsbD_or,
    getLsbD_ite_zero, getLsbD_limb_ushiftRight, getLsbD_limb_shiftLeft _ _ _ hi]
  rcases Nat.lt_or_ge (s + i) 64 with his | his
  · have hidx : 64 * j + i + (64 * o + s) = 64 * (j + o) + (s + i) := by omega
    have hlow : ¬ 64 - s ≤ i := by omega
    simp [his, hlow, hidx]
  · have hidx : 64 * j + i + (64 * o + s) = 64 * (j + o + 1) + (i - (64 - s)) := by omega
    have hs0 : 0 < s := by omega
    have hhigh : 64 - s ≤ i := by omega
    simp [Nat.not_lt.2 his, hs0, hhigh, hidx]

/-- Settles O59: the limbs of the procedure are those of the exact shift; the left shift loses what lies above the limbs
and the mask, the right shift nothing. -/
theorem shifterLimbFormAgrees : Obligations.ShifterLimbFormAgrees := by
  intro B x k hx _
  have hlimbs := lt_limbs hx
  have hs : k % 64 < 64 := Nat.mod_lt k (by decide)
  have hk : 64 * (k / 64) + k % 64 = k := Nat.div_add_mod k 64
  constructor
  · rw [shlLimbs, funext (shlLimb_limbsOf hlimbs hs), hk, map_limb_range, val_canonLimbs (length_limbsOf _ _),
      val_limbsOf, Nat.mod_mod_of_dvd _ (two_pow_dvd_two_pow_limbs B)]
  · rw [shrLimbs, funext (shrLimb_limbsOf hlimbs hs), hk, map_limb_range,
      val_limbsOf_of_lt ((Nat.div_le_self x _).trans_lt hlimbs)]

end Sys2Proof.Machine
end

section
/-! `NOT`, `AND`, `OR`, `XOR` bit by bit, the rotates and the bit reversal (44_bitwise_shift.md R240 to R244, R260 to R263).
None of these commands checks anything: each writes one wide value and ends. -/

namespace Sys2Proof.Machine

theorem completesV_of_doneV {i : Instr} {s : State} {vd : VReg} {m n : Nat} (hi : exec i s = .next (s.doneV vd m))
    (hm : m = n) : i.CompletesV s vd n :=
  ⟨_, hi.trans (hm ▸ rfl), s.leaves_doneV vd n⟩

/-- Settles O44: the limb-by-limb result of each command is the operation on the whole values. -/
theorem limbParallelLogic : Obligations.LimbParallelLogic := by
  intro s vd va vb hcanon
  have ha := hcanon va
  have hb := hcanon vb
  refine ⟨⟨_, ?_, rfl, fun i hi => ?_, completesV_of_doneV rfl (val_canon_not ha)⟩,
    ⟨_, Nat.and_lt_two_pow _ hb, fun i => Nat.testBit_and _ _ i, completesV_of_doneV rfl (val_and_limbs ha hb)⟩,
    ⟨_, Nat.or_lt_two_pow ha hb, fun i => Nat.testBit_or _ _ i, completesV_of_doneV rfl (val_or_limbs ha hb)⟩,
    ⟨_, Nat.xor_lt_two_pow ha hb, fun i => Nat.testBit_xor _ _ i, completesV_of_doneV rfl (val_xor_limbs ha hb)⟩⟩
  · exact (Nat.sub_le _ _).trans_lt (maxValue_lt s.B)
  · rw [Nat.sub_sub, Nat.add_comm 1, Nat.testBit_two_pow_sub_succ ha, decide_eq_true hi, Bool.true_and]

/-- Settles O45: the rotate laws (R260), which hold for every amount and width. -/
theorem rotatesMoveEveryBit : Obligations.RotatesMoveEveryBit := by
  intro s vd va xk hcanon
  exact ⟨_, _, rotl_lt (hcanon va) _, rotr_lt (hcanon va) _, fun _ => rotl_testBit (hcanon va) _,
    fun _ => rotr_testBit (hcanon va) _, completesV_of_doneV rfl rfl, completesV_of_doneV rfl rfl⟩

/-- R263: bit `i` of the double reversal is bit `B−1−(B−1−i)`. -/
theorem reverseBits_reverseBits {B x : Nat} (hx : x < 2 ^ B) : reverseBits B (reverseBits B x B) B = x := by
  refine Nat.eq_of_testBit_eq fun i => ?_
  rcases Nat.lt_or_ge i B with hi | hi
  · rw [reverseBits_testBit hi, reverseBits_testBit (by omega), show B - 1 - (B - 1 - i) = i by omega]
  · have hpow : 2 ^ B ≤ 2 ^ i := Nat.pow_le_pow_right Nat.two_pos hi
    rw [Nat.testBit_lt_two_pow ((reverseBits_lt B _).trans_le hpow), Nat.testBit_lt_two_pow (hx.trans_le hpow)]

/-- Settles O46: the law of the reversal and its involution; the width of a state is its parameter alone. -/
theorem reverseBitsReversesTheValue : Obligations.ReverseBitsReversesTheValue := by
  intro s vd va hcanon
  refine ⟨_, reverseBits_lt s.B (s.readV va), fun _ => reverseBits_testBit, completesV_of_doneV rfl rfl,
    fun t hparams hread => completesV_of_doneV rfl ?_⟩
  have hB : t.B = s.B := congrArg (fun p => p.width.val) hparams
  rw [State.wide, hread, hB, reverseBits_reverseBits (hcanon va)]

end Sys2Proof.Machine
end

section
/-! The scans, counts and tests, `NEXTPOW2` and `NEXTMULT`, bit and byte access, and the comparisons
(45_bitscan_compare.md R280 to R301). A bit of a result is a bit of the operand at another place, so these laws are
stated in `testBit`. -/

namespace Sys2Proof.Machine

theorem completesX_of_doneX {i : Instr} {s : State} {xd : XReg} {n : Nat} {w : Word}
    (hi : exec i s = .next (s.doneX xd n)) (hw : BitVec.ofNat 64 n = w) : i.CompletesX s xd w :=
  ⟨_, hi, hw ▸ s.leaves_doneX xd n⟩

/-! `EQ`, `LT` and the other commands that write a Boolean: 1 where the condition holds, 0 where it does not. -/

section booleans
variable {i : Instr} {s : State} {xd : XReg} {c : Prop} [Decidable c]

theorem completesX_one_of_test (hi : exec i s = .next (s.doneX xd (if c then 1 else 0))) (hc : c) :
    i.CompletesX s xd 1 :=
  completesX_of_doneX hi (congrArg (BitVec.ofNat 64) (if_pos hc))

theorem completesX_zero_of_test (hi : exec i s = .next (s.doneX xd (if c then 1 else 0))) (hc : ¬ c) :
    i.CompletesX s xd 0 :=
  completesX_of_doneX hi (congrArg (BitVec.ofNat 64) (if_neg hc))

end booleans

/-- Settles O53: both commands test the naturals themselves (R299). -/
theorem equalityAndOrder : Obligations.EqualityAndOrder := fun _ _ _ _ =>
  ⟨completesX_one_of_test rfl, completesX_zero_of_test rfl, completesX_one_of_test rfl, completesX_zero_of_test rfl⟩

/-! The scans (R280 to R284). -/

/-- A value below `2^k` has no bit at `k` or above. -/
theorem testBit_eq_false_of_le {x k i : Nat} (hx : x < 2 ^ k) (hki : k ≤ i) : x.testBit i = false :=
  Nat.testBit_lt_two_pow (hx.trans_le (Nat.pow_le_pow_right Nat.two_pos hki))

/-- The value whose zero bits a scan for bit value `b` counts: `x`, or `MAX − x` when it counts ones (R280). -/
def scanned (B x : Nat) (b : Bool) : Nat := if b then maxValue B - x else x

theorem scanned_lt {B x : Nat} (hx : x < 2 ^ B) (b : Bool) : scanned B x b < 2 ^ B := by
  cases b with
  | false => exact hx
  | true => exact (Nat.sub_le _ _).trans_lt (maxValue_lt B)

theorem testBit_scanned {B x : Nat} (hx : x < 2 ^ B) (b : Bool) {i : Nat} (hi : i < B) :
    (scanned B x b).testBit i = (x.testBit i ^^ b) := by
  cases b with
  | false => exact (Bool.xor_false _).symm
  | true =>
    have hsub : scanned B x true = 2 ^ B - (x + 1) := by rw [Nat.add_comm, ← Nat.sub_sub]; rfl
    rw [hsub, Nat.testBit_two_pow_sub_succ hx, decide_eq_true hi, Bool.true_and, Bool.xor_true]

theorem testBit_eq_of_scanned_eq {B x : Nat} (hx : x < 2 ^ B) {b c : Bool} {i : Nat} (hi : i < B)
    (h : (scanned B x b).testBit i = c) : x.testBit i = (c ^^ b) := by
  rw [← h, testBit_scanned hx b hi, Bool.xor_assoc, Bool.xor_self, Bool.xor_false]

theorem testBit_bitLen_sub_one {x : Nat} (hx : x ≠ 0) : x.testBit (bitLen x - 1) = true := by
  obtain ⟨hle, hlt⟩ := bitLen_sub_one_spec hx
  exact Nat.testBit_of_two_pow_le_and_two_pow_add_one_gt hle hlt

/-- R280: the bits above the highest set one are zero. -/
theorem leadingZeros_spec {B y : Nat} (hy : y < 2 ^ B) :
    (∀ i, B - leadingZeros B y ≤ i → y.testBit i = false) ∧
    (leadingZeros B y < B → y.testBit (B - 1 - leadingZeros B y) = true) := by
  have hlen := bitLen_le hy
  have hdef : leadingZeros B y = B - bitLen y := rfl
  refine ⟨fun i hi => testBit_eq_false_of_le (bitLen_spec y).1 (by omega), fun hlt => ?_⟩
  have hne : y ≠ 0 := by rintro rfl; exact hlt.ne rfl
  rw [show B - 1 - leadingZeros B y = bitLen y - 1 by omega]
  exact testBit_bitLen_sub_one hne

/-- R280: the bits below the lowest set one are zero. -/
theorem testBit_of_lt_trailingZeros {n y i : Nat} (hi : i < trailingZeros n y) : y.testBit i = false := by
  obtain ⟨-, hmod, -⟩ := trailingZeros_spec n y
  have hbit := Nat.testBit_mod_two_pow y (trailingZeros n y) i
  rwa [hmod, Nat.zero_testBit, decide_eq_true hi, Bool.true_and, eq_comm] at hbit

/-- Settles O47: a scan for ones is a scan of the complement for zeros (R280). -/
theorem leadingAndTrailingScans : Obligations.LeadingAndTrailingScans := by
  intro s xd va hcanon b
  have hx := hcanon va
  obtain ⟨habove, hhigh⟩ := leadingZeros_spec (scanned_lt hx b)
  obtain ⟨hle, -, hlow⟩ := trailingZeros_spec s.B (scanned s.B (s.readV va) b)
  refine ⟨leadingZeros s.B (scanned s.B (s.readV va) b), trailingZeros s.B (scanned s.B (s.readV va) b),
    leadingZeros_le _ _, hle, fun i hi htop => ?_, fun hlt => ?_, fun i hi => ?_, fun hlt => ?_, ?_, ?_⟩
  · rw [testBit_eq_of_scanned_eq hx hi (habove i htop), Bool.false_xor]
  · rw [testBit_eq_of_scanned_eq hx (by omega) (hhigh hlt), Bool.true_xor]
  · rw [testBit_eq_of_scanned_eq hx (hi.trans_le hle) (testBit_of_lt_trailingZeros hi), Bool.false_xor]
  · rw [testBit_eq_of_scanned_eq hx hlt (hlow hlt), Bool.true_xor]
  · cases b <;> exact completesX_of_doneX rfl rfl
  · cases b <;> exact completesX_of_doneX rfl rfl

/-! The counts, lengths and tests (R285 to R290). -/

/-- R280: the sum of the bits is the number of set bits. -/
theorem countOnes_eq_card (n x : Nat) :
    countOnes n x = ((Finset.range n).filter fun i => x.testBit i = true).card := by
  rw [countOnes_spec, Finset.card_filter]
  exact Finset.sum_congr rfl fun i _ => by cases x.testBit i <;> rfl

/-- Settles O48: the counts, the bit length and its byte form, and the two tests of R289 and R290. -/
theorem countsLengthsAndTests : Obligations.CountsLengthsAndTests := by
  intro s xd va hcanon c
  have hcount : countOnes s.B (s.readV va) = c := countOnes_eq_card _ _
  have hpow := countOnes_eq_one (hcanon va)
  obtain ⟨hlt, hle⟩ := bitLen_spec (s.readV va)
  exact ⟨completesX_of_doneX rfl (congrArg _ hcount),
    completesX_of_doneX rfl (congrArg (fun n => BitVec.ofNat 64 (s.B - n)) hcount),
    ⟨bitLen (s.readV va), bitLen_le (hcanon va), hlt, hle, fun hz => if_pos hz, completesX_of_doneX rfl rfl,
      completesX_of_doneX rfl rfl⟩,
    completesX_one_of_test rfl, completesX_zero_of_test rfl,
    fun h => completesX_one_of_test rfl (hpow.2 h), fun h => completesX_zero_of_test rfl fun h1 => h (hpow.1 h1)⟩

/-! `NEXTPOW2` and `NEXTMULT` (R291, R292). -/

theorem exec_nextpow2_of_ne {s : State} (vd va : VReg) (hB : s.B ≠ 0) : exec (.nextpow2 vd va) s = .next
    (if 2 ^ s.B ≤ nextPow2 (s.readV va) then s.absent .overflow else s.doneV vd (nextPow2 (s.readV va))) :=
  congrArg Host.Outcome.next (if_neg hB)

theorem exec_nextmult_of_ne {s : State} (vd va vb : VReg) (hm : s.readV vb ≠ 0) :
    exec (.nextmult vd va vb) s = .next
      (if 2 ^ s.B ≤ nextMultiple (s.readV va) (s.readV vb) then s.absent .overflow
        else s.doneV vd (nextMultiple (s.readV va) (s.readV vb))) :=
  congrArg Host.Outcome.next (if_neg hm)

/-- Settles O49: the smallest power and the smallest multiple, each kept where it fits and absent where it does not. -/
theorem nextPowerAndNextMultiple : Obligations.NextPowerAndNextMultiple := by
  intro s vd va vb _
  refine ⟨fun hB => completesV_of_doneV (congrArg Host.Outcome.next (if_pos hB)) rfl, fun hB => ?_, fun hm => ?_⟩
  · obtain ⟨hle, ⟨j, hj⟩, hmin⟩ := nextPow2_spec (s.readV va)
    have hexec := exec_nextpow2_of_ne vd va hB
    rw [hj] at hle hmin hexec
    exact ⟨j, hle, fun i hi => (Nat.pow_le_pow_iff_right Nat.one_lt_two).1 (hmin i hi),
      fun hlt => completesV_of_check hexec hlt.not_ge, absents_of_check hexec⟩
  · obtain ⟨hdvd, hle, hlt⟩ := nextMultiple_spec (x := s.readV va) hm
    have hexec := exec_nextmult_of_ne vd va vb hm
    exact ⟨_, hdvd, hle, hlt, fun hfit => completesV_of_check hexec hfit.not_ge, absents_of_check hexec⟩

/-! `BIT`, `SETBIT`, `CLRBIT` (R293 to R295). -/

theorem testBit_setBit (x i j : Nat) : (x ||| 2 ^ i).testBit j = (decide (j = i) || x.testBit j) := by
  rw [Nat.testBit_or, Nat.testBit_two_pow, Bool.or_comm, decide_eq_decide.2 eq_comm]

/-- Taking bit `i` away (R295) leaves the bits above it and the bits below it. -/
theorem sub_testBit_mul_two_pow (x i : Nat) :
    x - (x.testBit i).toNat * 2 ^ i = 2 ^ (i + 1) * (x / 2 ^ (i + 1)) + x % 2 ^ i := by
  have hsplit := Nat.div_add_mod x (2 ^ (i + 1))
  have hlow : x % 2 ^ (i + 1) = x % 2 ^ i + (x.testBit i).toNat * 2 ^ i := by
    rw [Nat.toNat_testBit, Nat.mod_pow_succ, Nat.mul_comm]
  omega

theorem testBit_clearBit (x i j : Nat) :
    (x - (x.testBit i).toNat * 2 ^ i).testBit j = (!decide (j = i) && x.testBit j) := by
  have hlow : x % 2 ^ i < 2 ^ (i + 1) :=
    (Nat.mod_lt x (Nat.two_pow_pos i)).trans (Nat.pow_lt_pow_succ Nat.one_lt_two)
  rw [sub_testBit_mul_two_pow, Nat.testBit_two_pow_mul_add _ hlow]
  split
  next hj =>
    have hbelow : decide (j < i) = !decide (j = i) := by rw [← decide_not, decide_eq_decide]; omega
    rw [Nat.testBit_mod_two_pow, hbelow]
  next hj =>
    have hne : j ≠ i := by omega
    rw [Nat.testBit_div_two_pow, Nat.sub_add_cancel (Nat.le_of_not_lt hj), decide_eq_false hne, Bool.not_false,
      Bool.true_and]

theorem ofNat_toNat_bool (b : Bool) : BitVec.ofNat 64 b.toNat = if b then 1 else 0 := by cases b <;> rfl

/-- Settles O50: the index is the whole scalar, compared with `B` before it is used. -/
theorem bitReadSetAndClear : Obligations.BitReadSetAndClear := by
  intro s xd vd va xi hcanon i
  have hx := hcanon va
  refine ⟨fun hi => ⟨completesX_of_doneX rfl ?_, _, _, Nat.or_lt_two_pow hx ?_, (Nat.sub_le _ _).trans_lt hx,
    testBit_setBit _ i, testBit_clearBit _ i, completesV_of_check rfl hi.not_ge, completesV_of_check rfl hi.not_ge⟩,
    fun hi => ⟨completesX_of_doneX rfl ?_, traps_of_check rfl hi, traps_of_check rfl hi⟩⟩
  · rw [if_pos hi, ofNat_toNat_bool]
  · exact Nat.pow_lt_pow_right Nat.one_lt_two hi
  · exact congrArg _ (if_neg hi.not_gt)

/-! `BYTE` and `CBYTE` (R296, R297). -/

/-- Little-endian byte `i` as a byte (20_memory.md R51). -/
def byteAt (x i : Nat) : BitVec 8 := BitVec.ofNat 8 (x / 2 ^ (8 * i))

theorem getLsbD_byteAt (x i : Nat) {j : Nat} (hj : j < 8) : (byteAt x i).getLsbD j = x.testBit (8 * i + j) := by
  rw [byteAt, BitVec.getLsbD_ofNat, decide_eq_true hj, Bool.true_and, Nat.testBit_div_two_pow, Nat.add_comm]

theorem ofNat_byteOf (x i : Nat) : BitVec.ofNat 64 (byteOf x i) = (byteAt x i).setWidth 64 := by
  rw [← BitVec.ofNat_toNat]; rfl

/-- Settles O51: the byte is zero-extended, and the index is compared with `ceil(B/8)` before it is used. -/
theorem byteAccess : Obligations.ByteAccess := by
  intro s xd va xi i
  have hbyte := ofNat_byteOf (s.readV va) i
  refine ⟨fun hi => ⟨byteAt (s.readV va) i, fun _ => getLsbD_byteAt _ i, completesX_of_doneX rfl ?_, ?_⟩,
    fun hi => ⟨completesX_of_doneX rfl ?_, absents_of_check rfl hi⟩⟩
  · exact (congrArg _ (if_pos hi)).trans hbyte
  · exact hbyte ▸ completesX_of_check rfl hi.not_ge
  · exact congrArg _ (if_neg hi.not_gt)

/-! `MSBITS` (R298). -/

/-- The top `k` bits of a `B`-bit value, right-aligned in a word. -/
theorem getLsbD_topBits {B x k : Nat} (hx : x < 2 ^ B) (h64 : k ≤ 64) (hB : k ≤ B) (j : Nat) :
    (BitVec.ofNat 64 (x / 2 ^ (B - k))).getLsbD j = (decide (j < k) && x.testBit (B - k + j)) := by
  rw [BitVec.getLsbD_ofNat, Nat.testBit_div_two_pow, Nat.add_comm j]
  rcases Nat.lt_or_ge j k with hj | hj
  · rw [decide_eq_true hj, decide_eq_true (hj.trans_le h64)]
  · rw [testBit_eq_false_of_le hx (by omega), Bool.and_false, Bool.and_false]

/-- Settles O52: the count is the whole scalar, checked against 64 and `B` before it is used. -/
theorem mostSignificantBits : Obligations.MostSignificantBits := by
  intro s xd va xk hcanon k
  exact ⟨fun h64 hB => ⟨_, getLsbD_topBits (hcanon va) h64 hB,
    completesX_of_check rfl (not_or_intro h64.not_gt hB.not_gt)⟩, traps_of_check rfl⟩

end Sys2Proof.Machine
end

section
/-! How a command ends, read off its outcome (60_exceptions.md R320 to R325): what no command writes, the kind it
reports, and the registers and limb words it leaves alone. -/

namespace Sys2Proof.Machine

section done
variable {s t : State} {wd : List VReg} {xd : List XReg} {o g l : Bool}

/-- R323. -/
theorem Done.status_fcmd (h : Done s t wd xd o g l) :
    t.st.abs = false ∧ t.st.kind = none ∧ t.st.fault = s.st.fault ∧ t.st.busy = s.st.busy ∧ t.fcmd = s.fcmd := by
  rw [h.only]
  exact ⟨rfl, rfl, rfl, rfl, rfl⟩

theorem Done.kept_fields (h : Done s t wd xd o g l) : t.params = s.params ∧ t.rst = s.rst ∧ t.host = s.host ∧
    t.hostData = s.hostData ∧ t.epoch = s.epoch ∧ t.cmd = s.cmd := by
  rw [h.only]
  exact ⟨rfl, rfl, rfl, rfl, rfl, rfl⟩

theorem Done.readLmem_eq (h : Done s t wd xd o g l) (hl : l = false) (a : Nat) : t.readLmem a = s.readLmem a := by
  obtain ⟨-, -, -, -, hepoch, -⟩ := h.kept_fields
  rw [State.readLmem, State.readLmem, h.lmem hl, hepoch]

end done

section outcome
variable {i : Instr} {s t : State}

theorem Outcome.kept_fields (h : Outcome i s t) : t.params = s.params ∧ t.rst = s.rst ∧ t.host = s.host ∧
    t.hostData = s.hostData ∧ t.epoch = s.epoch ∧ t.cmd = s.cmd := by
  obtain hdone | ⟨k, -, rfl⟩ | ⟨k, -, rfl⟩ := h
  · exact hdone.kept_fields
  · exact ⟨rfl, rfl, rfl, rfl, rfl, rfl⟩
  · exact ⟨rfl, rfl, rfl, rfl, rfl, rfl⟩

/-- A block that had not faulted tells by `FAULT` which of R321's two lists the kind of a failure is from. -/
theorem Outcome.kind_mem (h : Outcome i s t) (hf : s.st.fault = false) {k : Kind} (hk : t.st.kind = some k) :
    k ∈ if t.st.fault then i.trapKinds else i.absentKinds := by
  obtain hdone | ⟨k', hmem, rfl⟩ | ⟨k', hmem, rfl⟩ := h
  · obtain ⟨-, hnone, -⟩ := hdone.status_fcmd
    cases hnone.symm.trans hk
  · obtain rfl : k' = k := Option.some.inj hk
    rwa [State.absent_st, hf, if_neg Bool.false_ne_true]
  · obtain rfl : k' = k := Option.some.inj hk
    rwa [State.trap_st, if_pos rfl]

theorem Outcome.done_of_no_failure (h : Outcome i s t) (ht : i.trapKinds = []) (ha : i.absentKinds = []) :
    Done s t i.wideDests i.scalarDests i.writesOvf (isGcdext i) (isStl i) := by
  obtain hdone | ⟨k, hk, -⟩ | ⟨k, hk, -⟩ := h
  · exact hdone
  · exact absurd (ha ▸ hk) List.not_mem_nil
  · exact absurd (ht ▸ hk) List.not_mem_nil

theorem Outcome.readV_eq (h : Outcome i s t) {j : VReg} (hj : j ∉ i.wideDests) : t.readV j = s.readV j := by
  obtain hdone | ⟨k, -, rfl⟩ | ⟨k, -, rfl⟩ := h
  · exact hdone.wide j hj
  · exact s.readV_absent k j
  · exact s.readV_trap k j

theorem Outcome.readX_eq (h : Outcome i s t) {j : XReg} (hj : j ∉ i.scalarDests) : t.readX j = s.readX j := by
  obtain hdone | ⟨k, -, rfl⟩ | ⟨k, -, rfl⟩ := h
  · exact hdone.scalar j hj
  · exact s.readX_absent k j
  · exact s.readX_trap k j

theorem Outcome.readLmem_eq (h : Outcome i s t) (hi : isStl i = false) (a : Nat) : t.readLmem a = s.readLmem a := by
  obtain hdone | ⟨k, -, rfl⟩ | ⟨k, -, rfl⟩ := h
  · exact hdone.readLmem_eq hi a
  · exact s.readLmem_absent k a
  · exact s.readLmem_trap k a

theorem Outcome.fcmd_eq (h : Outcome i s t) :
    t.fcmd = s.fcmd ∨ (t.st.fault = true ∧ t.fcmd = s.cmd.setWidth 64) := by
  obtain hdone | ⟨k, -, rfl⟩ | ⟨k, -, rfl⟩ := h
  · obtain ⟨-, -, -, -, hfcmd⟩ := hdone.status_fcmd
    exact .inl hfcmd
  · exact .inl (s.absent_fcmd k)
  · exact .inr ⟨rfl, s.trap_fcmd k⟩

end outcome

theorem isStl_eq_false {i : Instr} (h : ∀ vs xaddr, i ≠ .stl vs xaddr) : isStl i = false := by
  unfold isStl
  split
  · exact absurd rfl (h _ _)
  · rfl

/-- Settles O15: the outcomes of a command are the three of R323 to R325. -/
theorem everyCommandEndsInOneOfThreeOutcomes : Obligations.EveryCommandEndsInOneOfThreeOutcomes := by
  intro i s
  obtain ⟨t, hexec, ho⟩ := exec_outcome i s
  refine ⟨t, hexec, ho.kept_fields, ?_⟩
  obtain hdone | habsent | htrap := ho
  · exact .inl hdone.status_fcmd
  · exact .inr (.inl habsent)
  · exact .inr (.inr htrap)

/-- Settles O16: `KIND` and `FAULT` of the state a command leaves say which list its failure is from, and with both
lists empty only `done` is left. -/
theorem failureKindsPerCommand : Obligations.FailureKindsPerCommand := by
  refine ⟨fun i s k hf => ⟨?_, ?_⟩, fun i s htrap habsent => ?_, rfl⟩
  · rintro ⟨t, hexec, hleaves⟩
    have hmem := (outcome_of_exec hexec).kind_mem hf (congrArg Status.kind hleaves.status)
    rwa [hleaves.status, if_pos rfl] at hmem
  · rintro ⟨t, hexec, hleaves⟩
    have hmem := (outcome_of_exec hexec).kind_mem hf (congrArg Status.kind hleaves.status)
    rwa [hleaves.status, hf, if_neg Bool.false_ne_true] at hmem
  · obtain ⟨t, hexec, ho⟩ := exec_outcome i s
    obtain ⟨habs, hkind, hfault, -, hfcmd⟩ := (ho.done_of_no_failure htrap habsent).status_fcmd
    exact ⟨t, hexec, habs, hkind, hfault, hfcmd⟩

/-- Settles O18: `done` writes the destinations, and limb memory only for `STL`; the two failures write neither. -/
theorem commandsWriteOnlyTheirDestinations : Obligations.CommandsWriteOnlyTheirDestinations := by
  intro i s t hexec
  have ho := outcome_of_exec hexec
  exact ⟨fun _ => ho.readV_eq, fun _ => ho.readX_eq, fun hi => ho.readLmem_eq (isStl_eq_false hi), ho.fcmd_eq⟩

end Sys2Proof.Machine
end

section
/-! The frozen block (60_exceptions.md R326; 70_reset_and_hazards.md R350; 20_memory.md R57): what is left for a step to
do once a command has trapped. -/

namespace Sys2Proof.Machine

/-- R326: the word is not even decoded. -/
theorem State.giveCommand_of_fault (s : State) (hf : s.st.fault = true) (w : Word) : s.giveCommand w = .next s := by
  rw [State.giveCommand, if_pos hf]
  exact ite_self _

/-- Everything a host action can do to a faulted block, the release of an asserted reset aside: it changes the host's
side and the reset input, or writes one `X` register, or one `LMEM` word. -/
theorem HostStep.cases_of_fault {u t : State} {a : HostAction} (h : HostStep u a t) (hf : u.st.fault = true)
    (hr : ¬ (a = .releaseRst ∧ u.rst = true)) :
    (∃ d r, t = { u with hostData := d, rst := r }) ∨
    (∃ (j : XReg) (w : Word), a = .write (0x010 + j.val) w ∧ t = u.writeX j w) ∨
    ∃ (b : Nat) (w : Word), a = .write (0x100000000 + b) w ∧ t = u.writeLmem b w := by
  cases h with
  | read i => exact .inl ⟨_, _, rfl⟩
  | write i w hi =>
    obtain ⟨j, rfl, h⟩ | ⟨b, -, rfl, h⟩ | h := hostWrite_cases u i w
    · exact .inr (.inl ⟨j, w, rfl, h⟩)
    · exact .inr (.inr ⟨b, w, rfl, h⟩)
    · exact .inl ⟨_, _, h⟩
  | discarded w _ => exact .inl ⟨_, _, rfl⟩
  | illegal _ _ _ hf' _ => cases hf.symm.trans hf'
  | command _ _ _ _ hf' _ _ _ => cases hf.symm.trans hf'
  | assertRst => exact .inl ⟨_, _, rfl⟩
  | reset h => exact absurd ⟨rfl, h⟩ hr
  | idleRelease _ => exact .inl ⟨_, _, rfl⟩

/-- `HostStep.cases_of_fault` for a step; with no action pending nothing changes. -/
theorem step_cases_of_fault {s t : State} (hstep : step s = .next t) (hf : s.st.fault = true)
    (hr : ¬ ∃ rest, s.host = .releaseRst :: rest ∧ s.rst = true) :
    (∃ l d r, t = { s with host := l, hostData := d, rst := r }) ∨
    (∃ (j : XReg) (w : Word) (rest : List HostAction), s.host = .write (0x010 + j.val) w :: rest ∧
      t = State.writeX { s with host := rest } j w) ∨
    ∃ (b : Nat) (w : Word) (rest : List HostAction), s.host = .write (0x100000000 + b) w :: rest ∧
      t = State.writeLmem { s with host := rest } b w := by
  obtain ⟨-, rfl⟩ | ⟨a, rest, hhost, hs⟩ := step_next hstep
  · exact .inl ⟨_, _, _, rfl⟩
  · have hr' : ¬ (a = .releaseRst ∧ s.rst = true) := fun ⟨ha, hrst⟩ => hr ⟨rest, ha ▸ hhost, hrst⟩
    obtain ⟨d, r, h⟩ | ⟨j, w, rfl, h⟩ | ⟨b, w, rfl, h⟩ := hs.cases_of_fault hf hr'
    · exact .inl ⟨rest, d, r, h⟩
    · exact .inr (.inl ⟨j, w, rest, hhost, h⟩)
    · exact .inr (.inr ⟨b, w, rest, hhost, h⟩)

theorem step_command_of_fault {s : State} {u : Word} {rest : List HostAction}
    (hhost : s.host = .write cmdIndex u :: rest) (hf : s.st.fault = true) (hb : s.st.busy = false) :
    step s = .next { s with host := rest } := calc step s
  _ = State.hostAct { s with host := rest } (.write cmdIndex u) := step_of_host_cons hhost
  _ = State.giveCommand { s with host := rest } u := State.hostAct_write_cmd { s with host := rest } hb u
  _ = .next { s with host := rest } := State.giveCommand_of_fault { s with host := rest } hf u

/-- The frame of a step of a faulted block (R326). -/
theorem step_frame_of_fault {s t : State} (hstep : step s = .next t) (hf : s.st.fault = true)
    (hr : ¬ ∃ rest, s.host = .releaseRst :: rest ∧ s.rst = true) :
    (∀ i, t.readV i = s.readV i) ∧ t.st = s.st ∧ t.fcmd = s.fcmd ∧ t.cmd = s.cmd ∧ t.params = s.params ∧
    (∀ i : XReg, t.readX i ≠ s.readX i → ∃ w rest, s.host = .write (0x010 + i.val) w :: rest) ∧
    (∀ a, t.readLmem a ≠ s.readLmem a → ∃ w rest, s.host = .write (0x100000000 + a) w :: rest) := by
  obtain ⟨l, d, r, rfl⟩ | ⟨j, w, rest, hhost, rfl⟩ | ⟨b, w, rest, hhost, rfl⟩ := step_cases_of_fault hstep hf hr
  · exact ⟨fun _ => rfl, rfl, rfl, rfl, rfl, fun _ h => absurd rfl h, fun _ h => absurd rfl h⟩
  · refine ⟨fun _ => rfl, rfl, rfl, rfl, rfl, fun i h => ?_, fun _ h => absurd rfl h⟩
    obtain rfl : i = j := by_contra fun hne => h ((State.readX_writeX _ j w i).trans (if_neg hne))
    exact ⟨w, rest, hhost⟩
  · refine ⟨fun _ => rfl, rfl, rfl, rfl, rfl, fun _ h => absurd rfl h, fun a h => ?_⟩
    obtain rfl : a = b := by_contra fun hne => h ((State.readLmem_writeLmem _ b w a).trans (if_neg hne))
    exact ⟨w, rest, hhost⟩

/-- Settles O7: a faulted block discards commands, and the frame of every other step keeps `ST`, so `FAULT` falls only
with reset. -/
theorem faultFreezesTheBlock : Obligations.FaultFreezesTheBlock := by
  intro s hf hb
  refine ⟨fun u rest hhost => step_command_of_fault hhost hf hb, fun t hstep => step_frame_of_fault hstep hf,
    fun t hstep hclear => by_contra fun hr => ?_, fun ⟨_, _, hclear⟩ => ?_⟩
  · obtain ⟨-, hst, -⟩ := step_frame_of_fault hstep hf hr
    rw [hst, hf] at hclear
    cases hclear
  · cases hf.symm.trans hclear

end Sys2Proof.Machine
end

section
/-! The reset input (70_reset_and_hazards.md R350, R353): commands are dropped while it is asserted, and the reset state
is taken at its release. -/

namespace Sys2Proof.Machine

theorem State.giveCommand_of_rst (s : State) (hr : s.rst = true) (w : Word) : s.giveCommand w = .next s := by
  rw [State.giveCommand, if_pos hr]

theorem State.hostAct_assertRst (s : State) : s.hostAct .assertRst = .next { s with rst := true } := rfl

theorem State.hostAct_releaseRst (s : State) (hr : s.rst = true) : s.hostAct .releaseRst = .next s.afterReset := by
  rw [State.hostAct, if_pos hr]

@[simp] theorem State.afterReset_st (s : State) :
    s.afterReset.st = ⟨false, false, false, false, none, false⟩ := rfl

@[simp] theorem State.afterReset_fcmd (s : State) : s.afterReset.fcmd = 0 := rfl

@[simp] theorem State.afterReset_cmd (s : State) : s.afterReset.cmd = 0 := rfl

@[simp] theorem State.afterReset_rst (s : State) : s.afterReset.rst = false := rfl

@[simp] theorem State.afterReset_host (s : State) : s.afterReset.host = s.host := rfl

@[simp] theorem State.afterReset_hostData (s : State) : s.afterReset.hostData = s.hostData := rfl

@[simp] theorem State.afterReset_epoch (s : State) : s.afterReset.epoch = s.epoch + 1 := rfl

@[simp] theorem State.afterReset_draws (s : State) : s.afterReset.draws = s.draws := rfl

/-- Nothing stored before a reset is found after it (R353): the memory is empty and the epoch a new one. -/
@[simp] theorem State.readLmem_afterReset (s : State) (a : Nat) :
    s.afterReset.readLmem a = Config.freeLmemWord (s.epoch + 1) a := rfl

theorem step_command_of_rst {s : State} {u : Word} {rest : List HostAction}
    (hhost : s.host = .write cmdIndex u :: rest) (hr : s.rst = true) (hb : s.st.busy = false) :
    step s = .next { s with host := rest } := calc step s
  _ = State.hostAct { s with host := rest } (.write cmdIndex u) := step_of_host_cons hhost
  _ = State.giveCommand { s with host := rest } u := State.hostAct_write_cmd { s with host := rest } hb u
  _ = .next { s with host := rest } := State.giveCommand_of_rst { s with host := rest } hr u

theorem step_releaseRst {s : State} {rest : List HostAction} (hhost : s.host = .releaseRst :: rest)
    (hr : s.rst = true) : step s = .next (State.afterReset { s with host := rest }) :=
  (step_of_host_cons hhost).trans (State.hostAct_releaseRst { s with host := rest } hr)

/-- Settles O6: each of the three actions has one equation of `step`, and `State.afterReset` keeps nothing of the block
but its parameters. -/
theorem resetInputClearsEverything : Obligations.ResetInputClearsEverything := by
  intro s rest
  refine ⟨fun hhost => ?_, fun u hhost hr hb => step_command_of_rst hhost hr hb,
    fun hhost hr => ⟨_, step_releaseRst hhost hr, ?_⟩⟩
  · exact (step_of_host_cons hhost).trans (State.hostAct_assertRst { s with host := rest })
  · exact ⟨State.readV_afterReset _, State.readX_afterReset _, State.afterReset_st _, State.afterReset_fcmd _,
      State.afterReset_cmd _, State.afterReset_rst _, State.afterReset_params _, State.afterReset_host _,
      State.afterReset_hostData _, State.readLmem_afterReset _, State.afterReset_epoch _, State.afterReset_draws _⟩

end Sys2Proof.Machine
end
